-- ==== Sys2Proof/Word.lean ====
section
/-! DEFINITION. The words of the machine: bytes, 16-bit addresses, 32-bit colours, and the plain-data form of its
memories (00_scope.md R5, R8, R9). -/

namespace Sys2Proof

/-- A byte: 8 bits, bit 0 least significant (R8). -/
abbrev Byte := BitVec 8

/-- A 16-bit address or program counter value; its arithmetic wraps modulo 65536 (R5, R9). -/
abbrev Addr := BitVec 16

/-- One pixel's colour, `0xAARRGGBB` (R46, R278). -/
abbrev Colour := BitVec 32

/-- A byte memory: its nonzero cells in rising order of address. An address that is not listed holds 0x00. -/
abbrev Memory := List Host.Cell

/-- A frame buffer: the pixels that differ from opaque black, at key `y * 256 + x`, in rising order of key. -/
abbrev Pixels := List (Nat × Colour)

end Sys2Proof
end

