-- ==== Sys2Proof/Config.lean ====
section
/-! DEFINITION. The parameters a model takes as arguments (00_scope.md R5), other than the cartridge's own: the cost of
the bulk OAM transfer, the colour table, and the contents of the memories at power-on. They are constants of a run, held
in the state as plain data so that every statement about every state holds for every value of them. -/

namespace Sys2Proof

/-- Opaque black, the value of every frame buffer cell after power-on (R56). -/
def opaqueBlack : Colour := 0xFF000000#32

/-- The open parameters of R5. No rule changes one during a run (R51). -/
structure Config where
  /-- `oam_dma_cycles`: processor cycles a bulk OAM transfer adds (R283, R353). -/
  oamDmaCycles : Nat
  /-- `palette_argb`: the colour of each 6-bit index, in order; an index past the end of the list is opaque black
  (R278, log entry 5). -/
  paletteArgb : List Colour
  /-- `ram_init` (R58). -/
  ramInit : Memory
  /-- `oam_init` (R58). -/
  oamInit : Memory
  /-- `nametable_init` (R58). -/
  nametableInit : Memory
  /-- `palette_init` (R58). -/
  paletteInit : Memory
  /-- `chr_ram_init` (R58). -/
  chrRamInit : Memory
  deriving DecidableEq, Repr

/-- The parameters of `State.reset`: R5's default 513 for the transfer; for every parameter the spec leaves open, the
value of log entries 4 and 5 (DESIGN CHOICE): every memory all zero, every colour opaque black. -/
def Config.standard : Config where
  oamDmaCycles := 513
  paletteArgb := []
  ramInit := []
  oamInit := []
  nametableInit := []
  paletteInit := []
  chrRamInit := []

end Sys2Proof
end

