-- ==== Sys2Proof/Machine/State.lean ====
section
/-! DEFINITION. The machine's state as plain data (10_state.md R20-R59), the reasons a step stops, and the state after
power-on and reset. -/

namespace Sys2Proof.Machine

/-! ### The cartridge (R47, R48) -/

/-- A cartridge's mapper: its variant, with the variant's own state (R48, R70). A further variant is a further
constructor. -/
inductive Mapper where
  /-- The fixed mapping, NROM: it has no bank registers, so no state (R48, R71). -/
  | fixed
  deriving DecidableEq, Repr

/-- The cartridge: the parameters of R5 that come from the image's header, the program ROM, and character memory. -/
structure Cartridge where
  /-- `prg_pages`, 16 KiB units of program ROM. -/
  prgPages : Nat
  /-- `chr_pages`, 8 KiB units of character ROM; 0 means 8 KiB of character RAM. -/
  chrPages : Nat
  /-- `mirroring`: false is 0, horizontal; true is 1, vertical (R82). -/
  mirroring : Bool
  /-- `four_screen` (R82). -/
  fourScreen : Bool
  /-- `battery`: read by no rule (R93). -/
  battery : Bool
  /-- `trainer_present`: read by no rule but the loader's (R93, R95). -/
  trainerPresent : Bool
  /-- `console_type`: read by no rule (R93). -/
  consoleType : BitVec 2
  /-- `mapper_id` (R94). -/
  mapperId : Byte
  /-- The mapper instance (R47, R70). -/
  mapper : Mapper
  /-- `prg_rom`, immutable (R96). -/
  prgRom : Memory
  /-- `chr_mem`: character ROM, or character RAM when `chrPages = 0` (R47). -/
  chrMem : Memory
  deriving DecidableEq, Repr

/-! ### The picture unit (R35-R46) -/

/-- The picture unit's state. -/
structure Ppu where
  /-- The scanline, -1 to 260 (R35). -/
  scanline : Int
  /-- The dot within the scanline, 0 to 340 (R35). -/
  dot : Nat
  /-- Completed frames (R35). -/
  frame : Nat
  /-- The control register (R36). -/
  ctrl : Byte
  /-- The mask register (R37). -/
  mask : Byte
  /-- The vertical-blank flag, bit 7 of the status register (R38). -/
  vblank : Bool
  /-- The write toggle shared by the scroll and address registers (R39). -/
  w : Bool
  /-- The VRAM address latch (R40). -/
  vramAddr : Addr
  /-- The horizontal scroll (R41). -/
  scrollX : Byte
  /-- The vertical scroll (R41). -/
  scrollY : Byte
  /-- The OAM address (R42). -/
  oamAddr : Byte
  /-- Object attribute memory, 256 bytes (R43). -/
  oam : Memory
  /-- Nametable RAM, 2048 bytes, or 4096 with four screens (R44). -/
  ntRam : Memory
  /-- Palette RAM, 32 bytes (R45). -/
  palRam : Memory
  /-- The back buffer, which the renderer writes (R46). -/
  back : Pixels
  /-- The front buffer, the last published frame (R46). -/
  front : Pixels
  deriving DecidableEq, Repr

/-- The picture unit's eight registers, in the order of R260: the register at `0x2000 + n`. -/
inductive PpuReg where
  | ctrl | mask | status | oamAddr | oamData | scroll | addr | data
  deriving DecidableEq, Repr

/-! ### Where an access goes (R63, R79) -/

/-- The target of a main-path access (R63). -/
inductive BusTarget where
  /-- Internal RAM, at this cell (R64). -/
  | ram (cell : Nat)
  /-- A picture unit register (R65). -/
  | register (r : PpuReg)
  /-- The OAM transfer trigger, a write-only exception inside the stub (R67). -/
  | oamTrigger
  /-- The audio and I/O stub (R66). -/
  | stub
  /-- Nothing (R68). -/
  | unmapped
  /-- The cartridge, through its mapper (R69). -/
  | cartridge
  deriving DecidableEq, Repr

/-- The cell of a video-path access (R79). -/
inductive VideoCell where
  | chr (cell : Nat)
  | nametable (cell : Nat)
  | palette (cell : Nat)
  deriving DecidableEq, Repr

/-! ### The outside world (R33, R323) -/

/-- The host's calls on the machine (R323), other than the loop itself. Reading the registers and the front buffer is
reading fields of the state. -/
inductive HostCall where
  | powerOn
  | reset
  /-- One Processor step without the ticks that the loop makes follow it: a test harness's call, which breaks the
  lock-step invariant (R323). -/
  | step
  /-- `n` ticks without a Processor step. -/
  | advance (n : Nat)
  | readByte (a : Addr)
  | readWord (a : Addr)
  | writeByte (a : Addr) (v : Byte)
  | writeWord (a : Addr) (v : Addr)
  deriving DecidableEq, Repr

/-- What the host does next: it lets the loop run one iteration, with the levels of the two input lines at that
iteration's sampling point (R33, R320), or it makes a call between two iterations (R103). -/
inductive Input where
  | sample (irqLine stopRequest : Bool)
  | call (c : HostCall)
  deriving DecidableEq, Repr

/-- The diagnostic event of an undefined opcode: its address and its byte (R246). -/
structure UndefinedOpcode where
  address : Addr
  opcode : Byte
  deriving DecidableEq, Repr

/-! ### The state -/

/-- Everything the spec gives the machine. The last three fields are the model's own: the parameters of R5, the host's
input stream, and the diagnostic events emitted so far, which the spec makes an input and an output and not state
(R33, R51; log entries 1, 2 and 3). -/
structure State where
  /-- The accumulator (R20). -/
  a : Byte
  /-- Index register X (R20). -/
  x : Byte
  /-- Index register Y (R20). -/
  y : Byte
  /-- The stack pointer, an offset into page 0x01 (R22). -/
  sp : Byte
  /-- The status register (R23, R24). -/
  p : Byte
  /-- The program counter (R21). -/
  pc : Addr
  /-- The cycle counter (R30). -/
  cyc : Nat
  /-- The halt flag (R31). -/
  halted : Bool
  /-- The pending non-maskable interrupt (R32). -/
  nmiPending : Bool
  /-- Internal RAM, 2048 bytes (R34). -/
  ram : Memory
  /-- The picture unit (R35-R46). -/
  ppu : Ppu
  /-- The cartridge (R47, R48). -/
  cart : Cartridge
  /-- The parameters (R5). -/
  config : Config
  /-- What the host does next, soonest first; when the list is empty the loop runs with both lines at 0 (R33). -/
  inputs : List Input
  /-- The diagnostic events emitted so far, oldest first (R246). -/
  events : List UndefinedOpcode
  deriving DecidableEq, Repr

/-- Faults. There are none: "Nothing in the core throws for control flow" and no access, decode or arithmetic operation
can raise anything (R7, R88, R300). -/
inductive Fault where
  deriving DecidableEq, Repr

/-- Refusals. -/
inductive Refusal where
  /-- Raised by an arm of `exec` whose instruction has no meaning yet; safe. No arm raises it. -/
  | notModelled (mnemonic : String)
  /-- Raised by `step`, before anything else happens, when the cartridge is one R94 refuses: an unsupported mapper id
  or no program page. "no Cartridge is constructed; the System must not start". Safe. -/
  | unsupportedCartridge
  deriving DecidableEq, Repr

/-- What a meaning answers. -/
abbrev Result := Host.Outcome State Fault Refusal

/-! ### The start state -/

/-- The picture unit after power-on (R56, R340), with the power-on contents of its memories. -/
def Ppu.start (oam ntRam palRam : Memory) : Ppu where
  scanline := -1
  dot := 0
  frame := 0
  ctrl := 0x00
  mask := 0x00
  vblank := false
  w := false
  vramAddr := 0x0000
  scrollX := 0x00
  scrollY := 0x00
  oamAddr := 0x00
  oam := oam
  ntRam := ntRam
  palRam := palRam
  back := []
  front := []

/-- The cartridge of `State.reset` (log entry 6, DESIGN CHOICE): mapper 0, one program page with every byte 0x00,
character RAM, horizontal mirroring. No program is in it. -/
def Cartridge.blank : Cartridge where
  prgPages := 1
  chrPages := 0
  mirroring := false
  fourScreen := false
  battery := false
  trainerPresent := false
  consoleType := 0
  mapperId := 0x00
  mapper := .fixed
  prgRom := []
  chrMem := []

/-- The machine after `powerOn()` and then `reset()` (R55-R59, R342, R343), with the standard parameters and the blank
cartridge. The program counter is the word the reset vector holds, `MemRead16(0xFFFC)`, 0x0000 in that cartridge
(`reset_pc` in Laws/Reset.lean). -/
def State.reset : State where
  a := 0x00
  x := 0x00
  y := 0x00
  sp := 0xFD
  p := 0x34
  pc := 0x0000
  cyc := 0
  halted := false
  nmiPending := false
  ram := Config.standard.ramInit
  ppu := Ppu.start Config.standard.oamInit Config.standard.nametableInit Config.standard.paletteInit
  cart := Cartridge.blank
  config := Config.standard
  inputs := []
  events := []

end Sys2Proof.Machine
end

