-- ==== Sys2Proof/Machine/Flags.lean ====
section
/-! DEFINITION. The status register's flags (R24-R29) and every flag computation: Zero and Negative, add, subtract,
compare, bit test, shifts and rotates. -/

namespace Sys2Proof.Machine

/-- The eight flags of P (R24). -/
inductive Flag where
  | negative | overflow | unused | break | decimal | interruptDisable | zero | carry
  deriving DecidableEq, Repr

/-- A flag's bit position in P (R24). -/
def Flag.pos : Flag → Nat
  | .negative => 7
  | .overflow => 6
  | .unused => 5
  | .break => 4
  | .decimal => 3
  | .interruptDisable => 2
  | .zero => 1
  | .carry => 0

/-- The flag `f` of the status byte `p`. -/
def getFlag (f : Flag) (p : Byte) : Bool := p.getLsbD f.pos

/-- The status byte `p` with the flag `f` set to `b` and every other bit kept. -/
def setFlag (f : Flag) (b : Bool) (p : Byte) : Byte :=
  if b then p ||| (1#8 <<< f.pos) else p &&& ~~~(1#8 <<< f.pos)

/-- `SetZN(v)`: Zero iff the byte is 0, Negative iff its bit 7 is set (R27). -/
def setZN (v p : Byte) : Byte := setFlag .negative (v.getLsbD 7) (setFlag .zero (v == 0#8) p)

/-- The carry flag as a number, 0 or 1. -/
def carryIn (p : Byte) : Nat := (getFlag .carry p).toNat

/-- ADC (R175): the sum, and the status byte after it. The sum is binary whatever the Decimal flag is (R173). -/
def addWithCarry (a m p : Byte) : Byte × Byte :=
  let sum := a.toNat + m.toNat + carryIn p
  let r := BitVec.ofNat 8 sum
  let v := ((~~~(a ^^^ m)) &&& (a ^^^ r)).getLsbD 7
  (r, setZN r (setFlag .overflow v (setFlag .carry (decide (sum > 255)) p)))

/-- SBC (R176): ADC with the operand complemented. -/
def subWithBorrow (a m p : Byte) : Byte × Byte := addWithCarry a (m ^^^ 0xFF#8) p

/-- CMP, CPX, CPY (R177-R179): the status byte after comparing the register `r` with `m`. -/
def compare (r m p : Byte) : Byte := setZN (r - m) (setFlag .carry (decide (m.toNat ≤ r.toNat)) p)

/-- BIT (R180): Z from `A & M`, N and V from bits 7 and 6 of the operand. -/
def bitTest (a m p : Byte) : Byte :=
  setFlag .overflow (m.getLsbD 6) (setFlag .negative (m.getLsbD 7) (setFlag .zero ((a &&& m) == 0#8) p))

/-- INC (R181): the byte plus one, and the status byte after it. -/
def increment (v p : Byte) : Byte × Byte := (v + 1#8, setZN (v + 1#8) p)

/-- DEC (R182): the byte minus one, and the status byte after it. -/
def decrement (v p : Byte) : Byte × Byte := (v - 1#8, setZN (v - 1#8) p)

/-- ASL (R191): bit 7 goes to Carry, bit 0 is 0. -/
def shiftLeft (v p : Byte) : Byte × Byte :=
  let r := v <<< 1
  (r, setZN r (setFlag .carry (v.getLsbD 7) p))

/-- LSR (R192): bit 0 goes to Carry, bit 7 is 0. -/
def shiftRight (v p : Byte) : Byte × Byte :=
  let r := v >>> 1
  (r, setZN r (setFlag .carry (v.getLsbD 0) p))

/-- ROL (R193): Carry comes in at bit 0, bit 7 goes to Carry. -/
def rotateLeft (v p : Byte) : Byte × Byte :=
  let r := (v <<< 1) ||| BitVec.ofNat 8 (carryIn p)
  (r, setZN r (setFlag .carry (v.getLsbD 7) p))

/-- ROR (R194): Carry comes in at bit 7, bit 0 goes to Carry. -/
def rotateRight (v p : Byte) : Byte × Byte :=
  let r := (v >>> 1) ||| (BitVec.ofNat 8 (carryIn p) <<< 7)
  (r, setZN r (setFlag .carry (v.getLsbD 0) p))

/-- The byte PHP and BRK push: Break and Unused both 1 (R26 b, c). -/
def pushedBySoftware (p : Byte) : Byte := p ||| 0x30#8

/-- The byte IRQ and NMI entry push: Break 0, Unused 1 (R26 a). -/
def pushedByHardware (p : Byte) : Byte := (p &&& 0xEF#8) ||| 0x20#8

/-- The status byte PLP and RTI load from a popped byte: Unused forced to 1 (R25, R26 e). -/
def pulledStatus (v : Byte) : Byte := v ||| 0x20#8

end Sys2Proof.Machine
end

