-- ==== Sys2Proof/Syntax.lean ====
section
/-! DEFINITION. The instructions (30_encoding.md R110-R135): one constructor for each of the 58 mnemonics of the opcode
table, with the operand form as its argument, so that each of the table's 256 rows is one constructor at one form. -/

namespace Sys2Proof

/-- A memory operand: an addressing mode that produces an effective address, with its operand byte or address
(30_encoding.md R117-R124). -/
inductive Mem where
  /-- ZP, zero page (R117) -/
  | zp (b : Byte)
  /-- ZPX, zero page indexed by X (R118) -/
  | zpx (b : Byte)
  /-- ZPY, zero page indexed by Y (R119) -/
  | zpy (b : Byte)
  /-- ABS, absolute (R120) -/
  | abs (w : Addr)
  /-- ABX, absolute indexed by X (R121) -/
  | abx (w : Addr)
  /-- ABY, absolute indexed by Y (R122) -/
  | aby (w : Addr)
  /-- IZX, `(zp,X)` (R123) -/
  | izx (b : Byte)
  /-- IZY, `(zp),Y` (R124) -/
  | izy (b : Byte)
  deriving DecidableEq, Repr

/-- A source operand: an immediate byte (R116) or a memory operand. -/
inductive Src where
  | imm (b : Byte)
  | mem (m : Mem)
  deriving DecidableEq, Repr

/-- What a shift or rotate works on: the accumulator (R115) or a memory operand. -/
inductive Dst where
  | acc
  | mem (m : Mem)
  deriving DecidableEq, Repr

/-- A jump's operand: ABS (R120) or IND (R126). -/
inductive Target where
  | abs (w : Addr)
  | ind (w : Addr)
  deriving DecidableEq, Repr

/-- The instructions: the 56 documented mnemonics of R130, the halting opcodes of R132 and the undefined opcodes of
R133. -/
inductive Instr where
  -- loads, stores, transfers (40_load_store_transfer.md)
  | lda (o : Src)
  | ldx (o : Src)
  | ldy (o : Src)
  | sta (m : Mem)
  | stx (m : Mem)
  | sty (m : Mem)
  | tax
  | tay
  | txa
  | tya
  | tsx
  | txs
  -- logical, arithmetic, compare, bit test, increment, decrement (41_arithmetic_logic.md)
  | ora (o : Src)
  | and (o : Src)
  | eor (o : Src)
  | adc (o : Src)
  | sbc (o : Src)
  | cmp (o : Src)
  | cpx (o : Src)
  | cpy (o : Src)
  | bit (m : Mem)
  | inc (m : Mem)
  | dec (m : Mem)
  | inx
  | iny
  | dex
  | dey
  -- shifts and rotates (42_shift_rotate.md)
  | asl (d : Dst)
  | lsr (d : Dst)
  | rol (d : Dst)
  | ror (d : Dst)
  -- control transfer (43_control_flow.md); a branch's byte is its signed displacement (R125)
  | jmp (t : Target)
  | jsr (w : Addr)
  | rts
  | bpl (b : Byte)
  | bmi (b : Byte)
  | bvc (b : Byte)
  | bvs (b : Byte)
  | bcc (b : Byte)
  | bcs (b : Byte)
  | bne (b : Byte)
  | beq (b : Byte)
  -- stack, flags, system (44_stack_flags_system.md)
  | pha
  | php
  | pla
  | plp
  | clc
  | sec
  | cli
  | sei
  | cld
  | sed
  | clv
  | nop
  | brk
  | rti
  -- the rest of the 256 opcode bytes (45_halting_undefined.md), each with its byte value
  | kil (op : Byte)
  | und (op : Byte)
  deriving DecidableEq, Repr

/-- The mnemonic of the opcode table's row. -/
def Instr.mnemonic : Instr → String
  | .lda _ => "LDA" | .ldx _ => "LDX" | .ldy _ => "LDY" | .sta _ => "STA" | .stx _ => "STX" | .sty _ => "STY"
  | .tax => "TAX" | .tay => "TAY" | .txa => "TXA" | .tya => "TYA" | .tsx => "TSX" | .txs => "TXS"
  | .ora _ => "ORA" | .and _ => "AND" | .eor _ => "EOR" | .adc _ => "ADC" | .sbc _ => "SBC"
  | .cmp _ => "CMP" | .cpx _ => "CPX" | .cpy _ => "CPY" | .bit _ => "BIT" | .inc _ => "INC" | .dec _ => "DEC"
  | .inx => "INX" | .iny => "INY" | .dex => "DEX" | .dey => "DEY"
  | .asl _ => "ASL" | .lsr _ => "LSR" | .rol _ => "ROL" | .ror _ => "ROR"
  | .jmp _ => "JMP" | .jsr _ => "JSR" | .rts => "RTS"
  | .bpl _ => "BPL" | .bmi _ => "BMI" | .bvc _ => "BVC" | .bvs _ => "BVS"
  | .bcc _ => "BCC" | .bcs _ => "BCS" | .bne _ => "BNE" | .beq _ => "BEQ"
  | .pha => "PHA" | .php => "PHP" | .pla => "PLA" | .plp => "PLP"
  | .clc => "CLC" | .sec => "SEC" | .cli => "CLI" | .sei => "SEI" | .cld => "CLD" | .sed => "SED" | .clv => "CLV"
  | .nop => "NOP" | .brk => "BRK" | .rti => "RTI" | .kil _ => "KIL" | .und _ => "UND"

end Sys2Proof
end

