-- ==== Sys2Proof/WellFormed.lean ====
section
/-! DEFINITION. Which terms of `Instr` are instructions: the operand forms each mnemonic has (the "Operands" lines of
files 40 to 43), and the byte values of the halting and undefined opcodes (R132, R133). -/

namespace Sys2Proof

/-- The eight memory addressing modes. -/
inductive MemMode where
  | zp | zpx | zpy | abs | abx | aby | izx | izy
  deriving DecidableEq, Repr

/-- The mode of a memory operand. -/
def Mem.mode : Mem → MemMode
  | .zp _ => .zp | .zpx _ => .zpx | .zpy _ => .zpy | .abs _ => .abs
  | .abx _ => .abx | .aby _ => .aby | .izx _ => .izx | .izy _ => .izy

/-- The memory modes of LDA, STA, ORA, AND, EOR, ADC, SBC, CMP (R151, R154, R171-R177). -/
def accumulatorModes : List MemMode := [.zp, .zpx, .abs, .abx, .aby, .izx, .izy]

/-- The memory modes of INC, DEC and of the shifts (R181, R182, R190). -/
def modifyModes : List MemMode := [.zp, .zpx, .abs, .abx]

/-- The halting opcodes (R132, R245). -/
def kilOpcodes : List Byte :=
  [0x02, 0x12, 0x22, 0x32, 0x42, 0x52, 0x62, 0x72, 0x92, 0xB2, 0xD2, 0xF2]

/-- The undefined opcodes (R133, by high nibble). -/
def undOpcodes : List Byte :=
  [0x03, 0x04, 0x07, 0x0B, 0x0C, 0x0F] ++
  [0x13, 0x14, 0x17, 0x1A, 0x1B, 0x1C, 0x1F] ++
  [0x23, 0x27, 0x2B, 0x2F] ++
  [0x33, 0x34, 0x37, 0x3A, 0x3B, 0x3C, 0x3F] ++
  [0x43, 0x44, 0x47, 0x4B, 0x4F] ++
  [0x53, 0x54, 0x57, 0x5A, 0x5B, 0x5C, 0x5F] ++
  [0x63, 0x64, 0x67, 0x6B, 0x6F] ++
  [0x73, 0x74, 0x77, 0x7A, 0x7B, 0x7C, 0x7F] ++
  [0x80, 0x82, 0x83, 0x87, 0x89, 0x8B, 0x8F] ++
  [0x93, 0x97, 0x9B, 0x9C, 0x9E, 0x9F] ++
  [0xA3, 0xA7, 0xAB, 0xAF] ++
  [0xB3, 0xB7, 0xBB, 0xBF] ++
  [0xC2, 0xC3, 0xC7, 0xCB, 0xCF] ++
  [0xD3, 0xD4, 0xD7, 0xDA, 0xDB, 0xDC, 0xDF] ++
  [0xE2, 0xE3, 0xE7, 0xEB, 0xEF] ++
  [0xF3, 0xF4, 0xF7, 0xFA, 0xFB, 0xFC, 0xFF]

/-- An immediate byte, or a memory operand in one of the given modes. -/
def Src.ok (modes : List MemMode) : Src → Bool
  | .imm _ => true
  | .mem m => modes.contains m.mode

/-- The accumulator, or a memory operand in one of the given modes. -/
def Dst.ok (modes : List MemMode) : Dst → Bool
  | .acc => true
  | .mem m => modes.contains m.mode

/-- The check that a term is an instruction of the opcode table. -/
def Instr.wf : Instr → Bool
  | .lda o => o.ok accumulatorModes
  | .ldx o => o.ok [.zp, .zpy, .abs, .aby]
  | .ldy o => o.ok [.zp, .zpx, .abs, .abx]
  | .sta m => accumulatorModes.contains m.mode
  | .stx m => [MemMode.zp, .zpy, .abs].contains m.mode
  | .sty m => [MemMode.zp, .zpx, .abs].contains m.mode
  | .ora o => o.ok accumulatorModes
  | .and o => o.ok accumulatorModes
  | .eor o => o.ok accumulatorModes
  | .adc o => o.ok accumulatorModes
  | .sbc o => o.ok accumulatorModes
  | .cmp o => o.ok accumulatorModes
  | .cpx o => o.ok [.zp, .abs]
  | .cpy o => o.ok [.zp, .abs]
  | .bit m => [MemMode.zp, .abs].contains m.mode
  | .inc m => modifyModes.contains m.mode
  | .dec m => modifyModes.contains m.mode
  | .asl d => d.ok modifyModes
  | .lsr d => d.ok modifyModes
  | .rol d => d.ok modifyModes
  | .ror d => d.ok modifyModes
  | .kil op => kilOpcodes.contains op
  | .und op => undOpcodes.contains op
  | .tax | .tay | .txa | .tya | .tsx | .txs | .inx | .iny | .dex | .dey => true
  | .jmp _ | .jsr _ | .rts => true
  | .bpl _ | .bmi _ | .bvc _ | .bvs _ | .bcc _ | .bcs _ | .bne _ | .beq _ => true
  | .pha | .php | .pla | .plp | .clc | .sec | .cli | .sei | .cld | .sed | .clv | .nop | .brk | .rti => true

/-- `i` is an instruction of the opcode table. -/
abbrev WellFormed (i : Instr) : Prop := i.wf = true

end Sys2Proof
end

