-- ==== Sys2Proof/Decode.lean ====
section
/-! DEFINITION. The decoder, a lookup of the opcode byte in the grid of 30_encoding.md R130, total on any bytes, and the
encoder, written from R130's other table, the one by mnemonic. -/

namespace Sys2Proof

/-- Two bytes as one 16-bit value, the first the more significant: `{hi, lo}` of R8. -/
def joinBytes (hi lo : Byte) : Addr := hi ++ lo

/-- The low byte of a 16-bit value. -/
def lowByte (w : Addr) : Byte := w.extractLsb' 0 8

/-- The high byte of a 16-bit value; its page number. -/
def highByte (w : Addr) : Byte := w.extractLsb' 8 8

/-- A table entry: the instruction, waiting for as many operand bytes as its format has (R110). -/
inductive Entry where
  /-- F1: the opcode byte alone. -/
  | f1 (i : Instr)
  /-- F2: one operand byte. -/
  | f2 (mk : Byte → Instr)
  /-- F3: an address, low byte first. -/
  | f3 (mk : Addr → Instr)

/-! The entries of each addressing mode. -/

def onSrc (mk : Src → Instr) (m : Mem) : Instr := mk (.mem m)
def onDst (mk : Dst → Instr) (m : Mem) : Instr := mk (.mem m)
def atImm (mk : Src → Instr) : Entry := .f2 fun b => mk (.imm b)
def atZp (mk : Mem → Instr) : Entry := .f2 fun b => mk (.zp b)
def atZpx (mk : Mem → Instr) : Entry := .f2 fun b => mk (.zpx b)
def atZpy (mk : Mem → Instr) : Entry := .f2 fun b => mk (.zpy b)
def atAbs (mk : Mem → Instr) : Entry := .f3 fun w => mk (.abs w)
def atAbx (mk : Mem → Instr) : Entry := .f3 fun w => mk (.abx w)
def atAby (mk : Mem → Instr) : Entry := .f3 fun w => mk (.aby w)
def atIzx (mk : Mem → Instr) : Entry := .f2 fun b => mk (.izx b)
def atIzy (mk : Mem → Instr) : Entry := .f2 fun b => mk (.izy b)
def atJump (mk : Addr → Target) : Entry := .f3 fun w => .jmp (mk w)

/-- Opcodes 0x00 to 0x0F. -/
def opRow0 : List Entry :=
  [.f1 .brk, atIzx (onSrc .ora), .f1 (.kil 0x02), .f1 (.und 0x03), .f1 (.und 0x04), atZp (onSrc .ora),
   atZp (onDst .asl), .f1 (.und 0x07), .f1 .php, atImm .ora, .f1 (.asl .acc), .f1 (.und 0x0B),
   .f1 (.und 0x0C), atAbs (onSrc .ora), atAbs (onDst .asl), .f1 (.und 0x0F)]

/-- Opcodes 0x10 to 0x1F. -/
def opRow1 : List Entry :=
  [.f2 .bpl, atIzy (onSrc .ora), .f1 (.kil 0x12), .f1 (.und 0x13), .f1 (.und 0x14), atZpx (onSrc .ora),
   atZpx (onDst .asl), .f1 (.und 0x17), .f1 .clc, atAby (onSrc .ora), .f1 (.und 0x1A), .f1 (.und 0x1B),
   .f1 (.und 0x1C), atAbx (onSrc .ora), atAbx (onDst .asl), .f1 (.und 0x1F)]

/-- Opcodes 0x20 to 0x2F. -/
def opRow2 : List Entry :=
  [.f3 .jsr, atIzx (onSrc .and), .f1 (.kil 0x22), .f1 (.und 0x23), atZp .bit, atZp (onSrc .and),
   atZp (onDst .rol), .f1 (.und 0x27), .f1 .plp, atImm .and, .f1 (.rol .acc), .f1 (.und 0x2B), atAbs .bit,
   atAbs (onSrc .and), atAbs (onDst .rol), .f1 (.und 0x2F)]

/-- Opcodes 0x30 to 0x3F. -/
def opRow3 : List Entry :=
  [.f2 .bmi, atIzy (onSrc .and), .f1 (.kil 0x32), .f1 (.und 0x33), .f1 (.und 0x34), atZpx (onSrc .and),
   atZpx (onDst .rol), .f1 (.und 0x37), .f1 .sec, atAby (onSrc .and), .f1 (.und 0x3A), .f1 (.und 0x3B),
   .f1 (.und 0x3C), atAbx (onSrc .and), atAbx (onDst .rol), .f1 (.und 0x3F)]

/-- Opcodes 0x40 to 0x4F. -/
def opRow4 : List Entry :=
  [.f1 .rti, atIzx (onSrc .eor), .f1 (.kil 0x42), .f1 (.und 0x43), .f1 (.und 0x44), atZp (onSrc .eor),
   atZp (onDst .lsr), .f1 (.und 0x47), .f1 .pha, atImm .eor, .f1 (.lsr .acc), .f1 (.und 0x4B), atJump .abs,
   atAbs (onSrc .eor), atAbs (onDst .lsr), .f1 (.und 0x4F)]

/-- Opcodes 0x50 to 0x5F. -/
def opRow5 : List Entry :=
  [.f2 .bvc, atIzy (onSrc .eor), .f1 (.kil 0x52), .f1 (.und 0x53), .f1 (.und 0x54), atZpx (onSrc .eor),
   atZpx (onDst .lsr), .f1 (.und 0x57), .f1 .cli, atAby (onSrc .eor), .f1 (.und 0x5A), .f1 (.und 0x5B),
   .f1 (.und 0x5C), atAbx (onSrc .eor), atAbx (onDst .lsr), .f1 (.und 0x5F)]

/-- Opcodes 0x60 to 0x6F. -/
def opRow6 : List Entry :=
  [.f1 .rts, atIzx (onSrc .adc), .f1 (.kil 0x62), .f1 (.und 0x63), .f1 (.und 0x64), atZp (onSrc .adc),
   atZp (onDst .ror), .f1 (.und 0x67), .f1 .pla, atImm .adc, .f1 (.ror .acc), .f1 (.und 0x6B), atJump .ind,
   atAbs (onSrc .adc), atAbs (onDst .ror), .f1 (.und 0x6F)]

/-- Opcodes 0x70 to 0x7F. -/
def opRow7 : List Entry :=
  [.f2 .bvs, atIzy (onSrc .adc), .f1 (.kil 0x72), .f1 (.und 0x73), .f1 (.und 0x74), atZpx (onSrc .adc),
   atZpx (onDst .ror), .f1 (.und 0x77), .f1 .sei, atAby (onSrc .adc), .f1 (.und 0x7A), .f1 (.und 0x7B),
   .f1 (.und 0x7C), atAbx (onSrc .adc), atAbx (onDst .ror), .f1 (.und 0x7F)]

/-- Opcodes 0x80 to 0x8F. -/
def opRow8 : List Entry :=
  [.f1 (.und 0x80), atIzx .sta, .f1 (.und 0x82), .f1 (.und 0x83), atZp .sty, atZp .sta, atZp .stx,
   .f1 (.und 0x87), .f1 .dey, .f1 (.und 0x89), .f1 .txa, .f1 (.und 0x8B), atAbs .sty, atAbs .sta, atAbs .stx,
   .f1 (.und 0x8F)]

/-- Opcodes 0x90 to 0x9F. -/
def opRow9 : List Entry :=
  [.f2 .bcc, atIzy .sta, .f1 (.kil 0x92), .f1 (.und 0x93), atZpx .sty, atZpx .sta, atZpy .stx,
   .f1 (.und 0x97), .f1 .tya, atAby .sta, .f1 .txs, .f1 (.und 0x9B), .f1 (.und 0x9C), atAbx .sta,
   .f1 (.und 0x9E), .f1 (.und 0x9F)]

/-- Opcodes 0xA0 to 0xAF. -/
def opRowA : List Entry :=
  [atImm .ldy, atIzx (onSrc .lda), atImm .ldx, .f1 (.und 0xA3), atZp (onSrc .ldy), atZp (onSrc .lda),
   atZp (onSrc .ldx), .f1 (.und 0xA7), .f1 .tay, atImm .lda, .f1 .tax, .f1 (.und 0xAB), atAbs (onSrc .ldy),
   atAbs (onSrc .lda), atAbs (onSrc .ldx), .f1 (.und 0xAF)]

/-- Opcodes 0xB0 to 0xBF. -/
def opRowB : List Entry :=
  [.f2 .bcs, atIzy (onSrc .lda), .f1 (.kil 0xB2), .f1 (.und 0xB3), atZpx (onSrc .ldy), atZpx (onSrc .lda),
   atZpy (onSrc .ldx), .f1 (.und 0xB7), .f1 .clv, atAby (onSrc .lda), .f1 .tsx, .f1 (.und 0xBB),
   atAbx (onSrc .ldy), atAbx (onSrc .lda), atAby (onSrc .ldx), .f1 (.und 0xBF)]

/-- Opcodes 0xC0 to 0xCF. -/
def opRowC : List Entry :=
  [atImm .cpy, atIzx (onSrc .cmp), .f1 (.und 0xC2), .f1 (.und 0xC3), atZp (onSrc .cpy), atZp (onSrc .cmp),
   atZp .dec, .f1 (.und 0xC7), .f1 .iny, atImm .cmp, .f1 .dex, .f1 (.und 0xCB), atAbs (onSrc .cpy),
   atAbs (onSrc .cmp), atAbs .dec, .f1 (.und 0xCF)]

/-- Opcodes 0xD0 to 0xDF. -/
def opRowD : List Entry :=
  [.f2 .bne, atIzy (onSrc .cmp), .f1 (.kil 0xD2), .f1 (.und 0xD3), .f1 (.und 0xD4), atZpx (onSrc .cmp),
   atZpx .dec, .f1 (.und 0xD7), .f1 .cld, atAby (onSrc .cmp), .f1 (.und 0xDA), .f1 (.und 0xDB),
   .f1 (.und 0xDC), atAbx (onSrc .cmp), atAbx .dec, .f1 (.und 0xDF)]

/-- Opcodes 0xE0 to 0xEF. -/
def opRowE : List Entry :=
  [atImm .cpx, atIzx (onSrc .sbc), .f1 (.und 0xE2), .f1 (.und 0xE3), atZp (onSrc .cpx), atZp (onSrc .sbc),
   atZp .inc, .f1 (.und 0xE7), .f1 .inx, atImm .sbc, .f1 .nop, .f1 (.und 0xEB), atAbs (onSrc .cpx),
   atAbs (onSrc .sbc), atAbs .inc, .f1 (.und 0xEF)]

/-- Opcodes 0xF0 to 0xFF. -/
def opRowF : List Entry :=
  [.f2 .beq, atIzy (onSrc .sbc), .f1 (.kil 0xF2), .f1 (.und 0xF3), .f1 (.und 0xF4), atZpx (onSrc .sbc),
   atZpx .inc, .f1 (.und 0xF7), .f1 .sed, atAby (onSrc .sbc), .f1 (.und 0xFA), .f1 (.und 0xFB),
   .f1 (.und 0xFC), atAbx (onSrc .sbc), atAbx .inc, .f1 (.und 0xFF)]

/-- The 256-entry table of R111, as the grid of R130: row = high nibble, column = low nibble. -/
def opGrid : List (List Entry) :=
  [opRow0, opRow1, opRow2, opRow3, opRow4, opRow5, opRow6, opRow7] ++
  [opRow8, opRow9, opRowA, opRowB, opRowC, opRowD, opRowE, opRowF]

/-- The entry of an opcode byte. The grid has an entry for each of the 256 bytes (R111), so the two defaults are never
used (`opGrid_complete` in Laws/Encoding.lean). -/
def entryOf (op : Byte) : Entry :=
  (opGrid.getD (op.toNat / 16) []).getD (op.toNat % 16) (.f1 (.und op))

/-- How many bytes an instruction with this opcode byte has (R134). -/
def opLength (op : Byte) : Nat :=
  match entryOf op with
  | .f1 _ => 1
  | .f2 _ => 2
  | .f3 _ => 3

/-- Why a list of bytes holds no instruction: it ends before the instruction does. Every opcode byte has an entry
(R111), so there is no other reason. -/
inductive DecodeError where
  /-- There is no byte at all. -/
  | noOpcode
  /-- The operand bytes of the opcode `op` are missing or incomplete. -/
  | operandMissing (op : Byte)
  deriving DecidableEq, Repr

/-- Decodes the instruction at the head of a list of bytes, and answers it with the bytes after it (R110, R111). -/
def decode : List Byte → Except DecodeError (Instr × List Byte)
  | [] => .error .noOpcode
  | op :: rest =>
    match entryOf op, rest with
    | .f1 i, _ => .ok (i, rest)
    | .f2 mk, b1 :: rest' => .ok (mk b1, rest')
    | .f3 mk, b1 :: b2 :: rest' => .ok (mk (joinBytes b2 b1), rest')
    | .f2 _, [] => .error (.operandMissing op)
    | .f3 _, [] => .error (.operandMissing op)
    | .f3 _, [_] => .error (.operandMissing op)

/-- The bytes of a table word: `w` is numbered as the opcode table numbers an instruction's bits, the first byte lowest,
and every bit at or above `nbits` is 0. -/
def tableWordBytes (nbits w : Nat) : List Byte :=
  let v := w % 2 ^ nbits
  [BitVec.ofNat 8 v, BitVec.ofNat 8 (v / 256), BitVec.ofNat 8 (v / 65536)]

/-- The instruction the decoder reads from a table word. -/
def decodeTableWord (nbits w : Nat) : Option Instr :=
  match decode (tableWordBytes nbits w) with
  | .ok (i, _) => some i
  | .error _ => none

/-! ### The encoder -/

/-- One line of R130's table by mnemonic: the opcode byte of each memory mode the mnemonic has. -/
structure MemOpcodes where
  zp : Option Byte := none
  zpx : Option Byte := none
  zpy : Option Byte := none
  abs : Option Byte := none
  abx : Option Byte := none
  aby : Option Byte := none
  izx : Option Byte := none
  izy : Option Byte := none

/-- The opcode byte for a memory operand. -/
def MemOpcodes.opcode (t : MemOpcodes) : Mem → Option Byte
  | .zp _ => t.zp | .zpx _ => t.zpx | .zpy _ => t.zpy | .abs _ => t.abs
  | .abx _ => t.abx | .aby _ => t.aby | .izx _ => t.izx | .izy _ => t.izy

/-- The opcode byte for a source operand, given the one for IMM. -/
def srcOpcode (immOp : Byte) (t : MemOpcodes) : Src → Option Byte
  | .imm _ => some immOp
  | .mem m => t.opcode m

/-- The opcode byte for an accumulator-or-memory operand, given the one for ACC. -/
def dstOpcode (accOp : Byte) (t : MemOpcodes) : Dst → Option Byte
  | .acc => some accOp
  | .mem m => t.opcode m

/-- The opcode byte of a well-formed instruction (R130, R132, R133); none for a form the mnemonic does not have. -/
def opcodeOf : Instr → Option Byte
  | .lda o => srcOpcode 0xA9
      { zp := some 0xA5, zpx := some 0xB5, abs := some 0xAD, abx := some 0xBD, aby := some 0xB9, izx := some 0xA1, izy := some 0xB1 } o
  | .ldx o => srcOpcode 0xA2 { zp := some 0xA6, zpy := some 0xB6, abs := some 0xAE, aby := some 0xBE } o
  | .ldy o => srcOpcode 0xA0 { zp := some 0xA4, zpx := some 0xB4, abs := some 0xAC, abx := some 0xBC } o
  | .sta m => MemOpcodes.opcode
      { zp := some 0x85, zpx := some 0x95, abs := some 0x8D, abx := some 0x9D, aby := some 0x99, izx := some 0x81, izy := some 0x91 } m
  | .stx m => MemOpcodes.opcode { zp := some 0x86, zpy := some 0x96, abs := some 0x8E } m
  | .sty m => MemOpcodes.opcode { zp := some 0x84, zpx := some 0x94, abs := some 0x8C } m
  | .tax => some 0xAA
  | .tay => some 0xA8
  | .txa => some 0x8A
  | .tya => some 0x98
  | .tsx => some 0xBA
  | .txs => some 0x9A
  | .ora o => srcOpcode 0x09
      { zp := some 0x05, zpx := some 0x15, abs := some 0x0D, abx := some 0x1D, aby := some 0x19, izx := some 0x01, izy := some 0x11 } o
  | .and o => srcOpcode 0x29
      { zp := some 0x25, zpx := some 0x35, abs := some 0x2D, abx := some 0x3D, aby := some 0x39, izx := some 0x21, izy := some 0x31 } o
  | .eor o => srcOpcode 0x49
      { zp := some 0x45, zpx := some 0x55, abs := some 0x4D, abx := some 0x5D, aby := some 0x59, izx := some 0x41, izy := some 0x51 } o
  | .adc o => srcOpcode 0x69
      { zp := some 0x65, zpx := some 0x75, abs := some 0x6D, abx := some 0x7D, aby := some 0x79, izx := some 0x61, izy := some 0x71 } o
  | .sbc o => srcOpcode 0xE9
      { zp := some 0xE5, zpx := some 0xF5, abs := some 0xED, abx := some 0xFD, aby := some 0xF9, izx := some 0xE1, izy := some 0xF1 } o
  | .cmp o => srcOpcode 0xC9
      { zp := some 0xC5, zpx := some 0xD5, abs := some 0xCD, abx := some 0xDD, aby := some 0xD9, izx := some 0xC1, izy := some 0xD1 } o
  | .cpx o => srcOpcode 0xE0 { zp := some 0xE4, abs := some 0xEC } o
  | .cpy o => srcOpcode 0xC0 { zp := some 0xC4, abs := some 0xCC } o
  | .bit m => MemOpcodes.opcode { zp := some 0x24, abs := some 0x2C } m
  | .inc m => MemOpcodes.opcode { zp := some 0xE6, zpx := some 0xF6, abs := some 0xEE, abx := some 0xFE } m
  | .dec m => MemOpcodes.opcode { zp := some 0xC6, zpx := some 0xD6, abs := some 0xCE, abx := some 0xDE } m
  | .inx => some 0xE8
  | .iny => some 0xC8
  | .dex => some 0xCA
  | .dey => some 0x88
  | .asl d => dstOpcode 0x0A { zp := some 0x06, zpx := some 0x16, abs := some 0x0E, abx := some 0x1E } d
  | .lsr d => dstOpcode 0x4A { zp := some 0x46, zpx := some 0x56, abs := some 0x4E, abx := some 0x5E } d
  | .rol d => dstOpcode 0x2A { zp := some 0x26, zpx := some 0x36, abs := some 0x2E, abx := some 0x3E } d
  | .ror d => dstOpcode 0x6A { zp := some 0x66, zpx := some 0x76, abs := some 0x6E, abx := some 0x7E } d
  | .jmp (.abs _) => some 0x4C
  | .jmp (.ind _) => some 0x6C
  | .jsr _ => some 0x20
  | .rts => some 0x60
  | .bpl _ => some 0x10
  | .bmi _ => some 0x30
  | .bvc _ => some 0x50
  | .bvs _ => some 0x70
  | .bcc _ => some 0x90
  | .bcs _ => some 0xB0
  | .bne _ => some 0xD0
  | .beq _ => some 0xF0
  | .pha => some 0x48
  | .php => some 0x08
  | .pla => some 0x68
  | .plp => some 0x28
  | .clc => some 0x18
  | .sec => some 0x38
  | .cli => some 0x58
  | .sei => some 0x78
  | .cld => some 0xD8
  | .sed => some 0xF8
  | .clv => some 0xB8
  | .nop => some 0xEA
  | .brk => some 0x00
  | .rti => some 0x40
  | .kil op => if kilOpcodes.contains op then some op else none
  | .und op => if undOpcodes.contains op then some op else none

/-- An address as its two operand bytes, low byte first (R89). -/
def addrBytes (w : Addr) : List Byte := [lowByte w, highByte w]

/-- The operand bytes of a memory operand. -/
def Mem.operandBytes : Mem → List Byte
  | .zp b | .zpx b | .zpy b | .izx b | .izy b => [b]
  | .abs w | .abx w | .aby w => addrBytes w

/-- The operand bytes of a source operand. -/
def Src.operandBytes : Src → List Byte
  | .imm b => [b]
  | .mem m => m.operandBytes

/-- The operand bytes of an accumulator-or-memory operand. -/
def Dst.operandBytes : Dst → List Byte
  | .acc => []
  | .mem m => m.operandBytes

/-- The operand bytes of an instruction (R110). -/
def Instr.operandBytes : Instr → List Byte
  | .lda o | .ldx o | .ldy o | .ora o | .and o | .eor o | .adc o | .sbc o | .cmp o | .cpx o | .cpy o => o.operandBytes
  | .sta m | .stx m | .sty m | .bit m | .inc m | .dec m => m.operandBytes
  | .asl d | .lsr d | .rol d | .ror d => d.operandBytes
  | .jmp (.abs w) | .jmp (.ind w) | .jsr w => addrBytes w
  | .bpl b | .bmi b | .bvc b | .bvs b | .bcc b | .bcs b | .bne b | .beq b => [b]
  | .tax | .tay | .txa | .tya | .tsx | .txs | .inx | .iny | .dex | .dey | .rts => []
  | .pha | .php | .pla | .plp | .clc | .sec | .cli | .sei | .cld | .sed | .clv | .nop | .brk | .rti => []
  | .kil _ | .und _ => []

/-- The bytes of a well-formed instruction, in the order they stand in memory; no bytes for a term that is no
instruction. -/
def encode (i : Instr) : List Byte :=
  match opcodeOf i with
  | some op => op :: i.operandBytes
  | none => []

end Sys2Proof
end

