-- ==== Sys2Proof/Machine/Memory.lean ====
section
/-! DEFINITION. Sparse memories in one canonical form: keys strictly rising, no entry equal to the value an unlisted key
holds. Byte memories hold 0x00 where nothing is listed (log entry 4), frame buffers opaque black. -/

namespace Sys2Proof

/-- The value at key `k`; `d` where `k` is not listed. -/
def Sparse.get {α : Type} (d : α) (k : Nat) : List (Nat × α) → α
  | [] => d
  | (k', v') :: rest => if k = k' then v' else Sparse.get d k rest

/-- Stores `v` at key `k`, keeping the canonical form: storing `d` removes the entry. -/
def Sparse.put {α : Type} [DecidableEq α] (d : α) (k : Nat) (v : α) : List (Nat × α) → List (Nat × α)
  | [] => if v = d then [] else [(k, v)]
  | (k', v') :: rest =>
    if k < k' then (if v = d then (k', v') :: rest else (k, v) :: (k', v') :: rest)
    else if k = k' then (if v = d then rest else (k, v) :: rest)
    else (k', v') :: Sparse.put d k v rest

/-- The canonical form, with every key below `size`. -/
abbrev Sparse.Canonical {α : Type} (d : α) (size : Nat) (m : List (Nat × α)) : Prop :=
  m.Pairwise (fun c c' => c.1 < c'.1) ∧ (∀ c ∈ m, c.2 ≠ d) ∧ (∀ c ∈ m, c.1 < size)

/-- The byte at a cell. -/
def Memory.get (m : Memory) (k : Nat) : Byte := Sparse.get 0x00#8 k m

/-- Stores a byte at a cell. -/
def Memory.put (m : Memory) (k : Nat) (v : Byte) : Memory := Sparse.put 0x00#8 k v m

/-- A byte memory of `size` cells in canonical form. -/
abbrev Memory.wf (size : Nat) (m : Memory) : Prop := Sparse.Canonical 0x00#8 size m

/-- The pixel at a key. -/
def Pixels.get (m : Pixels) (k : Nat) : Colour := Sparse.get opaqueBlack k m

/-- Stores a pixel at a key. -/
def Pixels.put (m : Pixels) (k : Nat) (v : Colour) : Pixels := Sparse.put opaqueBlack k v m

/-- A frame buffer of 256 x 240 pixels in canonical form (R46). -/
abbrev Pixels.wf (m : Pixels) : Prop := Sparse.Canonical opaqueBlack 61440 m

/-- The memory that holds the given bytes from cell `k` on. -/
def Memory.ofBytesFrom (k : Nat) : List Byte → Memory
  | [] => []
  | v :: rest => if v = 0x00#8 then Memory.ofBytesFrom (k + 1) rest else (k, v) :: Memory.ofBytesFrom (k + 1) rest

/-- The memory that holds the given bytes from cell 0 on. -/
def Memory.ofBytes (bytes : List Byte) : Memory := Memory.ofBytesFrom 0 bytes

end Sys2Proof
end

