-- ==== Sys2Proof/Machine/Cartridge.lean ====
section
/-! DEFINITION. The cartridge and its mapper on the main path (20_memory.md R69-R73), which cartridges the machine
starts with (R94), and the container the excluded loader reads (R93, R95). -/

namespace Sys2Proof.Machine

/-- The mapper variant an id selects (R94): the fixed mapping for id 0, none for any other. -/
def Mapper.ofId (id : Byte) : Option Mapper := if id = 0x00#8 then some .fixed else none

/-- The physical program offset of a logical address (R71): with one page the address modulo 16 KiB, with more the
address modulo 32 KiB; 0 outside 0x8000-0xFFFF. -/
def Mapper.map (prgPages : Nat) (a : Addr) : Mapper → Nat
  | .fixed =>
    if a.toNat < 0x8000 then 0
    else if prgPages = 1 then a.toNat % 0x4000
    else a.toNat % 0x8000

/-- The cartridge is one the machine starts with: its id selects the mapper it has, and it has a program page (R94). -/
def Cartridge.supported (c : Cartridge) : Bool := Mapper.ofId c.mapperId == some c.mapper && decide (1 ≤ c.prgPages)

/-- Character memory is writable RAM (R47). -/
def Cartridge.chrWritable (c : Cartridge) : Bool := c.chrPages == 0

/-- A main-path read of the cartridge (R72): program ROM at 0x8000-0xFFFF, 0x00 below. -/
def Cartridge.read (c : Cartridge) (a : Addr) : Byte :=
  if a.toNat < 0x8000 then 0x00#8 else c.prgRom.get (c.mapper.map c.prgPages a)

/-! ### The container (R93) -/

/-- Why an image makes no cartridge (R94, R300 (a)). -/
inductive LoadError where
  | badMagic
  | unsupportedMapper
  | noProgramPage
  /-- The image ends before the bytes its header announces (log entry 7). -/
  | truncated
  deriving DecidableEq, Repr

/-- The cartridge of a container image (R93): a 16-byte header, a 512-byte trainer that is skipped if bit 2 of byte 6 is
set (R95), the program ROM, the character ROM. Bytes 8 to 15 are ignored. Character RAM starts with the contents
given. DESIGN CHOICE (log entry 7): an image shorter than its header announces is refused, the checks come in the order
below, and bytes after the character ROM are ignored; R93 speaks of none of these. -/
def Cartridge.ofImage (chrRamInit : Memory) (image : List Byte) : Except LoadError Cartridge :=
  let byte (k : Nat) : Byte := image.getD k 0x00#8
  let prgPages := (byte 4).toNat
  let chrPages := (byte 5).toNat
  let trainer := (byte 6).getLsbD 2
  let mapperId := (byte 7 &&& 0xF0#8) ||| (byte 6 >>> 4)
  let start := 16 + if trainer then 512 else 0
  let prg := (image.drop start).take (prgPages * 16384)
  let chr := (image.drop (start + prgPages * 16384)).take (chrPages * 8192)
  if image.take 4 ≠ [0x4E#8, 0x45#8, 0x53#8, 0x1A#8] then .error .badMagic
  else match Mapper.ofId mapperId with
    | none => .error .unsupportedMapper
    | some mapper =>
      if prgPages = 0 then .error .noProgramPage
      else if image.length < start + prgPages * 16384 + chrPages * 8192 then .error .truncated
      else .ok {
        prgPages := prgPages
        chrPages := chrPages
        mirroring := (byte 6).getLsbD 0
        fourScreen := (byte 6).getLsbD 3
        battery := (byte 6).getLsbD 1
        trainerPresent := trainer
        consoleType := (byte 7).extractLsb' 0 2
        mapperId := mapperId
        mapper := mapper
        prgRom := Memory.ofBytes prg
        chrMem := if chrPages = 0 then chrRamInit else Memory.ofBytes chr }

end Sys2Proof.Machine
end

