-- ==== Sys2Proof/Machine/Registers.lean ====
section
/-! DEFINITION. The named updates of the state: one for each register or unit an instruction writes. Every write of a
meaning goes through one of them. -/

namespace Sys2Proof.Machine

def State.setA (v : Byte) (s : State) : State := { s with a := v }
def State.setX (v : Byte) (s : State) : State := { s with x := v }
def State.setY (v : Byte) (s : State) : State := { s with y := v }
def State.setSp (v : Byte) (s : State) : State := { s with sp := v }
def State.setP (v : Byte) (s : State) : State := { s with p := v }
def State.setPc (v : Addr) (s : State) : State := { s with pc := v }
def State.addCycles (n : Nat) (s : State) : State := { s with cyc := s.cyc + n }
def State.setHalted (b : Bool) (s : State) : State := { s with halted := b }
def State.setNmi (b : Bool) (s : State) : State := { s with nmiPending := b }
def State.setRam (m : Memory) (s : State) : State := { s with ram := m }
def State.setPpu (u : Ppu) (s : State) : State := { s with ppu := u }
def State.setChr (m : Memory) (s : State) : State := { s with cart := { s.cart with chrMem := m } }
def State.setInputs (l : List Input) (s : State) : State := { s with inputs := l }
def State.emit (e : UndefinedOpcode) (s : State) : State := { s with events := s.events ++ [e] }

end Sys2Proof.Machine
end

