-- ==== Sys2Proof/Machine/Picture.lean ====
section
/-! DEFINITION. The picture unit (48_picture_unit.md) and the video path it reads (20_memory.md R78-R86): routing, the
eight registers, the pixel function, the tick. -/

namespace Sys2Proof.Machine

/-! ### The video path -/

/-- The physical nametable of a logical one, 0 to 3, under the cartridge's mirroring mode (R82). -/
def ntPhys (c : Cartridge) (table : Nat) : Nat :=
  if c.fourScreen then table else if c.mirroring then table % 2 else table / 2

/-- The nametable cell of a video address in 0x2000-0x2FFF (R82). -/
def ntIndex (c : Cartridge) (a : Nat) : Nat := ntPhys c ((a - 0x2000) / 1024) * 1024 + (a - 0x2000) % 1024

/-- The palette cell of a video address in 0x3F00-0x3FFF: mirrored every 32 bytes, with 0x10, 0x14, 0x18, 0x1C aliased
to 0x00, 0x04, 0x08, 0x0C (R84, R85). -/
def palIndex (a : Nat) : Nat :=
  let p := a % 32
  if p &&& 0x13 = 0x10 then p &&& 0x0F else p

/-- The routing table of the video path (R79); the address is first reduced to 14 bits (R86). -/
def videoRoute (c : Cartridge) (addr : Nat) : VideoCell :=
  let a := addr % 0x4000
  if a < 0x2000 then .chr a
  else if a < 0x3000 then .nametable (ntIndex c a)
  else if a < 0x3F00 then .nametable (ntIndex c (a - 0x1000))
  else .palette (palIndex a)

/-- `VidRead` (R78): it has no side effect (R87). -/
def vidRead (s : State) (addr : Nat) : Byte :=
  match videoRoute s.cart addr with
  | .chr k => s.cart.chrMem.get k
  | .nametable k => s.ppu.ntRam.get k
  | .palette k => s.ppu.palRam.get k

/-- `VidWrite` (R78): a write to character ROM does nothing (R81). -/
def vidWrite (addr : Nat) (v : Byte) (s : State) : State :=
  match videoRoute s.cart addr with
  | .chr k => if s.cart.chrWritable then s.setChr (s.cart.chrMem.put k v) else s
  | .nametable k => s.setPpu { s.ppu with ntRam := s.ppu.ntRam.put k v }
  | .palette k => s.setPpu { s.ppu with palRam := s.ppu.palRam.put k v }

/-! ### The registers -/

/-- The picture unit register of a main-path address: `addr & 7` (R65, R260). -/
def regOf (a : Addr) : PpuReg :=
  match a.toNat % 8 with
  | 0 => .ctrl
  | 1 => .mask
  | 2 => .status
  | 3 => .oamAddr
  | 4 => .oamData
  | 5 => .scroll
  | 6 => .addr
  | _ => .data

/-- The status byte: the vblank flag in bit 7, every other bit 0 (R38, R263). -/
def statusByte (u : Ppu) : Byte := if u.vblank then 0x80#8 else 0x00#8

/-- The increment of the VRAM address (R273). -/
def vramStep (u : Ppu) : Addr := if u.ctrl.getLsbD 2 then 32#16 else 1#16

/-- The VRAM address after a data register access (R270, R271). -/
def bumpVramAddr (s : State) : State := s.setPpu { s.ppu with vramAddr := s.ppu.vramAddr + vramStep s.ppu }

/-- The value a read of a register returns; a write-only register reads 0x00 (R263, R267, R271, R272). -/
def regValue (r : PpuReg) (s : State) : Byte :=
  match r with
  | .status => statusByte s.ppu
  | .oamData => s.ppu.oam.get s.ppu.oamAddr.toNat
  | .data => vidRead s s.ppu.vramAddr.toNat
  | .ctrl => 0x00#8
  | .mask => 0x00#8
  | .oamAddr => 0x00#8
  | .scroll => 0x00#8
  | .addr => 0x00#8

/-- The side effect of a read of a register: status clears the vblank flag and the write toggle (R263), data moves the
VRAM address (R271), the others have none (R267, R272). -/
def regReadEffect (r : PpuReg) (s : State) : State :=
  match r with
  | .status => s.setPpu { s.ppu with vblank := false, w := false }
  | .data => bumpVramAddr s
  | .ctrl => s
  | .mask => s
  | .oamAddr => s
  | .oamData => s
  | .scroll => s
  | .addr => s

/-- A write of a register (R261-R270). -/
def regWrite (r : PpuReg) (v : Byte) (s : State) : State :=
  let u := s.ppu
  match r with
  | .ctrl => s.setPpu { u with ctrl := v }
  | .mask => s.setPpu { u with mask := v }
  | .status => s
  | .oamAddr => s.setPpu { u with oamAddr := v }
  | .oamData => s.setPpu { u with oam := u.oam.put u.oamAddr.toNat v, oamAddr := u.oamAddr + 1#8 }
  | .scroll =>
    if u.w then s.setPpu { u with scrollY := v, w := false } else s.setPpu { u with scrollX := v, w := true }
  | .addr =>
    if u.w then s.setPpu { u with vramAddr := joinBytes (highByte u.vramAddr) v, w := false }
    else s.setPpu { u with vramAddr := joinBytes v (lowByte u.vramAddr), w := true }
  | .data => bumpVramAddr (vidWrite u.vramAddr.toNat v s)

/-! ### The pixel function -/

/-- The 2-bit colour of column `c` of a tile row: one bit from each plane, bit 7 the leftmost (R275, R276). -/
def tileColour (s : State) (pa c : Nat) : Nat :=
  let lo := vidRead s pa
  let hi := vidRead s (pa + 8)
  let b := 7 - c
  (hi.getLsbD b).toNat * 2 + (lo.getLsbD b).toNat

/-- The background's colour, 0 to 3, and palette, 0 to 3, at a pixel (R275). -/
def bgPixel (s : State) (x y : Nat) : Nat × Nat :=
  let u := s.ppu
  if !u.mask.getLsbD 3 then (0, 0)
  else if x < 8 ∧ u.mask.getLsbD 1 = false then (0, 0)
  else
    let px := x + u.scrollX.toNat + if u.ctrl.getLsbD 0 then 256 else 0
    let py := y + u.scrollY.toNat + if u.ctrl.getLsbD 1 then 240 else 0
    let ntx := px / 256 % 2
    let cx := px % 256
    let nty := py / 240 % 2
    let cy := py % 240
    let nt := 0x2000 + (nty * 2 + ntx) * 0x0400
    let col := cx / 8
    let row := cy / 8
    let tile := (vidRead s (nt + row * 32 + col)).toNat
    let attr := (vidRead s (nt + 0x03C0 + row / 4 * 8 + col / 4)).toNat
    let shift := row % 4 / 2 * 4 + col % 4 / 2 * 2
    let bp := attr / 2 ^ shift % 4
    let pa := (if u.ctrl.getLsbD 4 then 0x1000 else 0x0000) + tile * 16 + cy % 8
    (tileColour s pa (cx % 8), bp)

/-- A sprite's opaque pixel: its colour, 1 to 3, its palette, 0 to 3, and whether it is behind the background. -/
structure SpritePixel where
  colour : Nat
  palette : Nat
  behind : Bool
  deriving DecidableEq, Repr

/-- The pixel of the sprite of OAM entry `i` at `(x, y)`; none where the sprite is not there or is transparent. The
offsets are integers, not bytes (R43, R276). -/
def spritePixelOf (s : State) (x y i : Nat) : Option SpritePixel :=
  let u := s.ppu
  let h : Int := if u.ctrl.getLsbD 5 then 16 else 8
  let sy := (u.oam.get (4 * i)).toNat
  let tile := u.oam.get (4 * i + 1)
  let at' := u.oam.get (4 * i + 2)
  let sx := (u.oam.get (4 * i + 3)).toNat
  let r : Int := (y : Int) - ((sy : Int) + 1)
  let c : Int := (x : Int) - (sx : Int)
  if r < 0 ∨ h ≤ r ∨ c < 0 ∨ 8 ≤ c then none
  else
    let row : Nat := (if at'.getLsbD 7 then h - 1 - r else r).toNat
    let column : Nat := (if at'.getLsbD 6 then 7 - c else c).toNat
    let pa :=
      if u.ctrl.getLsbD 5 then
        (if tile.getLsbD 0 then 0x1000 else 0) + (tile &&& 0xFE#8).toNat * 16 + (if 8 ≤ row then 16 else 0) + row % 8
      else (if u.ctrl.getLsbD 3 then 0x1000 else 0) + tile.toNat * 16 + row
    let sc := tileColour s pa column
    if sc = 0 then none else some ⟨sc, at'.toNat % 4, at'.getLsbD 5⟩

/-- The first opaque sprite pixel at `(x, y)` in ascending OAM index (R276). -/
def spritePixel (s : State) (x y : Nat) : Option SpritePixel :=
  if !s.ppu.mask.getLsbD 4 then none
  else if x < 8 ∧ s.ppu.mask.getLsbD 2 = false then none
  else (List.range 64).findSome? (spritePixelOf s x y)

/-- The palette address that background and sprite compose to (R277). -/
def compose (bc bp : Nat) : Option SpritePixel → Nat
  | none => if bc = 0 then 0x3F00 else 0x3F00 + bp * 4 + bc
  | some sp => if sp.behind ∧ bc ≠ 0 then 0x3F00 + bp * 4 + bc else 0x3F10 + sp.palette * 4 + sp.colour

/-- The palette address of a pixel (R274-R277). -/
def pixelIndex (s : State) (x y : Nat) : Nat :=
  let (bc, bp) := bgPixel s x y
  compose bc bp (spritePixel s x y)

/-- `palette_argb` (R278): the colour of the low 6 bits of a palette cell. -/
def paletteColour (s : State) (v : Byte) : Colour := s.config.paletteArgb.getD (v.toNat % 64) opaqueBlack

/-- `pixel(x, y)` (R274, R278). -/
def pixel (s : State) (x y : Nat) : Colour := paletteColour s (vidRead s (pixelIndex s x y))

/-! ### The tick -/

/-- The position advances: dot, scanline, frame (R251, R252). -/
def advancePosition (u : Ppu) : Ppu :=
  let u' := if u.dot + 1 = 341 then { u with dot := 0, scanline := u.scanline + 1 } else { u with dot := u.dot + 1 }
  if u'.scanline = 261 then { u' with scanline := -1, frame := u'.frame + 1 } else u'

/-- Entering (241, 1): the vblank flag is set (R253) and, if control bit 7 is 1, an NMI is requested (R255). -/
def vblankSet (s : State) : State :=
  (s.setPpu (if s.ppu.scanline = 241 ∧ s.ppu.dot = 1 then { s.ppu with vblank := true } else s.ppu)).setNmi
    (if s.ppu.scanline = 241 ∧ s.ppu.dot = 1 then s.nmiPending || s.ppu.ctrl.getLsbD 7 else s.nmiPending)

/-- Entering (-1, 0): the vblank flag is cleared (R254). -/
def vblankClear (s : State) : State :=
  s.setPpu (if s.ppu.scanline = -1 ∧ s.ppu.dot = 0 then { s.ppu with vblank := false } else s.ppu)

/-- Entering (241, 0): the back buffer is published as the front buffer (R258). -/
def publish (s : State) : State :=
  s.setPpu (if s.ppu.scanline = 241 ∧ s.ppu.dot = 0 then { s.ppu with front := s.ppu.back } else s.ppu)

/-- The key of pixel `(x, y)` in a frame buffer (R46). -/
def pixelKey (x y : Nat) : Nat := y * 256 + x

/-- Entering dot 0 to 255 of scanline 0 to 239: one pixel is written to the back buffer (R256). -/
def drawPixel (s : State) : State :=
  let y := s.ppu.scanline.toNat
  s.setPpu (if 0 ≤ s.ppu.scanline ∧ s.ppu.scanline ≤ 239 ∧ s.ppu.dot ≤ 255 then
    { s.ppu with back := s.ppu.back.put (pixelKey s.ppu.dot y) (pixel s s.ppu.dot y) } else s.ppu)

/-- One picture unit cycle: the position advances, then the work of the position just entered is done (R251). -/
def tick (s : State) : State := drawPixel (publish (vblankClear (vblankSet (s.setPpu (advancePosition s.ppu)))))

/-- `advance(n)`: n ticks in sequence (R250). -/
def advance : Nat → State → State
  | 0, s => s
  | n + 1, s => advance n (tick s)

end Sys2Proof.Machine
end

