-- ==== Sys2Proof/Machine/Ops.lean ====
section
/-! DEFINITION. The main path (20_memory.md R60-R73), the bulk OAM transfer (R283), the stack (R220-R223), the fetch
(R112), and taking an interrupt and returning from one (R236, R237, R308). -/

namespace Sys2Proof.Machine

/-! ### The main path -/

/-- The routing table of the main path (R63), with the OAM transfer trigger at 0x4014 (R67). -/
def route (addr : Addr) : BusTarget :=
  let a := addr.toNat
  if a < 0x2000 then .ram (a % 0x0800)
  else if a < 0x4000 then .register (regOf addr)
  else if a = 0x4014 then .oamTrigger
  else if a < 0x4018 then .stub
  else if a < 0x4020 then .unmapped
  else .cartridge

/-- The byte a main-path read returns (R64-R72); where nothing answers, 0x00 (R66, R68, R88). -/
def readValue (a : Addr) (s : State) : Byte :=
  match route a with
  | .ram k => s.ram.get k
  | .register r => regValue r s
  | .oamTrigger => 0x00#8
  | .stub => 0x00#8
  | .unmapped => 0x00#8
  | .cartridge => s.cart.read a

/-- The side effect of a main-path read: only a picture unit register has one (R87). -/
def readEffect (a : Addr) (s : State) : State :=
  match route a with
  | .register r => regReadEffect r s
  | .ram _ => s
  | .oamTrigger => s
  | .stub => s
  | .unmapped => s
  | .cartridge => s

/-- `MemRead` (R60): the byte, and the state after the target's side effect. -/
def memRead (a : Addr) (s : State) : Byte × State := (readValue a s, readEffect a s)

/-- `MemRead16` (R61): the low byte first, then the high byte, each routed on its own; the address wraps. -/
def memRead16 (a : Addr) (s : State) : Addr × State :=
  let (lo, s1) := memRead a s
  let (hi, s2) := memRead (a + 1#16) s1
  (joinBytes hi lo, s2)

/-- One byte of the bulk OAM transfer: a main-path read of page `v`, then the store into OAM (R283). -/
def oamTransferByte (v : Byte) (s : State) (i : Nat) : State :=
  let (b, s1) := memRead (joinBytes v (BitVec.ofNat 8 i)) s
  s1.setPpu { s1.ppu with oam := s1.ppu.oam.put ((s1.ppu.oamAddr.toNat + i) % 256) b }

/-- The bulk OAM transfer of page `v`: 256 bytes in ascending order (R283). Its cycles are `writeExtra`. -/
def oamTransfer (v : Byte) (s : State) : State := (List.range 256).foldl (oamTransferByte v) s

/-- `MemWrite` (R60): RAM, a picture unit register, or the OAM transfer; every other target ignores it (R66, R68,
R73). -/
def memWrite (a : Addr) (v : Byte) (s : State) : State :=
  match route a with
  | .ram k => s.setRam (s.ram.put k v)
  | .register r => regWrite r v s
  | .oamTrigger => oamTransfer v s
  | .stub => s
  | .unmapped => s
  | .cartridge => s

/-- The cycles a write adds to the step that makes it: `oam_dma_cycles` for the transfer, else 0 (R283, R352). -/
def writeExtra (a : Addr) (s : State) : Nat :=
  match route a with
  | .oamTrigger => s.config.oamDmaCycles
  | .ram _ => 0
  | .register _ => 0
  | .stub => 0
  | .unmapped => 0
  | .cartridge => 0

/-- `writeWord` (R62): the low byte, then the high byte. Only the host uses it. -/
def memWrite16 (a : Addr) (v : Addr) (s : State) : State :=
  memWrite (a + 1#16) (highByte v) (memWrite a (lowByte v) s)

/-! ### The stack -/

/-- The stack cell an offset names, in page 0x01 (R22). -/
def stackAddr (sp : Byte) : Addr := joinBytes 0x01#8 sp

/-- `Push` (R220): write, then decrement SP modulo 256. -/
def push (v : Byte) (s : State) : State := (memWrite (stackAddr s.sp) v s).setSp (s.sp - 1#8)

/-- `Pop` (R221): increment SP modulo 256, then read. -/
def pop (s : State) : Byte × State := memRead (stackAddr (s.sp + 1#8)) (s.setSp (s.sp + 1#8))

/-- `Push16` (R222): the high byte, then the low byte. -/
def push16 (w : Addr) (s : State) : State := push (lowByte w) (push (highByte w) s)

/-- `Pop16` (R223): the low byte, then the high byte. -/
def pop16 (s : State) : Addr × State :=
  let (lo, s1) := pop s
  let (hi, s2) := pop s1
  (joinBytes hi lo, s2)

/-! ### Interrupts -/

/-- The vectors (R74, R301). -/
def nmiVector : Addr := 0xFFFA#16
def resetVector : Addr := 0xFFFC#16
def irqVector : Addr := 0xFFFE#16

/-- The interrupt sequence BRK, IRQ and NMI share (R236, R308): push the return address, push the status byte, set the
InterruptDisable flag, load PC from the vector. -/
def enterInterrupt (ret : Addr) (status : Byte) (vector : Addr) (s : State) : State :=
  let s1 := push status (push16 ret s)
  let s2 := s1.setP (setFlag .interruptDisable true s1.p)
  let (target, s3) := memRead16 vector s2
  s3.setPc target

/-- The two hardware interrupts (R301). -/
inductive InterruptKind where
  | nmi | irq
  deriving DecidableEq, Repr

/-- `raise Interrupt(kind)` (R308): a Processor step of its own, of 7 cycles; taking the NMI clears its latch. -/
def raiseInterrupt (kind : InterruptKind) (s : State) : State :=
  match kind with
  | .nmi => ((enterInterrupt s.pc (pushedByHardware s.p) nmiVector s).setNmi false).addCycles 7
  | .irq => (enterInterrupt s.pc (pushedByHardware s.p) irqVector s).addCycles 7

/-- The return from an interrupt (R237, R311): P from the stack with Unused forced to 1, then PC. -/
def returnFromInterrupt (s : State) : State :=
  let (v, s1) := pop s
  let (target, s2) := pop16 (s1.setP (pulledStatus v))
  s2.setPc target

/-! ### The fetch -/

/-- Fetches the instruction at PC (R112): the opcode byte, then the operand bytes its entry asks for, through the main
path with its side effects, at addresses that wrap (R128). PC does not move yet. -/
def fetch (s : State) : Instr × State :=
  let (op, s1) := memRead s.pc s
  match entryOf op with
  | .f1 i => (i, s1)
  | .f2 mk =>
    let (b1, s2) := memRead (s.pc + 1#16) s1
    (mk b1, s2)
  | .f3 mk =>
    let (b1, s2) := memRead (s.pc + 1#16) s1
    let (b2, s3) := memRead (s.pc + 2#16) s2
    (mk (joinBytes b2 b1), s3)

end Sys2Proof.Machine
end

