-- ==== Sys2Proof/Machine/Calls.lean ====
section
/-! DEFINITION. Power-on (70_reset_and_hazards.md R340) and reset (R341), and the placing of an instruction's bytes where
the machine fetches. -/

namespace Sys2Proof.Machine

/-- `powerOn()` (R340): the Processor's reset values, the picture unit's (R56), and the power-on contents of the
memories. PC is not written and so keeps its value, DEDUCED (log entry 13); program and character ROM keep their
contents. -/
def powerOn (s : State) : State :=
  { s with
    a := 0x00
    x := 0x00
    y := 0x00
    p := 0x34
    sp := 0xFD
    cyc := 0
    halted := false
    nmiPending := false
    ram := s.config.ramInit
    ppu := Ppu.start s.config.oamInit s.config.nametableInit s.config.paletteInit
    cart := if s.cart.chrWritable then { s.cart with chrMem := s.config.chrRamInit } else s.cart }

/-- `reset()` (R341): PC from the reset vector; the halt flag and a pending NMI are cleared; nothing else changes. -/
def resetCall (s : State) : State :=
  let (target, s1) := memRead16 resetVector s
  ((s1.setPc target).setHalted false).setNmi false

/-! ### Placing an instruction where the machine fetches it (log entry 9) -/

/-- A cell that holds a program's byte answers at this address: RAM, or program ROM. -/
def holdsCode (a : Addr) : Bool :=
  match route a with
  | .ram _ => true
  | .cartridge => decide (0x8000 ≤ a.toNat)
  | .register _ => false
  | .oamTrigger => false
  | .stub => false
  | .unmapped => false

/-- Puts a byte into the cell that answers at an address. -/
def placeByte (a : Addr) (v : Byte) (s : State) : State :=
  match route a with
  | .ram k => s.setRam (s.ram.put k v)
  | .cartridge =>
    if a.toNat < 0x8000 then s
    else { s with cart := { s.cart with prgRom := s.cart.prgRom.put (s.cart.mapper.map s.cart.prgPages a) v } }
  | .register _ => s
  | .oamTrigger => s
  | .stub => s
  | .unmapped => s

/-- The state about to fetch at PC and run: not halted, no interrupt pending, no input waiting, a cartridge the machine
starts with, and PC where three bytes can be held (else at 0x0200, in RAM). -/
def readyToFetch (s : State) : State :=
  { s with
    halted := false
    nmiPending := false
    inputs := []
    cart := if s.cart.supported then s.cart else
      { s.cart with mapperId := 0x00, mapper := .fixed, prgPages := max 1 s.cart.prgPages }
    pc := if holdsCode s.pc && holdsCode (s.pc + 1#16) && holdsCode (s.pc + 2#16) then s.pc else 0x0200 }

/-- Puts bytes at successive addresses from `a` on. -/
def placeBytes (a : Addr) : List Byte → State → State
  | [], s => s
  | v :: rest, s => placeBytes (a + 1#16) rest (placeByte a v s)

end Sys2Proof.Machine
end

