-- ==== Sys2Proof/Machine/Operands.lean ====
section
/-! DEFINITION. The addressing modes (30_encoding.md R113-R127) and the table's lengths, base cycle counts and penalty
bits (R131). -/

namespace Sys2Proof.Machine

/-- A byte as an address in the zero page. -/
def zeroPage (b : Byte) : Addr := joinBytes 0x00#8 b

/-- The little-endian pointer at `z` in the zero page; its second byte wraps within the page (R123, R124). -/
def zeroPagePointer (z : Byte) (s : State) : Addr := joinBytes (readValue (zeroPage (z + 1#8)) s) (readValue (zeroPage z) s)

/-- The un-indexed base of a memory operand whose index is added to 16 bits (R121, R122, R124); for the other modes, the
effective address itself. -/
def baseAddr (m : Mem) (s : State) : Addr :=
  match m with
  | .zp b => zeroPage b
  | .zpx b => zeroPage (b + s.x)
  | .zpy b => zeroPage (b + s.y)
  | .abs w => w
  | .abx w => w
  | .aby w => w
  | .izx b => zeroPagePointer (b + s.x) s
  | .izy b => zeroPagePointer b s

/-- The effective address `ea` of a memory operand (R117-R124). The pointer reads of IZX and IZY are in page 0, which
is RAM, so they have no side effect (R87). -/
def effAddr (m : Mem) (s : State) : Addr :=
  match m with
  | .zp _ => baseAddr m s
  | .zpx _ => baseAddr m s
  | .zpy _ => baseAddr m s
  | .abs _ => baseAddr m s
  | .abx _ => baseAddr m s + s.x.setWidth 16
  | .aby _ => baseAddr m s + s.y.setWidth 16
  | .izx _ => baseAddr m s
  | .izy _ => baseAddr m s + s.y.setWidth 16

/-- `crossed` (R127): the high byte of the effective address differs from that of the un-indexed base. -/
def crossed (m : Mem) (s : State) : Bool := highByte (effAddr m s) != highByte (baseAddr m s)

/-- The operand value `M` of a source operand (R113, R116). -/
def srcValue (o : Src) (s : State) : Byte :=
  match o with
  | .imm b => b
  | .mem m => readValue (effAddr m s) s

/-- The side effect of reading a source operand (R113): an immediate reads nothing. -/
def srcEffect (o : Src) (s : State) : State :=
  match o with
  | .imm _ => s
  | .mem m => readEffect (effAddr m s) s

/-- The target of a jump, and the state after the pointer reads of IND, whose high byte comes from the same page as its
low byte (R126). -/
def jumpTarget (t : Target) (s : State) : Addr × State :=
  match t with
  | .abs w => (w, s)
  | .ind ptr =>
    let (lo, s1) := memRead ptr s
    let (hi, s2) := memRead (joinBytes (highByte ptr) (lowByte ptr + 1#8)) s1
    (joinBytes hi lo, s2)

/-- The target of a branch: the following instruction's address plus the signed displacement (R125). -/
def branchTarget (next : Addr) (b : Byte) : Addr := next + b.signExtend 16

/-! ### Lengths (R131) -/

def Mem.length : Mem → Nat
  | .zp _ | .zpx _ | .zpy _ | .izx _ | .izy _ => 2
  | .abs _ | .abx _ | .aby _ => 3

def Src.length : Src → Nat
  | .imm _ => 2
  | .mem m => Mem.length m

def Dst.length : Dst → Nat
  | .acc => 1
  | .mem m => Mem.length m

/-- The length of an instruction in bytes (R131). BRK's is 1: it pushes an address one byte further (R236). -/
def instrLength : Instr → Nat
  | .lda o | .ldx o | .ldy o | .ora o | .and o | .eor o | .adc o | .sbc o | .cmp o | .cpx o | .cpy o => Src.length o
  | .sta m | .stx m | .sty m | .bit m | .inc m | .dec m => Mem.length m
  | .asl d | .lsr d | .rol d | .ror d => Dst.length d
  | .jmp _ | .jsr _ => 3
  | .bpl _ | .bmi _ | .bvc _ | .bvs _ | .bcc _ | .bcs _ | .bne _ | .beq _ => 2
  | .tax | .tay | .txa | .tya | .tsx | .txs | .inx | .iny | .dex | .dey | .rts => 1
  | .pha | .php | .pla | .plp | .clc | .sec | .cli | .sei | .cld | .sed | .clv | .nop | .brk | .rti => 1
  | .kil _ | .und _ => 1

/-! ### Base cycles and penalty bits (R131). A mode that a class does not have (no well-formed instruction) counts 0. -/

/-- The read class with a memory operand. -/
def readCycles : Src → Nat
  | .imm _ => 2
  | .mem (.zp _) => 3
  | .mem (.zpx _) | .mem (.zpy _) => 4
  | .mem (.abs _) => 4
  | .mem (.abx _) | .mem (.aby _) => 4
  | .mem (.izx _) => 6
  | .mem (.izy _) => 5

/-- The store class. -/
def storeCycles : Mem → Nat
  | .zp _ => 3
  | .zpx _ | .zpy _ => 4
  | .abs _ => 4
  | .abx _ | .aby _ => 5
  | .izx _ => 6
  | .izy _ => 6

/-- The read-modify-write class. -/
def modifyCycles : Dst → Nat
  | .acc => 2
  | .mem (.zp _) => 5
  | .mem (.zpx _) | .mem (.zpy _) => 6
  | .mem (.abs _) => 6
  | .mem (.abx _) | .mem (.aby _) => 7
  | .mem (.izx _) | .mem (.izy _) => 0

/-- The base cycle count of an instruction (R131); KIL 0 (R245), UND 1 (R246). -/
def baseCycles : Instr → Nat
  | .lda o | .ldx o | .ldy o | .ora o | .and o | .eor o | .adc o | .sbc o | .cmp o | .cpx o | .cpy o => readCycles o
  | .bit m => readCycles (.mem m)
  | .sta m | .stx m | .sty m => storeCycles m
  | .inc m | .dec m => modifyCycles (.mem m)
  | .asl d | .lsr d | .rol d | .ror d => modifyCycles d
  | .tax | .tay | .txa | .tya | .tsx | .txs | .inx | .iny | .dex | .dey => 2
  | .clc | .sec | .cli | .sei | .cld | .sed | .clv | .nop => 2
  | .pha | .php => 3
  | .pla | .plp => 4
  | .jmp (.abs _) => 3
  | .jmp (.ind _) => 5
  | .jsr _ | .rts | .rti => 6
  | .brk => 7
  | .bpl _ | .bmi _ | .bvc _ | .bvs _ | .bcc _ | .bcs _ | .bne _ | .beq _ => 2
  | .kil _ => 0
  | .und _ => 1

/-- The cycles of a page crossing (R121, R124, R352): one for a read instruction in mode ABX, ABY or IZY whose index
crosses a page, none else. -/
def crossingPenalty (o : Src) (s : State) : Nat :=
  match o with
  | .mem (.abx w) => if crossed (.abx w) s then 1 else 0
  | .mem (.aby w) => if crossed (.aby w) s then 1 else 0
  | .mem (.izy b) => if crossed (.izy b) s then 1 else 0
  | .imm _ => 0
  | .mem (.zp _) => 0
  | .mem (.zpx _) => 0
  | .mem (.zpy _) => 0
  | .mem (.abs _) => 0
  | .mem (.izx _) => 0

/-! ### The shapes of a step (R112): each takes the instruction, for its length and cycles, and what it computes -/

/-- `PC <- next` (R112). -/
def toNext (i : Instr) (s : State) : State := s.setPc (s.pc + BitVec.ofNat 16 (instrLength i))

/-- The end of a step: its base cycles and what else it costs are counted (R112, R352). -/
def spend (i : Instr) (extra : Nat) (s : State) : State := s.addCycles (baseCycles i + extra)

/-- An instruction that reads its operand and then computes `f` of it. -/
def readStep (i : Instr) (o : Src) (f : Byte → State → State) (s : State) : Result :=
  let s0 := toNext i s
  .next (spend i (crossingPenalty o s0) (f (srcValue o s0) (srcEffect o s0)))

/-- An instruction that stores the byte `v`; the operand is not read (R102). -/
def storeStep (i : Instr) (m : Mem) (v : Byte) (s : State) : Result :=
  let s0 := toNext i s
  .next (spend i (writeExtra (effAddr m s0) s0) (memWrite (effAddr m s0) v s0))

/-- An instruction that reads memory once and writes the result back once (R102); `f` gives the result and the status
byte. -/
def modifyMemStep (i : Instr) (m : Mem) (f : Byte → Byte → Byte × Byte) (s : State) : Result :=
  let s0 := toNext i s
  let a := effAddr m s0
  let (r, p) := f (readValue a s0) s0.p
  .next (spend i (writeExtra a s0) ((memWrite a r (readEffect a s0)).setP p))

/-- A shift or rotate (R190): on the accumulator, or on memory. -/
def modifyStep (i : Instr) (d : Dst) (f : Byte → Byte → Byte × Byte) (s : State) : Result :=
  match d with
  | .acc =>
    let s0 := toNext i s
    let (r, p) := f s0.a s0.p
    .next (spend i 0 ((s0.setA r).setP p))
  | .mem m => modifyMemStep i m f s

/-- An instruction without a memory operand, of fixed cost. -/
def plainStep (i : Instr) (f : State → State) (s : State) : Result := .next (spend i 0 (f (toNext i s)))

/-- A conditional branch (R203): one more cycle when taken, and one more when the target is on another page than the
following instruction. -/
def branchStep (i : Instr) (taken : Bool) (b : Byte) (s : State) : Result :=
  let s0 := toNext i s
  let target := branchTarget s0.pc b
  if taken then .next (spend i (1 + if highByte target != highByte s0.pc then 1 else 0) (s0.setPc target))
  else .next (spend i 0 s0)

end Sys2Proof.Machine
end

