-- ==== Sys2Proof/Machine/Arithmetic.lean ====
section
/-! DEFINITION. Logical, arithmetic, compare, bit test, increment and decrement instructions (41_arithmetic_logic.md
R170-R188). -/

namespace Sys2Proof.Machine

/-- A read instruction that leaves a result in A and sets Zero and Negative from it (R171, R172, R174). -/
def logicStep (i : Instr) (o : Src) (f : Byte → Byte → Byte) (s : State) : Result :=
  readStep i o (fun m t => (t.setA (f t.a m)).setP (setZN (f t.a m) t.p)) s

/-- A read instruction that leaves a result in A and a status byte in P, both computed from A, the operand and P
(R175, R176). -/
def sumStep (i : Instr) (o : Src) (f : Byte → Byte → Byte → Byte × Byte) (s : State) : Result :=
  readStep i o (fun m t => (t.setA (f t.a m t.p).1).setP (f t.a m t.p).2) s

/-- ORA (R171). -/
def execOra (o : Src) (s : State) : Result := logicStep (.ora o) o (fun a m => a ||| m) s

/-- AND (R172). -/
def execAnd (o : Src) (s : State) : Result := logicStep (.and o) o (fun a m => a &&& m) s

/-- EOR (R174). -/
def execEor (o : Src) (s : State) : Result := logicStep (.eor o) o (fun a m => a ^^^ m) s

/-- ADC (R175). -/
def execAdc (o : Src) (s : State) : Result := sumStep (.adc o) o addWithCarry s

/-- SBC (R176). -/
def execSbc (o : Src) (s : State) : Result := sumStep (.sbc o) o subWithBorrow s

/-- CMP (R177). -/
def execCmp (o : Src) (s : State) : Result := readStep (.cmp o) o (fun m t => t.setP (compare t.a m t.p)) s

/-- CPX (R178). -/
def execCpx (o : Src) (s : State) : Result := readStep (.cpx o) o (fun m t => t.setP (compare t.x m t.p)) s

/-- CPY (R179). -/
def execCpy (o : Src) (s : State) : Result := readStep (.cpy o) o (fun m t => t.setP (compare t.y m t.p)) s

/-- BIT (R180). -/
def execBit (m : Mem) (s : State) : Result := readStep (.bit m) (.mem m) (fun v t => t.setP (bitTest t.a v t.p)) s

/-- INC (R181). -/
def execInc (m : Mem) (s : State) : Result := modifyMemStep (.inc m) m increment s

/-- DEC (R182). -/
def execDec (m : Mem) (s : State) : Result := modifyMemStep (.dec m) m decrement s

/-- INX (R183). -/
def execInx (s : State) : Result :=
  plainStep .inx (fun t => (t.setX (increment t.x t.p).1).setP (increment t.x t.p).2) s

/-- INY (R184). -/
def execIny (s : State) : Result :=
  plainStep .iny (fun t => (t.setY (increment t.y t.p).1).setP (increment t.y t.p).2) s

/-- DEX (R185). -/
def execDex (s : State) : Result :=
  plainStep .dex (fun t => (t.setX (decrement t.x t.p).1).setP (decrement t.x t.p).2) s

/-- DEY (R186). -/
def execDey (s : State) : Result :=
  plainStep .dey (fun t => (t.setY (decrement t.y t.p).1).setP (decrement t.y t.p).2) s

end Sys2Proof.Machine
end

