-- ==== Sys2Proof/Machine/Control.lean ====
section
/-! DEFINITION. Jumps, subroutine call and return, and the eight conditional branches (43_control_flow.md R200-R212). -/

namespace Sys2Proof.Machine

/-- JMP (R200). -/
def execJmp (t : Target) (s : State) : Result :=
  plainStep (.jmp t) (fun s0 => (jumpTarget t s0).2.setPc (jumpTarget t s0).1) s

/-- JSR (R201): it pushes the address of its own last byte, `next - 1`. -/
def execJsr (w : Addr) (s : State) : Result := plainStep (.jsr w) (fun s0 => (push16 (s0.pc - 1#16) s0).setPc w) s

/-- RTS (R202): it adds 1 to the popped word. -/
def execRts (s : State) : Result := plainStep .rts (fun s0 => (pop16 s0).2.setPc ((pop16 s0).1 + 1#16)) s

/-- BPL (R204). -/
def execBpl (b : Byte) (s : State) : Result := branchStep (.bpl b) (!getFlag .negative s.p) b s

/-- BMI (R205). -/
def execBmi (b : Byte) (s : State) : Result := branchStep (.bmi b) (getFlag .negative s.p) b s

/-- BVC (R206). -/
def execBvc (b : Byte) (s : State) : Result := branchStep (.bvc b) (!getFlag .overflow s.p) b s

/-- BVS (R207). -/
def execBvs (b : Byte) (s : State) : Result := branchStep (.bvs b) (getFlag .overflow s.p) b s

/-- BCC (R208). -/
def execBcc (b : Byte) (s : State) : Result := branchStep (.bcc b) (!getFlag .carry s.p) b s

/-- BCS (R209). -/
def execBcs (b : Byte) (s : State) : Result := branchStep (.bcs b) (getFlag .carry s.p) b s

/-- BNE (R210). -/
def execBne (b : Byte) (s : State) : Result := branchStep (.bne b) (!getFlag .zero s.p) b s

/-- BEQ (R211). -/
def execBeq (b : Byte) (s : State) : Result := branchStep (.beq b) (getFlag .zero s.p) b s

end Sys2Proof.Machine
end

