-- ==== Sys2Proof/Machine/Shift.lean ====
section
/-! DEFINITION. Shift and rotate instructions (42_shift_rotate.md R190-R194). -/

namespace Sys2Proof.Machine

/-- ASL (R191). -/
def execAsl (d : Dst) (s : State) : Result := modifyStep (.asl d) d shiftLeft s

/-- LSR (R192). -/
def execLsr (d : Dst) (s : State) : Result := modifyStep (.lsr d) d shiftRight s

/-- ROL (R193). -/
def execRol (d : Dst) (s : State) : Result := modifyStep (.rol d) d rotateLeft s

/-- ROR (R194). -/
def execRor (d : Dst) (s : State) : Result := modifyStep (.ror d) d rotateRight s

end Sys2Proof.Machine
end

