-- ==== Sys2Proof/Machine/System.lean ====
section
/-! DEFINITION. Stack and flag instructions, NOP, BRK, RTI (44_stack_flags_system.md R224-R237), the halting and the
undefined opcodes (45_halting_undefined.md R245-R247). -/

namespace Sys2Proof.Machine

/-- PHA (R224). -/
def execPha (s : State) : Result := plainStep .pha (fun t => push t.a t) s

/-- PHP (R225): Break and Unused are 1 in the pushed byte; P does not change. -/
def execPhp (s : State) : Result := plainStep .php (fun t => push (pushedBySoftware t.p) t) s

/-- PLA (R226). -/
def execPla (s : State) : Result :=
  plainStep .pla (fun t => ((pop t).2.setA (pop t).1).setP (setZN (pop t).1 t.p)) s

/-- PLP (R227). -/
def execPlp (s : State) : Result := plainStep .plp (fun t => (pop t).2.setP (pulledStatus (pop t).1)) s

/-- CLC (R228). -/
def execClc (s : State) : Result := plainStep .clc (fun t => t.setP (setFlag .carry false t.p)) s

/-- SEC (R229). -/
def execSec (s : State) : Result := plainStep .sec (fun t => t.setP (setFlag .carry true t.p)) s

/-- CLI (R230): it governs the very next sampling point (R307, R346). -/
def execCli (s : State) : Result := plainStep .cli (fun t => t.setP (setFlag .interruptDisable false t.p)) s

/-- SEI (R231). -/
def execSei (s : State) : Result := plainStep .sei (fun t => t.setP (setFlag .interruptDisable true t.p)) s

/-- CLD (R232). -/
def execCld (s : State) : Result := plainStep .cld (fun t => t.setP (setFlag .decimal false t.p)) s

/-- SED (R233): the flag has no effect on arithmetic (R29, R173). -/
def execSed (s : State) : Result := plainStep .sed (fun t => t.setP (setFlag .decimal true t.p)) s

/-- CLV (R234). -/
def execClv (s : State) : Result := plainStep .clv (fun t => t.setP (setFlag .overflow false t.p)) s

/-- NOP (R235). -/
def execNop (s : State) : Result := plainStep .nop id s

/-- BRK (R236): the interrupt sequence with the address two bytes after the opcode's, Break set in the pushed status,
and the IRQ/BRK vector. The byte after the opcode is not read. -/
def execBrk (s : State) : Result :=
  .next (spend .brk 0 (enterInterrupt (s.pc + 2#16) (pushedBySoftware s.p) irqVector s))

/-- RTI (R237): no 1 is added to the popped address. -/
def execRti (s : State) : Result := plainStep .rti returnFromInterrupt s

/-- KIL (R245): the halt flag is set; PC stays on the opcode and no cycle is counted. -/
def execKil (op : Byte) (s : State) : Result := .next (spend (.kil op) 0 (s.setHalted true))

/-- UND (R246): one byte, one cycle, and a diagnostic event with the opcode's address and byte. -/
def execUnd (op : Byte) (s : State) : Result := plainStep (.und op) (fun t => t.emit ⟨s.pc, op⟩) s

end Sys2Proof.Machine
end

