-- ==== Sys2Proof/Machine/Transfer.lean ====
section
/-! DEFINITION. Loads, stores and register transfers (40_load_store_transfer.md R150-R162). -/

namespace Sys2Proof.Machine

/-- LDA (R151). -/
def execLda (o : Src) (s : State) : Result :=
  readStep (.lda o) o (fun m t => (t.setA m).setP (setZN m t.p)) s

/-- LDX (R152). -/
def execLdx (o : Src) (s : State) : Result :=
  readStep (.ldx o) o (fun m t => (t.setX m).setP (setZN m t.p)) s

/-- LDY (R153). -/
def execLdy (o : Src) (s : State) : Result :=
  readStep (.ldy o) o (fun m t => (t.setY m).setP (setZN m t.p)) s

/-- STA (R154). -/
def execSta (m : Mem) (s : State) : Result := storeStep (.sta m) m s.a s

/-- STX (R155). -/
def execStx (m : Mem) (s : State) : Result := storeStep (.stx m) m s.x s

/-- STY (R156). -/
def execSty (m : Mem) (s : State) : Result := storeStep (.sty m) m s.y s

/-- TAX (R157). -/
def execTax (s : State) : Result := plainStep .tax (fun t => (t.setX t.a).setP (setZN t.a t.p)) s

/-- TAY (R158). -/
def execTay (s : State) : Result := plainStep .tay (fun t => (t.setY t.a).setP (setZN t.a t.p)) s

/-- TXA (R159). -/
def execTxa (s : State) : Result := plainStep .txa (fun t => (t.setA t.x).setP (setZN t.x t.p)) s

/-- TYA (R160). -/
def execTya (s : State) : Result := plainStep .tya (fun t => (t.setA t.y).setP (setZN t.y t.p)) s

/-- TSX (R161). -/
def execTsx (s : State) : Result := plainStep .tsx (fun t => (t.setX t.sp).setP (setZN t.sp t.p)) s

/-- TXS (R162): it sets no flag. -/
def execTxs (s : State) : Result := plainStep .txs (fun t => t.setSp t.x) s

end Sys2Proof.Machine
end

