-- ==== Sys2Proof/Machine/Loop.lean ====
section
/-! DEFINITION. One iteration of the System loop (60_exceptions.md R320): sampling, a Processor step, the ticks that
follow it; and the host's calls between iterations (R323). -/

namespace Sys2Proof.Machine

/-- `step()` of the Processor (R112): fetch, decode, execute. -/
def processorStep (s : State) : Result := exec (fetch s).1 (fetch s).2

/-- The ticks that follow a Processor step from `s` to `t`: three for each cycle it counted (R320, R321); none when the
step halted the machine (R245). -/
def followTicks (s t : State) : State := if t.halted then t else advance (3 * (t.cyc - s.cyc)) t

/-- One iteration of the System loop, with the levels of the two input lines at its sampling point (R307, R320). When
the machine is halted or asked to stop, the run ends: every piece of state keeps its value (R322). -/
def loopIteration (irqLine stopRequest : Bool) (s : State) : Result :=
  if s.halted || stopRequest then .next s
  else if s.nmiPending then .next (followTicks s (raiseInterrupt .nmi s))
  else if irqLine && !getFlag .interruptDisable s.p then .next (followTicks s (raiseInterrupt .irq s))
  else
    match processorStep s with
    | .next t => .next (followTicks s t)
    | .fault r => .fault r
    | .refused r => .refused r

/-- A host call (R323). A host access has its target's side effects (R92, R103); a host write to the OAM transfer trigger
makes the transfer but counts no cycles, since no Processor step made it (log entry 8). A halted Processor has no step
(R31). -/
def hostCall (c : HostCall) (s : State) : Result :=
  match c with
  | .powerOn => .next (powerOn s)
  | .reset => .next (resetCall s)
  | .step => if s.halted then .next s else processorStep s
  | .advance n => .next (advance n s)
  | .readByte a => .next (memRead a s).2
  | .readWord a => .next (memRead16 a s).2
  | .writeByte a v => .next (memWrite a v s)
  | .writeWord a v => .next (memWrite16 a v s)

/-- What the machine does on the host's next input: a call between two iterations, or an iteration; with no input
waiting, an iteration with both lines at 0 (R33, log entry 2). -/
def takeInput (s : State) : Result :=
  match s.inputs with
  | [] => loopIteration false false s
  | .sample irqLine stopRequest :: rest => loopIteration irqLine stopRequest (s.setInputs rest)
  | .call c :: rest => hostCall c (s.setInputs rest)

end Sys2Proof.Machine
end

