-- ==== Sys2Proof/Machine/Step.lean ====
section
/-! DEFINITION. The machine's step: the host's next input, on a cartridge the machine starts with. -/

namespace Sys2Proof.Machine

/-- One step of the machine. A cartridge that R94 refuses is refused before anything else: "the System must not
start". -/
def step (s : State) : Host.Outcome State Fault Refusal :=
  if s.cart.supported then takeInput s else .refused .unsupportedCartridge

/-- The state `s` with the instruction of a table word placed where the next step fetches (log entry 9). -/
def State.withFetchWord (s : State) (nbits w : Nat) : State :=
  placeBytes (readyToFetch s).pc (tableWordBytes nbits w) (readyToFetch s)

end Sys2Proof.Machine
end

