-- ==== Sys2Proof/Safety.lean ====
section
/-! DEFINITION. The terms that claims use: the invariants of every state a run reaches, what counts as a safe run, and
short names for what an instruction leaves unchanged. -/

namespace Sys2Proof

open Sys2Proof.Machine

/-! ### Invariants -/

/-- The parameters are well formed: each power-on memory is in canonical form and of its own size. -/
def ConfigCanonical (c : Cartridge) (k : Config) : Prop :=
  Memory.wf 2048 k.ramInit ∧ Memory.wf 256 k.oamInit ∧ Memory.wf (if c.fourScreen then 4096 else 2048) k.nametableInit ∧
  Memory.wf 32 k.paletteInit ∧ Memory.wf 8192 k.chrRamInit

/-- Every memory of the machine is in canonical form and of its own size (R34, R43-R47). -/
def MemoriesCanonical (s : State) : Prop :=
  Memory.wf 2048 s.ram ∧ Memory.wf 256 s.ppu.oam ∧
  Memory.wf (if s.cart.fourScreen then 4096 else 2048) s.ppu.ntRam ∧ Memory.wf 32 s.ppu.palRam ∧
  Pixels.wf s.ppu.back ∧ Pixels.wf s.ppu.front ∧
  Memory.wf (s.cart.prgPages * 16384) s.cart.prgRom ∧
  Memory.wf (if s.cart.chrPages = 0 then 8192 else s.cart.chrPages * 8192) s.cart.chrMem ∧
  ConfigCanonical s.cart s.config

/-- The Unused bit of P is 1 (R25). -/
def UnusedBitSet (s : State) : Prop := getFlag .unused s.p = true

/-- The picture unit stands where `3 * cyc` ticks from power-on put it (R259, R321). -/
def LockStep (s : State) : Prop :=
  s.ppu.scanline = ((3 * s.cyc % 89342 / 341 : Nat) : Int) - 1 ∧
  s.ppu.dot = 3 * s.cyc % 89342 % 341 ∧
  s.ppu.frame = 3 * s.cyc / 89342

/-- The position is one of the frame's (R35). -/
def PositionLegal (u : Ppu) : Prop := -1 ≤ u.scanline ∧ u.scanline ≤ 260 ∧ u.dot ≤ 340

/-- Before (241, 1) in a frame the vblank flag is 0 (R254). -/
def VblankOnlyInBlank (s : State) : Prop :=
  (s.ppu.scanline ≤ 240 ∨ (s.ppu.scanline = 241 ∧ s.ppu.dot = 0)) → s.ppu.vblank = false

/-! ### Runs -/

/-- `n` steps from `s` go on to a running machine and execute no undefined opcode (R247). -/
def SafeRun (n : Nat) (s : State) : Prop :=
  ∃ t : State, Host.Core.run core n s = .next t ∧ t.halted = false ∧ t.events = s.events

/-! ### Frames -/

/-- `q` has the Zero and Negative flags of the byte `v` (R27). -/
def ZNOf (v q : Byte) : Prop := getFlag .zero q = decide (v = 0x00#8) ∧ getFlag .negative q = v.getLsbD 7

/-- `q` differs from `p` at most in the listed flags. -/
def FlagsKeptBut (changed : List Flag) (p q : Byte) : Prop := ∀ f : Flag, f ∉ changed → getFlag f q = getFlag f p

/-- A, X, Y and SP are unchanged. -/
def DataRegistersKept (s t : State) : Prop := t.a = s.a ∧ t.x = s.x ∧ t.y = s.y ∧ t.sp = s.sp

/-- The halt flag, the NMI latch, the parameters, the input stream and the event stream are unchanged. -/
def HiddenKept (s t : State) : Prop :=
  t.halted = s.halted ∧ t.nmiPending = s.nmiPending ∧ t.config = s.config ∧ t.inputs = s.inputs ∧ t.events = s.events

/-- PC moves on by `len` bytes and the cycle counter by `cycles`; what `HiddenKept` names is unchanged. -/
def MovedOn (len cycles : Nat) (s t : State) : Prop :=
  t.pc.toNat = (s.pc.toNat + len) % 65536 ∧ t.cyc = s.cyc + cycles ∧ HiddenKept s t

/-- The address is in the picture unit's register window (R65). -/
def InWindow (a : Addr) : Prop := 0x2000 ≤ a.toNat ∧ a.toNat ≤ 0x3FFF

/-- Two addresses at which the same cell of internal RAM answers (R64). -/
def SameCell (a b : Addr) : Prop := a.toNat < 0x2000 ∧ b.toNat < 0x2000 ∧ a.toNat % 0x800 = b.toNat % 0x800

/-- The internal RAM is unchanged, and every byte outside the register window reads the same. -/
def OutsideWindowKept (s t : State) : Prop := t.ram = s.ram ∧ ∀ a : Addr, ¬ InWindow a → readValue a t = readValue a s

/-- Every byte the main path reads, every byte the video path reads, the whole picture unit and the whole cartridge are
unchanged. -/
def StorageKept (s t : State) : Prop :=
  (∀ a : Addr, readValue a t = readValue a s) ∧ (∀ n : Nat, vidRead t n = vidRead s n) ∧ t.ppu = s.ppu ∧ t.cart = s.cart

/-- The storage of `t` is that of `s` after the read of a source operand and nothing else: an operand in the register
window has that register's read effect, any other operand leaves every byte as it was. -/
def OperandRead (o : Src) (s t : State) : Prop :=
  t.ppu = (srcEffect o s).ppu ∧ t.cart = s.cart ∧ (∀ n : Nat, vidRead t n = vidRead s n) ∧ OutsideWindowKept s t ∧
  ((∀ m : Mem, o = .mem m → ¬ InWindow (effAddr m s)) → StorageKept s t)

/-- The storage of `t` is that of `s1` after the store of `v` at `ea`, and nothing else differs from `s`: outside the
register window every byte but those of the stored cell is as in `s`; where `ea` is neither in the window nor the OAM
transfer trigger, every byte but those of the stored cell. The stored cell answers with `v` at each of its addresses. -/
def Stored (ea : Addr) (v : Byte) (s1 s t : State) : Prop :=
  t.ram = (memWrite ea v s1).ram ∧ t.ppu = (memWrite ea v s1).ppu ∧ t.cart = (memWrite ea v s1).cart ∧
  (∀ a : Addr, ¬ InWindow a → ¬ SameCell a ea → readValue a t = readValue a s) ∧
  (¬ InWindow ea → ea ≠ 0x4014#16 →
    t.ppu = s.ppu ∧ t.cart = s.cart ∧ (∀ n : Nat, vidRead t n = vidRead s n) ∧
    ∀ a : Addr, ¬ SameCell a ea → readValue a t = readValue a s) ∧
  (MemoriesCanonical s → ∀ a : Addr, SameCell a ea → readValue a t = v)

/-- The bytes of the stack that `t` has and `s` had not, each with its address; every other byte is as in `s`. -/
def Stacked (cells : List (Addr × Byte)) (s t : State) : Prop :=
  t.ppu = s.ppu ∧ t.cart = s.cart ∧ (∀ n : Nat, vidRead t n = vidRead s n) ∧
  (∀ a : Addr, (∀ c ∈ cells, ¬ SameCell a c.1) → readValue a t = readValue a s) ∧
  (MemoriesCanonical s → ∀ c ∈ cells, ∀ a : Addr, SameCell a c.1 → readValue a t = c.2)

/-! ### The rows of the opcode table -/

/-- What the table says of an instruction: opcode byte, length, base cycles (R130, R131). -/
def tableRow (i : Instr) : Option Byte × Nat × Nat := (opcodeOf i, instrLength i, baseCycles i)

/-- The operand forms of LDA, ORA, AND, EOR, ADC, SBC and CMP, in the order of R151. -/
def accumulatorForms (b : Byte) (w : Addr) : List Src :=
  [.imm b, .mem (.zp b), .mem (.zpx b), .mem (.abs w), .mem (.abx w), .mem (.aby w), .mem (.izx b), .mem (.izy b)]

/-- The operand forms of INC and DEC, in the order of R181. -/
def modifyForms (b : Byte) (w : Addr) : List Mem := [.zp b, .zpx b, .abs w, .abx w]

/-- The operand forms of a shift or rotate, in the order of R190. -/
def shiftForms (b : Byte) (w : Addr) : List Dst := [.acc, .mem (.zp b), .mem (.zpx b), .mem (.abs w), .mem (.abx w)]

end Sys2Proof
end

