-- ==== Sys2Proof/Certificates/Slice0/Obligations.lean ====
section
/-! DEFINITION. The statements for the provers. Names in `Safety.lean`: `tableRow` is what the opcode table says of an
instruction (opcode byte, length, base cycles); `MovedOn n c s t` says PC moved on n bytes and c cycles were counted;
`OperandRead`, `Stored`, `Stacked`, `StorageKept` say what happened to every byte of memory. A rule the spec marks
"from general knowledge" is cited as the spec's rule; where a clause rests on a decision the spec marks as its own (D<n> of
92_eei_decisions.md) or on an entry of the assumption log, the docstring says so and the statement is a derived one. -/

open Sys2Proof Sys2Proof.Machine

/-! ### Encoding -/

/-- Decoding the bytes of a well-formed instruction, whatever follows them, gives the instruction back (R110, R111,
R130, R132, R133). The opcode values are the spec's own choice (D1, D2 of 92_eei_decisions.md). -/
def Obligations.DecodeEncodeRoundTrip : Prop :=
  ∀ (i : Instr) (rest : List Byte), WellFormed i → decode (encode i ++ rest) = .ok (i, rest)

/-- Whatever the decoder reads is a well-formed instruction, and encoding it gives the bytes read: each word has one
meaning (R110, R111). The opcode values are the spec's own choice (D1, D2). -/
def Obligations.EncodeDecodeRoundTrip : Prop :=
  ∀ (bytes rest : List Byte) (i : Instr), decode bytes = .ok (i, rest) → WellFormed i ∧ encode i ++ rest = bytes

/-- Decoding is total and context-free (R111): for each opcode byte there are a length and a mnemonic, and whatever the
bytes after it, an instruction of that length and mnemonic is read (R134). -/
def Obligations.DecodingIsTotalAndContextFree : Prop :=
  ∀ op : Byte, ∃ (n : Nat) (name : String), 1 ≤ n ∧ n ≤ 3 ∧ ∀ (b1 b2 : Byte) (rest : List Byte), ∃ i : Instr,
    decode (op :: b1 :: b2 :: rest) = .ok (i, (op :: b1 :: b2 :: rest).drop n) ∧ instrLength i = n ∧ i.mnemonic = name

/-- The halting opcodes are exactly the twelve of R132, the undefined ones exactly the 93 of R133, and the two classes
are disjoint (R247). The twelve values are the spec's own choice (D2). -/
def Obligations.HaltingAndUndefinedClasses : Prop :=
  undOpcodes.length = 93 ∧ undOpcodes.Nodup ∧
  ∀ (op b1 b2 : Byte) (rest rest' : List Byte) (i : Instr), decode (op :: b1 :: b2 :: rest) = .ok (i, rest') →
    ((∃ k, i = .kil k) ↔ op ∈ [0x02#8, 0x12#8, 0x22#8, 0x32#8, 0x42#8, 0x52#8, 0x62#8, 0x72#8, 0x92#8, 0xB2#8, 0xD2#8, 0xF2#8]) ∧
    ((∃ k, i = .und k) ↔ op ∈ undOpcodes) ∧ (∀ k, i = .kil k → k = op) ∧ (∀ k, i = .und k → k = op)

/-- Words written out from the opcode map decode to the instructions they stand for (R130, R143). The opcode values
are the spec's own choice (D1, D2). -/
def Obligations.SpecWordsDecode : Prop :=
  decode [0xA9#8, 0x10#8] = .ok (.lda (.imm 0x10#8), []) ∧
  decode [0xB6#8, 0x10#8] = .ok (.ldx (.mem (.zpy 0x10#8)), []) ∧
  decode [0x8D#8, 0x14#8, 0x40#8] = .ok (.sta (.abs 0x4014#16), []) ∧
  decode [0xBA#8] = .ok (.tsx, []) ∧
  decode [0x71#8, 0x86#8] = .ok (.adc (.mem (.izy 0x86#8)), []) ∧
  decode [0xE1#8, 0x0C#8] = .ok (.sbc (.mem (.izx 0x0C#8)), []) ∧
  decode [0x7E#8, 0xF0#8, 0x02#8] = .ok (.ror (.mem (.abx 0x02F0#16)), []) ∧
  decode [0x6C#8, 0xFF#8, 0x02#8] = .ok (.jmp (.ind 0x02FF#16), []) ∧
  decode [0x20#8, 0x34#8, 0x12#8] = .ok (.jsr 0x1234#16, []) ∧
  decode [0xD0#8, 0xF3#8] = .ok (.bne 0xF3#8, []) ∧
  decode [0x00#8] = .ok (.brk, []) ∧
  decode [0x02#8] = .ok (.kil 0x02#8, []) ∧
  decode [0x1A#8] = .ok (.und 0x1A#8, [])

/-! ### The main path -/

/-- RAM answers at four addresses, with no side effect: what is written at one is read at all, and no other byte changes
(R64). The premise is the canonical form of the memories, which every step keeps. -/
def Obligations.RamMirroring : Prop :=
  ∀ (a b : Addr) (v : Byte) (s : State), MemoriesCanonical s → a.toNat < 0x2000 →
    memRead a s = (s.ram.get (a.toNat % 0x800), s) ∧
    (SameCell b a → memRead b (memWrite a v s) = (v, memWrite a v s)) ∧
    (¬ SameCell b a → readValue b (memWrite a v s) = readValue b s) ∧
    (memWrite a v s).ppu = s.ppu ∧ (memWrite a v s).cart = s.cart

/-- A word is two byte accesses, low byte first, at an address and the next one modulo 65536 (R61, R62). The wrap at
0xFFFF and the order of the two writes are the spec's own choice (D13). -/
def Obligations.WordAccess : Prop :=
  ∀ (a next : Addr) (v : Addr) (s : State), next.toNat = (a.toNat + 1) % 65536 →
    ((memRead16 a s).1.toNat = (memRead next (memRead a s).2).1.toNat * 256 + (memRead a s).1.toNat) ∧
    (memRead16 a s).2 = (memRead next (memRead a s).2).2 ∧
    memWrite16 a v s = memWrite next (BitVec.ofNat 8 (v.toNat / 256)) (memWrite a (BitVec.ofNat 8 v.toNat) s)

/-- The audio and I/O stub, the unmapped range and the cartridge below 0x8000 read 0x00; a write to them or to program
ROM does nothing, but for the OAM transfer trigger (R66, R68, R72, R73); program ROM shows through the fixed mapping,
one page in both halves, or the first two pages (R71). The 0x00 of the stub, the ignored write and the pages beyond
two are the spec's own choices (D18, D20, D23). -/
def Obligations.OutsideRamAndRegisters : Prop :=
  (∀ (a : Addr) (v : Byte) (s : State), 0x4000 ≤ a.toNat →
    (a.toNat < 0x8000 → memRead a s = (0x00#8, s)) ∧ (a ≠ 0x4014#16 → memWrite a v s = s)) ∧
  (∀ (a : Addr) (s : State), s.cart.supported = true →
    (0x8000 ≤ a.toNat → s.cart.prgPages = 1 → memRead a s = (s.cart.prgRom.get (a.toNat % 0x4000), s)) ∧
    (0x8000 ≤ a.toNat → 2 ≤ s.cart.prgPages → memRead a s = (s.cart.prgRom.get (a.toNat % 0x8000), s)) ∧
    (a.toNat < 0x8000 → s.cart.mapper.map s.cart.prgPages a = 0))

/-- A read changes the state only at a status or a data register address (R87, R92, R355). Which register stands at
which address is the spec's own choice (D24). -/
def Obligations.ReadsWithSideEffects : Prop :=
  ∀ (a : Addr) (s : State), (memRead a s).2 ≠ s → InWindow a ∧ (a.toNat % 8 = 2 ∨ a.toNat % 8 = 7)

/-! ### The video path -/

/-- The nametables under each mirroring mode, and their mirror (R82, R83). The meaning of the mirroring bits is the
spec's own choice (D36). -/
def Obligations.NametableMirroring : Prop :=
  ∀ (s : State) (table off : Nat) (v : Byte), table < 4 → off < 1024 →
    ∀ k, k = (if s.cart.fourScreen then table else if s.cart.mirroring then table % 2 else table / 2) * 1024 + off →
      vidRead s (0x2000 + table * 1024 + off) = s.ppu.ntRam.get k ∧
      vidWrite (0x2000 + table * 1024 + off) v s = s.setPpu { s.ppu with ntRam := s.ppu.ntRam.put k v } ∧
      (table * 1024 + off < 0xF00 →
        vidRead s (0x3000 + table * 1024 + off) = s.ppu.ntRam.get k ∧
        vidWrite (0x3000 + table * 1024 + off) v s = s.setPpu { s.ppu with ntRam := s.ppu.ntRam.put k v })

/-- The palette is mirrored every 32 bytes, and its cells 0x10, 0x14, 0x18, 0x1C are the cells 0x00, 0x04, 0x08, 0x0C
(R84, R85). -/
def Obligations.PaletteAliasing : Prop :=
  ∀ (s : State) (a : Nat) (v : Byte), 0x3F00 ≤ a → a ≤ 0x3FFF →
    ∀ k, k = (if a % 32 ∈ [0x10, 0x14, 0x18, 0x1C] then a % 32 - 0x10 else a % 32) →
      vidRead s a = s.ppu.palRam.get k ∧ vidWrite a v s = s.setPpu { s.ppu with palRam := s.ppu.palRam.put k v }

/-- Character memory passes through the fixed mapping and is written only if it is RAM; a video address is reduced to
14 bits (R80, R81, R86). The reduction to 14 bits and what shows of several pages are the spec's own choices (D37,
D47). -/
def Obligations.CharacterMemory : Prop :=
  ∀ (s : State) (a : Nat) (v : Byte),
    (a < 0x2000 → vidRead s a = s.cart.chrMem.get a) ∧
    (a < 0x2000 → s.cart.chrPages = 0 →
      vidWrite a v s = { s with cart := { s.cart with chrMem := s.cart.chrMem.put a v } }) ∧
    (a < 0x2000 → s.cart.chrPages ≠ 0 → vidWrite a v s = s) ∧
    vidRead s a = vidRead s (a % 0x4000) ∧ vidWrite a v s = vidWrite (a % 0x4000) v s

/-! ### The picture unit's registers -/

/-- Control, mask and OAM address are written; a status write is ignored; the write-only registers read 0x00 with no
side effect (R261, R262, R264, R265, R272). A status read answers the vblank flag in bit 7 and zeros, and clears the
flag and the write toggle (R263). A write of the OAM data register stores at the OAM address, which moves on modulo
256; a read does not move it (R266, R267). The register order, the ignored status write, the 0x00 of a write-only
register and the OAM data register's increment are the spec's own choices (D24, D26, D28). -/
def Obligations.RegisterAccess : Prop :=
  (∀ (a : Addr) (v : Byte) (s : State), InWindow a →
    (a.toNat % 8 = 0 → memWrite a v s = { s with ppu := { s.ppu with ctrl := v } }) ∧
    (a.toNat % 8 = 1 → memWrite a v s = { s with ppu := { s.ppu with mask := v } }) ∧
    (a.toNat % 8 = 2 → memWrite a v s = s) ∧
    (a.toNat % 8 = 3 → memWrite a v s = { s with ppu := { s.ppu with oamAddr := v } }) ∧
    (a.toNat % 8 ∈ [0, 1, 3, 5, 6] → memRead a s = (0x00#8, s))) ∧
  (∀ (a : Addr) (s : State), InWindow a → a.toNat % 8 = 2 →
    (memRead a s).1.toNat = s.ppu.vblank.toNat * 128 ∧
    (memRead a s).2 = { s with ppu := { s.ppu with vblank := false, w := false } }) ∧
  (∀ (a : Addr) (v : Byte) (s : State), InWindow a → a.toNat % 8 = 4 →
    memRead a s = (s.ppu.oam.get s.ppu.oamAddr.toNat, s) ∧
    ∃ t, memWrite a v s = t ∧ t.ppu.oamAddr.toNat = (s.ppu.oamAddr.toNat + 1) % 256 ∧
      t = { s with ppu := { s.ppu with oam := s.ppu.oam.put s.ppu.oamAddr.toNat v, oamAddr := t.ppu.oamAddr } })

/-- The scroll and address registers share the write toggle: a first write is X or the high byte, a second one Y or
the low byte, and neither register touches the other's value (R268, R269). That nothing but the toggle is shared is
the spec's own choice (D48). -/
def Obligations.SharedWriteToggle : Prop :=
  ∀ (a : Addr) (v : Byte) (s : State), InWindow a →
    (a.toNat % 8 = 5 → s.ppu.w = false → memWrite a v s = { s with ppu := { s.ppu with scrollX := v, w := true } }) ∧
    (a.toNat % 8 = 5 → s.ppu.w = true → memWrite a v s = { s with ppu := { s.ppu with scrollY := v, w := false } }) ∧
    (a.toNat % 8 = 6 → ∃ va : Addr, memWrite a v s = { s with ppu := { s.ppu with vramAddr := va, w := !s.ppu.w } } ∧
      (s.ppu.w = false → va.toNat = v.toNat * 256 + s.ppu.vramAddr.toNat % 256) ∧
      (s.ppu.w = true → va.toNat = s.ppu.vramAddr.toNat / 256 * 256 + v.toNat))

/-- The data register reads or writes the cell at the VRAM address, which then moves on by 1 or 32 modulo 65536 (R270,
R271, R273). That a read is not buffered is the spec's own choice (D27). -/
def Obligations.DataPort : Prop :=
  ∀ (a : Addr) (v : Byte) (s : State), InWindow a → a.toNat % 8 = 7 →
    ∃ va : Addr, va.toNat = (s.ppu.vramAddr.toNat + if s.ppu.ctrl.getLsbD 2 then 32 else 1) % 65536 ∧
      memRead a s = (vidRead s (s.ppu.vramAddr.toNat % 0x4000), { s with ppu := { s.ppu with vramAddr := va } }) ∧
      ∀ t, t = vidWrite (s.ppu.vramAddr.toNat % 0x4000) v s →
        memWrite a v s = { t with ppu := { t.ppu with vramAddr := va } }

/-- The bulk OAM transfer: 256 main-path reads of page v in ascending order, each with its side effect, each stored at
the next OAM cell, the OAM address unchanged; from a page outside the register window, every OAM cell is the byte that
was there before, and nothing else changes (R283). The trigger's address and the whole of its effect are the spec's
own choice (D19). -/
def Obligations.OamTransfer : Prop :=
  ∀ (v : Byte) (s : State), MemoriesCanonical s →
    (∃ at' : Nat → State, at' 0 = s ∧ at' 256 = memWrite 0x4014#16 v s ∧
      ∀ i < 256, ∃ src : Addr, src.toNat = v.toNat * 256 + i ∧
        at' (i + 1) = (memRead src (at' i)).2.setPpu { (memRead src (at' i)).2.ppu with
          oam := (memRead src (at' i)).2.ppu.oam.put ((s.ppu.oamAddr.toNat + i) % 256) (memRead src (at' i)).1 }) ∧
    ((v.toNat < 0x20 ∨ 0x3F < v.toNat) →
      (∀ (src : Addr) (i : Nat), i < 256 → src.toNat = v.toNat * 256 + i →
        (memWrite 0x4014#16 v s).ppu.oam.get ((s.ppu.oamAddr.toNat + i) % 256) = readValue src s) ∧
      memWrite 0x4014#16 v s = { s with ppu := { s.ppu with oam := (memWrite 0x4014#16 v s).ppu.oam } })

/-! ### The picture unit's frame -/

/-- Over the ticks of a frame, from (-1, 0): the vblank flag is set by tick 82523, entering (241, 1), and cleared by
tick 89342, entering (-1, 0) again; the NMI request is made at the same tick as the set, if control bit 7 is 1 (R253,
R254, R255). A frame is 89342 ticks: after them the position is the same, one frame later (R252). The order within a
tick, and that only this tick requests an NMI, are the spec's own choices (D29, D30). -/
def Obligations.VblankOverAFrame : Prop :=
  (∀ (s : State) (n : Nat), s.ppu.scanline = -1 → s.ppu.dot = 0 → s.ppu.vblank = false → n ≤ 89342 →
    (advance n s).ppu.vblank = decide (82523 ≤ n ∧ n < 89342) ∧
    (advance n s).nmiPending = (s.nmiPending || (s.ppu.ctrl.getLsbD 7 && decide (82523 ≤ n)))) ∧
  (∀ s : State, PositionLegal s.ppu →
    (advance 89342 s).ppu.scanline = s.ppu.scanline ∧ (advance 89342 s).ppu.dot = s.ppu.dot ∧
    (advance 89342 s).ppu.frame = s.ppu.frame + 1)

/-- Over the ticks of a frame, from (-1, 0), with nothing else happening: the published picture is the old one up to
tick 82521, and from tick 82522, entering (241, 0), every pixel of it is the pixel function of the state (R256, R258).
The tick of publication is the spec's own choice (D32). -/
def Obligations.PictureOverAFrame : Prop :=
  ∀ (s : State) (n : Nat), MemoriesCanonical s → s.ppu.scanline = -1 → s.ppu.dot = 0 → n ≤ 89342 →
    (n < 82522 → (advance n s).ppu.front = s.ppu.front) ∧
    (82522 ≤ n → ∀ x y : Nat, x < 256 → y < 240 → (advance n s).ppu.front.get (pixelKey x y) = pixel s x y)

/-- With background and sprites disabled every pixel is the backdrop colour (R279). The colour table is a parameter
(D35); a colour outside it is log entry 5. -/
def Obligations.RenderingDisabled : Prop :=
  ∀ (s : State) (x y : Nat), s.ppu.mask.getLsbD 3 = false → s.ppu.mask.getLsbD 4 = false →
    pixel s x y = s.config.paletteArgb.getD ((s.ppu.palRam.get 0).toNat % 64) opaqueBlack

/-- What an OAM entry shows at a pixel: an opaque pixel of the row and column its Y byte, X byte and flips give, from the
tile its tile byte, the sprite size and the control register give, with its palette and behind bit. A sprite shows from
the line below its Y byte on: at and above that line it shows nothing, so one with a Y byte of 239 or more shows on no
visible line. The first opaque sprite pixel in OAM order wins, and without one there is no sprite pixel; sprites are
clipped in the left column and shown nowhere when disabled (R276). All but the order is the spec's own choice (D34). -/
def Obligations.SpriteSelection : Prop :=
  (∀ (s : State) (x y i h : Nat) (p : SpritePixel), h = (if s.ppu.ctrl.getLsbD 5 then 16 else 8) →
    (spritePixelOf s x y i = some p ↔
      ∃ (dy dx row bit pa : Nat) (tile attr : Byte),
        y = (s.ppu.oam.get (4 * i)).toNat + 1 + dy ∧ dy < h ∧ x = (s.ppu.oam.get (4 * i + 3)).toNat + dx ∧ dx < 8 ∧
        tile = s.ppu.oam.get (4 * i + 1) ∧ attr = s.ppu.oam.get (4 * i + 2) ∧
        row = (if attr.getLsbD 7 then h - 1 - dy else dy) ∧ bit = (if attr.getLsbD 6 then dx else 7 - dx) ∧
        pa = (if h = 8 then (if s.ppu.ctrl.getLsbD 3 then 0x1000 else 0) + tile.toNat * 16 + row
          else tile.toNat % 2 * 0x1000 + tile.toNat / 2 * 32 + row / 8 * 16 + row % 8) ∧
        p.colour = ((vidRead s (pa + 8)).getLsbD bit).toNat * 2 + ((vidRead s pa).getLsbD bit).toNat ∧ p.colour ≠ 0 ∧
        p.palette = attr.toNat % 4 ∧ p.behind = attr.getLsbD 5)) ∧
  ∀ (s : State) (x y : Nat),
    (∀ i : Nat, y ≤ (s.ppu.oam.get (4 * i)).toNat → spritePixelOf s x y i = none) ∧
    (y < 240 → ∀ i : Nat, 239 ≤ (s.ppu.oam.get (4 * i)).toNat → spritePixelOf s x y i = none) ∧
    (∀ (i : Nat) (p : SpritePixel), i < 64 → spritePixelOf s x y i = some p →
      (∀ j < i, spritePixelOf s x y j = none) → s.ppu.mask.getLsbD 4 = true → (8 ≤ x ∨ s.ppu.mask.getLsbD 2 = true) →
      spritePixel s x y = some p) ∧
    ((∀ i < 64, spritePixelOf s x y i = none) → spritePixel s x y = none) ∧
    (s.ppu.mask.getLsbD 4 = false → spritePixel s x y = none) ∧
    (x < 8 → s.ppu.mask.getLsbD 2 = false → spritePixel s x y = none)

/-- The background of a pixel: with the scroll and the nametable bits added, the pixel is at column cx of one 256 wide
nametable and line cy of one 240 high nametable; the tile byte there names the pattern row, the attribute byte's bit pair
for the quadrant the palette; nothing where disabled or clipped (R275). The composition: the background over the backdrop,
and the sprite pixel over both unless it is behind an opaque background pixel (R277). The pixel is the colour of the low 6
bits of that palette cell (R274, R278). The formats, the plain scroll and the ignored mask bits are the spec's own choices
(D33, D34, D35, D48); a colour outside the table is log entry 5. -/
def Obligations.PixelComposition : Prop :=
  (∀ (s : State) (x y : Nat),
    (s.ppu.mask.getLsbD 3 = false → bgPixel s x y = (0, 0)) ∧
    (x < 8 → s.ppu.mask.getLsbD 1 = false → bgPixel s x y = (0, 0)) ∧
    (s.ppu.mask.getLsbD 3 = true → (8 ≤ x ∨ s.ppu.mask.getLsbD 1 = true) →
      ∀ (k l cx cy nt pa : Nat) (tile attr : Byte),
        x + s.ppu.scrollX.toNat + (s.ppu.ctrl.getLsbD 0).toNat * 256 = k * 256 + cx → cx < 256 →
        y + s.ppu.scrollY.toNat + (s.ppu.ctrl.getLsbD 1).toNat * 240 = l * 240 + cy → cy < 240 →
        nt = 0x2000 + (l % 2 * 2 + k % 2) * 1024 →
        tile = vidRead s (nt + cy / 8 * 32 + cx / 8) → attr = vidRead s (nt + 960 + cy / 32 * 8 + cx / 32) →
        pa = (s.ppu.ctrl.getLsbD 4).toNat * 0x1000 + tile.toNat * 16 + cy % 8 →
        bgPixel s x y =
          (((vidRead s (pa + 8)).getLsbD (7 - cx % 8)).toNat * 2 + ((vidRead s pa).getLsbD (7 - cx % 8)).toNat,
            attr.toNat / 4 ^ (cy / 16 % 2 * 2 + cx / 16 % 2) % 4))) ∧
  ∀ (s : State) (x y bc bp : Nat) (colourOf : Nat → Colour), bgPixel s x y = (bc, bp) →
    colourOf = (fun a => s.config.paletteArgb.getD ((vidRead s a).toNat % 64) opaqueBlack) →
    (spritePixel s x y = none → bc = 0 → pixel s x y = colourOf 0x3F00) ∧
    (spritePixel s x y = none → bc ≠ 0 → pixel s x y = colourOf (0x3F00 + bp * 4 + bc)) ∧
    (∀ p : SpritePixel, spritePixel s x y = some p →
      (p.behind = true → bc ≠ 0 → pixel s x y = colourOf (0x3F00 + bp * 4 + bc)) ∧
      (p.behind = false ∨ bc = 0 → pixel s x y = colourOf (0x3F10 + p.palette * 4 + p.colour)))

/-- A pixel depends on the control and mask registers, the scroll, OAM, the nametable, palette and character memories, the
mirroring parameters and the colour table, and on nothing else; and drawing changes none of these, nor the VRAM address:
ticks change the position, the vblank flag, the frame buffers and the NMI latch alone (R284). -/
def Obligations.PixelPurity : Prop :=
  (∀ (s t : State) (x y : Nat), t.ppu.ctrl = s.ppu.ctrl → t.ppu.mask = s.ppu.mask → t.ppu.scrollX = s.ppu.scrollX →
    t.ppu.scrollY = s.ppu.scrollY → t.ppu.oam = s.ppu.oam → t.ppu.ntRam = s.ppu.ntRam → t.ppu.palRam = s.ppu.palRam →
    t.cart.chrMem = s.cart.chrMem → t.cart.mirroring = s.cart.mirroring → t.cart.fourScreen = s.cart.fourScreen →
    t.config.paletteArgb = s.config.paletteArgb → pixel t x y = pixel s x y) ∧
  ∀ (n : Nat) (s t : State), t = advance n s →
    t = { s with
      nmiPending := t.nmiPending
      ppu := { s.ppu with
        scanline := t.ppu.scanline, dot := t.ppu.dot, frame := t.ppu.frame, vblank := t.ppu.vblank
        back := t.ppu.back, front := t.ppu.front } }

/-! ### Addressing -/

/-- The effective address of each memory mode, and what counts as a page crossing (R117 to R124, R127). The wrap of
the pointer of `(zp),Y` is the spec's own choice (D15). -/
def Obligations.EffectiveAddresses : Prop :=
  ∀ (b : Byte) (w : Addr) (s : State),
    (effAddr (.zp b) s).toNat = b.toNat ∧
    (effAddr (.zpx b) s).toNat = (b.toNat + s.x.toNat) % 256 ∧
    (effAddr (.zpy b) s).toNat = (b.toNat + s.y.toNat) % 256 ∧
    effAddr (.abs w) s = w ∧
    (effAddr (.abx w) s).toNat = (w.toNat + s.x.toNat) % 65536 ∧
    (effAddr (.aby w) s).toNat = (w.toNat + s.y.toNat) % 65536 ∧
    (effAddr (.izx b) s).toNat = (s.ram.get ((b.toNat + s.x.toNat + 1) % 256)).toNat * 256 +
      (s.ram.get ((b.toNat + s.x.toNat) % 256)).toNat ∧
    (effAddr (.izy b) s).toNat = ((s.ram.get ((b.toNat + 1) % 256)).toNat * 256 + (s.ram.get b.toNat).toNat +
      s.y.toNat) % 65536 ∧
    (crossingPenalty (.mem (.abx w)) s = if (effAddr (.abx w) s).toNat / 256 ≠ w.toNat / 256 then 1 else 0) ∧
    (crossingPenalty (.mem (.aby w)) s = if (effAddr (.aby w) s).toNat / 256 ≠ w.toNat / 256 then 1 else 0) ∧
    (crossingPenalty (.mem (.izy b)) s =
      if (effAddr (.izy b) s).toNat / 256 ≠ (s.ram.get ((b.toNat + 1) % 256)).toNat then 1 else 0) ∧
    (∀ m : Mem, m.mode ∈ [.zp, .zpx, .zpy, .abs, .izx] → crossingPenalty (.mem m) s = 0) ∧
    crossingPenalty (.imm b) s = 0

/-! ### Loads, stores, transfers -/

/-- LDA, LDX, LDY: the register takes the operand, Zero and Negative follow it, nothing else changes but PC, the cycles
and the operand's read effect (R151, R152, R153). -/
def Obligations.Loads : Prop :=
  (∀ (b : Byte) (w : Addr),
    (accumulatorForms b w).map (fun o => tableRow (.lda o)) = [(some 0xA9#8, 2, 2), (some 0xA5#8, 2, 3),
      (some 0xB5#8, 2, 4), (some 0xAD#8, 3, 4), (some 0xBD#8, 3, 4), (some 0xB9#8, 3, 4), (some 0xA1#8, 2, 6),
      (some 0xB1#8, 2, 5)] ∧
    [.imm b, .mem (.zp b), .mem (.zpy b), .mem (.abs w), .mem (.aby w)].map (fun o => tableRow (.ldx o)) =
      [(some 0xA2#8, 2, 2), (some 0xA6#8, 2, 3), (some 0xB6#8, 2, 4), (some 0xAE#8, 3, 4), (some 0xBE#8, 3, 4)] ∧
    [.imm b, .mem (.zp b), .mem (.zpx b), .mem (.abs w), .mem (.abx w)].map (fun o => tableRow (.ldy o)) =
      [(some 0xA0#8, 2, 2), (some 0xA4#8, 2, 3), (some 0xB4#8, 2, 4), (some 0xAC#8, 3, 4), (some 0xBC#8, 3, 4)]) ∧
  ∀ (o : Src) (s : State),
    (∃ t, exec (.lda o) s = .next t ∧ t.a = srcValue o s ∧ ZNOf t.a t.p ∧ FlagsKeptBut [.zero, .negative] s.p t.p ∧
      t.x = s.x ∧ t.y = s.y ∧ t.sp = s.sp ∧ OperandRead o s t ∧
      MovedOn (Src.length o) (baseCycles (.lda o) + crossingPenalty o s) s t) ∧
    (∃ t, exec (.ldx o) s = .next t ∧ t.x = srcValue o s ∧ ZNOf t.x t.p ∧ FlagsKeptBut [.zero, .negative] s.p t.p ∧
      t.a = s.a ∧ t.y = s.y ∧ t.sp = s.sp ∧ OperandRead o s t ∧
      MovedOn (Src.length o) (baseCycles (.ldx o) + crossingPenalty o s) s t) ∧
    (∃ t, exec (.ldy o) s = .next t ∧ t.y = srcValue o s ∧ ZNOf t.y t.p ∧ FlagsKeptBut [.zero, .negative] s.p t.p ∧
      t.a = s.a ∧ t.x = s.x ∧ t.sp = s.sp ∧ OperandRead o s t ∧
      MovedOn (Src.length o) (baseCycles (.ldy o) + crossingPenalty o s) s t)

/-- STA, STX, STY: the register is stored at the effective address, which is not read; no flag and no register changes;
a store to the OAM transfer trigger counts the transfer's cycles too (R154, R155, R156). -/
def Obligations.Stores : Prop :=
  (∀ (b : Byte) (w : Addr),
    [.zp b, .zpx b, .abs w, .abx w, .aby w, .izx b, .izy b].map (fun m => tableRow (.sta m)) =
      [(some 0x85#8, 2, 3), (some 0x95#8, 2, 4), (some 0x8D#8, 3, 4), (some 0x9D#8, 3, 5), (some 0x99#8, 3, 5),
       (some 0x81#8, 2, 6), (some 0x91#8, 2, 6)] ∧
    [.zp b, .zpy b, .abs w].map (fun m => tableRow (.stx m)) =
      [(some 0x86#8, 2, 3), (some 0x96#8, 2, 4), (some 0x8E#8, 3, 4)] ∧
    [.zp b, .zpx b, .abs w].map (fun m => tableRow (.sty m)) =
      [(some 0x84#8, 2, 3), (some 0x94#8, 2, 4), (some 0x8C#8, 3, 4)]) ∧
  ∀ (m : Mem) (s : State) (extra : Nat), extra = (if effAddr m s = 0x4014#16 then s.config.oamDmaCycles else 0) →
    (∃ t, exec (.sta m) s = .next t ∧ Stored (effAddr m s) s.a s s t ∧ DataRegistersKept s t ∧ t.p = s.p ∧
      MovedOn (Mem.length m) (baseCycles (.sta m) + extra) s t) ∧
    (∃ t, exec (.stx m) s = .next t ∧ Stored (effAddr m s) s.x s s t ∧ DataRegistersKept s t ∧ t.p = s.p ∧
      MovedOn (Mem.length m) (baseCycles (.stx m) + extra) s t) ∧
    (∃ t, exec (.sty m) s = .next t ∧ Stored (effAddr m s) s.y s s t ∧ DataRegistersKept s t ∧ t.p = s.p ∧
      MovedOn (Mem.length m) (baseCycles (.sty m) + extra) s t)

/-- The register transfers and INX, INY, DEX, DEY: one byte, two cycles; all but TXS set Zero and Negative (R157 to R162,
R183 to R186). -/
def Obligations.TransfersAndRegisterSteps : Prop :=
  ([tableRow .tax, tableRow .tay, tableRow .txa, tableRow .tya, tableRow .tsx, tableRow .txs] =
    [(some 0xAA#8, 1, 2), (some 0xA8#8, 1, 2), (some 0x8A#8, 1, 2), (some 0x98#8, 1, 2), (some 0xBA#8, 1, 2),
     (some 0x9A#8, 1, 2)] ∧
  ∀ s : State,
    (∃ t, exec .tax s = .next t ∧ t.x = s.a ∧ ZNOf t.x t.p ∧ FlagsKeptBut [.zero, .negative] s.p t.p ∧
      t.a = s.a ∧ t.y = s.y ∧ t.sp = s.sp ∧ StorageKept s t ∧ MovedOn 1 2 s t) ∧
    (∃ t, exec .tay s = .next t ∧ t.y = s.a ∧ ZNOf t.y t.p ∧ FlagsKeptBut [.zero, .negative] s.p t.p ∧
      t.a = s.a ∧ t.x = s.x ∧ t.sp = s.sp ∧ StorageKept s t ∧ MovedOn 1 2 s t) ∧
    (∃ t, exec .txa s = .next t ∧ t.a = s.x ∧ ZNOf t.a t.p ∧ FlagsKeptBut [.zero, .negative] s.p t.p ∧
      t.x = s.x ∧ t.y = s.y ∧ t.sp = s.sp ∧ StorageKept s t ∧ MovedOn 1 2 s t) ∧
    (∃ t, exec .tya s = .next t ∧ t.a = s.y ∧ ZNOf t.a t.p ∧ FlagsKeptBut [.zero, .negative] s.p t.p ∧
      t.x = s.x ∧ t.y = s.y ∧ t.sp = s.sp ∧ StorageKept s t ∧ MovedOn 1 2 s t) ∧
    (∃ t, exec .tsx s = .next t ∧ t.x = s.sp ∧ ZNOf t.x t.p ∧ FlagsKeptBut [.zero, .negative] s.p t.p ∧
      t.a = s.a ∧ t.y = s.y ∧ t.sp = s.sp ∧ StorageKept s t ∧ MovedOn 1 2 s t) ∧
    (∃ t, exec .txs s = .next t ∧ t.sp = s.x ∧ t.p = s.p ∧
      t.a = s.a ∧ t.x = s.x ∧ t.y = s.y ∧ StorageKept s t ∧ MovedOn 1 2 s t)) ∧
  ([tableRow .inx, tableRow .iny, tableRow .dex, tableRow .dey] =
    [(some 0xE8#8, 1, 2), (some 0xC8#8, 1, 2), (some 0xCA#8, 1, 2), (some 0x88#8, 1, 2)] ∧
  ∀ s : State,
    (∃ t, exec .inx s = .next t ∧ t.x.toNat = (s.x.toNat + 1) % 256 ∧ ZNOf t.x t.p ∧
      FlagsKeptBut [.zero, .negative] s.p t.p ∧ t.a = s.a ∧ t.y = s.y ∧ t.sp = s.sp ∧ StorageKept s t ∧ MovedOn 1 2 s t) ∧
    (∃ t, exec .iny s = .next t ∧ t.y.toNat = (s.y.toNat + 1) % 256 ∧ ZNOf t.y t.p ∧
      FlagsKeptBut [.zero, .negative] s.p t.p ∧ t.a = s.a ∧ t.x = s.x ∧ t.sp = s.sp ∧ StorageKept s t ∧ MovedOn 1 2 s t) ∧
    (∃ t, exec .dex s = .next t ∧ t.x.toNat = (s.x.toNat + 255) % 256 ∧ ZNOf t.x t.p ∧
      FlagsKeptBut [.zero, .negative] s.p t.p ∧ t.a = s.a ∧ t.y = s.y ∧ t.sp = s.sp ∧ StorageKept s t ∧ MovedOn 1 2 s t) ∧
    (∃ t, exec .dey s = .next t ∧ t.y.toNat = (s.y.toNat + 255) % 256 ∧ ZNOf t.y t.p ∧
      FlagsKeptBut [.zero, .negative] s.p t.p ∧ t.a = s.a ∧ t.x = s.x ∧ t.sp = s.sp ∧ StorageKept s t ∧ MovedOn 1 2 s t))

/-! ### Logic and arithmetic -/

/-- ORA, AND, EOR (R171, R172, R174). -/
def Obligations.Logical : Prop :=
  (∀ (b : Byte) (w : Addr),
    (accumulatorForms b w).map (fun o => tableRow (.ora o)) = [(some 0x09#8, 2, 2), (some 0x05#8, 2, 3),
      (some 0x15#8, 2, 4), (some 0x0D#8, 3, 4), (some 0x1D#8, 3, 4), (some 0x19#8, 3, 4), (some 0x01#8, 2, 6),
      (some 0x11#8, 2, 5)] ∧
    (accumulatorForms b w).map (fun o => tableRow (.and o)) = [(some 0x29#8, 2, 2), (some 0x25#8, 2, 3),
      (some 0x35#8, 2, 4), (some 0x2D#8, 3, 4), (some 0x3D#8, 3, 4), (some 0x39#8, 3, 4), (some 0x21#8, 2, 6),
      (some 0x31#8, 2, 5)] ∧
    (accumulatorForms b w).map (fun o => tableRow (.eor o)) = [(some 0x49#8, 2, 2), (some 0x45#8, 2, 3),
      (some 0x55#8, 2, 4), (some 0x4D#8, 3, 4), (some 0x5D#8, 3, 4), (some 0x59#8, 3, 4), (some 0x41#8, 2, 6),
      (some 0x51#8, 2, 5)]) ∧
  ∀ (o : Src) (s : State),
    (∃ t, exec (.ora o) s = .next t ∧ t.a = s.a ||| srcValue o s ∧ ZNOf t.a t.p ∧
      FlagsKeptBut [.zero, .negative] s.p t.p ∧ t.x = s.x ∧ t.y = s.y ∧ t.sp = s.sp ∧ OperandRead o s t ∧
      MovedOn (Src.length o) (baseCycles (.ora o) + crossingPenalty o s) s t) ∧
    (∃ t, exec (.and o) s = .next t ∧ t.a = s.a &&& srcValue o s ∧ ZNOf t.a t.p ∧
      FlagsKeptBut [.zero, .negative] s.p t.p ∧ t.x = s.x ∧ t.y = s.y ∧ t.sp = s.sp ∧ OperandRead o s t ∧
      MovedOn (Src.length o) (baseCycles (.and o) + crossingPenalty o s) s t) ∧
    (∃ t, exec (.eor o) s = .next t ∧ t.a = s.a ^^^ srcValue o s ∧ ZNOf t.a t.p ∧
      FlagsKeptBut [.zero, .negative] s.p t.p ∧ t.x = s.x ∧ t.y = s.y ∧ t.sp = s.sp ∧ OperandRead o s t ∧
      MovedOn (Src.length o) (baseCycles (.eor o) + crossingPenalty o s) s t)

/-- ADC: the sum with the carry modulo 256, Carry for a sum above 255, Overflow by the sign formula (R175); the Decimal
flag plays no part (R173). -/
def Obligations.AddWithCarry : Prop :=
  (∀ (b : Byte) (w : Addr),
    (accumulatorForms b w).map (fun o => tableRow (.adc o)) = [(some 0x69#8, 2, 2), (some 0x65#8, 2, 3),
      (some 0x75#8, 2, 4), (some 0x6D#8, 3, 4), (some 0x7D#8, 3, 4), (some 0x79#8, 3, 4), (some 0x61#8, 2, 6),
      (some 0x71#8, 2, 5)]) ∧
  ∀ (o : Src) (s : State) (sum : Nat), sum = s.a.toNat + (srcValue o s).toNat + (getFlag .carry s.p).toNat →
    ∃ t, exec (.adc o) s = .next t ∧ t.a.toNat = sum % 256 ∧ getFlag .carry t.p = decide (255 < sum) ∧
      getFlag .overflow t.p = ((~~~(s.a ^^^ srcValue o s)) &&& (s.a ^^^ t.a)).getLsbD 7 ∧ ZNOf t.a t.p ∧
      FlagsKeptBut [.carry, .overflow, .zero, .negative] s.p t.p ∧ t.x = s.x ∧ t.y = s.y ∧ t.sp = s.sp ∧
      OperandRead o s t ∧ MovedOn (Src.length o) (baseCycles (.adc o) + crossingPenalty o s) s t

/-- SBC: the difference with the borrow modulo 256, Carry for no borrow, Overflow by the sign formula (R176); the Decimal
flag plays no part (R173). -/
def Obligations.SubtractWithBorrow : Prop :=
  (∀ (b : Byte) (w : Addr),
    (accumulatorForms b w).map (fun o => tableRow (.sbc o)) = [(some 0xE9#8, 2, 2), (some 0xE5#8, 2, 3),
      (some 0xF5#8, 2, 4), (some 0xED#8, 3, 4), (some 0xFD#8, 3, 4), (some 0xF9#8, 3, 4), (some 0xE1#8, 2, 6),
      (some 0xF1#8, 2, 5)]) ∧
  ∀ (o : Src) (s : State) (borrow : Nat), borrow = 1 - (getFlag .carry s.p).toNat →
    ∃ t, exec (.sbc o) s = .next t ∧ t.a.toNat = (s.a.toNat + 256 - (srcValue o s).toNat - borrow) % 256 ∧
      getFlag .carry t.p = decide ((srcValue o s).toNat + borrow ≤ s.a.toNat) ∧
      getFlag .overflow t.p = ((s.a ^^^ srcValue o s) &&& (s.a ^^^ t.a)).getLsbD 7 ∧ ZNOf t.a t.p ∧
      FlagsKeptBut [.carry, .overflow, .zero, .negative] s.p t.p ∧ t.x = s.x ∧ t.y = s.y ∧ t.sp = s.sp ∧
      OperandRead o s t ∧ MovedOn (Src.length o) (baseCycles (.sbc o) + crossingPenalty o s) s t

/-- Overflow after an addition or a subtraction says that the true signed result is outside -128 to 127 (R187). It is
the reading R187 gives the V flag, and rests on the formulas of R175 and R176. -/
def Obligations.OverflowIsSigned : Prop :=
  ∀ (a m p : Byte) (c : Int), c = (getFlag .carry p).toNat →
    (getFlag .overflow (addWithCarry a m p).2 = true ↔
      a.toInt + m.toInt + c < -128 ∨ 127 < a.toInt + m.toInt + c) ∧
    (getFlag .overflow (subWithBorrow a m p).2 = true ↔
      a.toInt - m.toInt - (1 - c) < -128 ∨ 127 < a.toInt - m.toInt - (1 - c))

/-- CMP, CPX, CPY: Carry for an unsigned register at least the operand, Zero and Negative from the difference, no register
changed (R177, R178, R179). BIT: Zero from A and the operand, Negative and Overflow from the operand's bits 7 and 6
(R180). -/
def Obligations.ComparesAndBitTest : Prop :=
  ((∀ (b : Byte) (w : Addr),
    (accumulatorForms b w).map (fun o => tableRow (.cmp o)) = [(some 0xC9#8, 2, 2), (some 0xC5#8, 2, 3),
      (some 0xD5#8, 2, 4), (some 0xCD#8, 3, 4), (some 0xDD#8, 3, 4), (some 0xD9#8, 3, 4), (some 0xC1#8, 2, 6),
      (some 0xD1#8, 2, 5)] ∧
    [.imm b, .mem (.zp b), .mem (.abs w)].map (fun o => tableRow (.cpx o)) =
      [(some 0xE0#8, 2, 2), (some 0xE4#8, 2, 3), (some 0xEC#8, 3, 4)] ∧
    [.imm b, .mem (.zp b), .mem (.abs w)].map (fun o => tableRow (.cpy o)) =
      [(some 0xC0#8, 2, 2), (some 0xC4#8, 2, 3), (some 0xCC#8, 3, 4)]) ∧
  ∀ (o : Src) (s : State),
    (∃ t, exec (.cmp o) s = .next t ∧ getFlag .carry t.p = decide ((srcValue o s).toNat ≤ s.a.toNat) ∧
      ZNOf (s.a - srcValue o s) t.p ∧ FlagsKeptBut [.carry, .zero, .negative] s.p t.p ∧ DataRegistersKept s t ∧
      OperandRead o s t ∧ MovedOn (Src.length o) (baseCycles (.cmp o) + crossingPenalty o s) s t) ∧
    (∃ t, exec (.cpx o) s = .next t ∧ getFlag .carry t.p = decide ((srcValue o s).toNat ≤ s.x.toNat) ∧
      ZNOf (s.x - srcValue o s) t.p ∧ FlagsKeptBut [.carry, .zero, .negative] s.p t.p ∧ DataRegistersKept s t ∧
      OperandRead o s t ∧ MovedOn (Src.length o) (baseCycles (.cpx o) + crossingPenalty o s) s t) ∧
    (∃ t, exec (.cpy o) s = .next t ∧ getFlag .carry t.p = decide ((srcValue o s).toNat ≤ s.y.toNat) ∧
      ZNOf (s.y - srcValue o s) t.p ∧ FlagsKeptBut [.carry, .zero, .negative] s.p t.p ∧ DataRegistersKept s t ∧
      OperandRead o s t ∧ MovedOn (Src.length o) (baseCycles (.cpy o) + crossingPenalty o s) s t)) ∧
  ((∀ (b : Byte) (w : Addr), [.zp b, .abs w].map (fun m => tableRow (.bit m)) = [(some 0x24#8, 2, 3), (some 0x2C#8, 3, 4)]) ∧
  ∀ (m : Mem) (s : State) (v : Byte), v = srcValue (.mem m) s →
    ∃ t, exec (.bit m) s = .next t ∧ getFlag .zero t.p = decide (s.a &&& v = 0x00#8) ∧
      getFlag .negative t.p = v.getLsbD 7 ∧ getFlag .overflow t.p = v.getLsbD 6 ∧
      FlagsKeptBut [.zero, .negative, .overflow] s.p t.p ∧ DataRegistersKept s t ∧ OperandRead (.mem m) s t ∧
      MovedOn (Mem.length m) (baseCycles (.bit m) + crossingPenalty (.mem m) s) s t)

/-- INC and DEC: one read and one write of the effective address, the new byte, its Zero and Negative (R181, R182). That a
write back to 0x4014 starts the OAM transfer and counts its cycles too is R283, the spec's own choice (D19; log entry 14). -/
def Obligations.IncrementMemory : Prop :=
  (∀ (b : Byte) (w : Addr),
    (modifyForms b w).map (fun m => tableRow (.inc m)) =
      [(some 0xE6#8, 2, 5), (some 0xF6#8, 2, 6), (some 0xEE#8, 3, 6), (some 0xFE#8, 3, 7)] ∧
    (modifyForms b w).map (fun m => tableRow (.dec m)) =
      [(some 0xC6#8, 2, 5), (some 0xD6#8, 2, 6), (some 0xCE#8, 3, 6), (some 0xDE#8, 3, 7)]) ∧
  ∀ (m : Mem) (s : State) (ea : Addr) (extra : Nat), ea = effAddr m s →
    extra = (if ea = 0x4014#16 then s.config.oamDmaCycles else 0) →
    (∃ (r : Byte) (t : State), exec (.inc m) s = .next t ∧ r.toNat = ((readValue ea s).toNat + 1) % 256 ∧
      Stored ea r (readEffect ea s) s t ∧ ZNOf r t.p ∧ FlagsKeptBut [.zero, .negative] s.p t.p ∧
      DataRegistersKept s t ∧ MovedOn (Mem.length m) (baseCycles (.inc m) + extra) s t) ∧
    (∃ (r : Byte) (t : State), exec (.dec m) s = .next t ∧ r.toNat = ((readValue ea s).toNat + 255) % 256 ∧
      Stored ea r (readEffect ea s) s t ∧ ZNOf r t.p ∧ FlagsKeptBut [.zero, .negative] s.p t.p ∧
      DataRegistersKept s t ∧ MovedOn (Mem.length m) (baseCycles (.dec m) + extra) s t)

/-! ### Shifts and rotates -/

/-- ASL, LSR, ROL, ROR: the result, the evicted bit in Carry, Zero and Negative; on memory, one read and one write of the
effective address (R190 to R194). That a write back to 0x4014 starts the OAM transfer and counts its cycles too is R283,
the spec's own choice (D19; log entry 14). -/
def Obligations.ShiftsAndRotates : Prop :=
  ([tableRow (.asl .acc), tableRow (.lsr .acc), tableRow (.rol .acc), tableRow (.ror .acc)] =
    [(some 0x0A#8, 1, 2), (some 0x4A#8, 1, 2), (some 0x2A#8, 1, 2), (some 0x6A#8, 1, 2)] ∧
  ∀ (s : State) (c : Nat), c = (getFlag .carry s.p).toNat →
    (∃ t, exec (.asl .acc) s = .next t ∧ t.a.toNat = s.a.toNat * 2 % 256 ∧ getFlag .carry t.p = s.a.getLsbD 7 ∧
      ZNOf t.a t.p ∧ FlagsKeptBut [.carry, .zero, .negative] s.p t.p ∧ t.x = s.x ∧ t.y = s.y ∧ t.sp = s.sp ∧
      StorageKept s t ∧ MovedOn 1 2 s t) ∧
    (∃ t, exec (.lsr .acc) s = .next t ∧ t.a.toNat = s.a.toNat / 2 ∧ getFlag .carry t.p = s.a.getLsbD 0 ∧
      ZNOf t.a t.p ∧ FlagsKeptBut [.carry, .zero, .negative] s.p t.p ∧ t.x = s.x ∧ t.y = s.y ∧ t.sp = s.sp ∧
      StorageKept s t ∧ MovedOn 1 2 s t) ∧
    (∃ t, exec (.rol .acc) s = .next t ∧ t.a.toNat = (s.a.toNat * 2 + c) % 256 ∧ getFlag .carry t.p = s.a.getLsbD 7 ∧
      ZNOf t.a t.p ∧ FlagsKeptBut [.carry, .zero, .negative] s.p t.p ∧ t.x = s.x ∧ t.y = s.y ∧ t.sp = s.sp ∧
      StorageKept s t ∧ MovedOn 1 2 s t) ∧
    (∃ t, exec (.ror .acc) s = .next t ∧ t.a.toNat = s.a.toNat / 2 + c * 128 ∧ getFlag .carry t.p = s.a.getLsbD 0 ∧
      ZNOf t.a t.p ∧ FlagsKeptBut [.carry, .zero, .negative] s.p t.p ∧ t.x = s.x ∧ t.y = s.y ∧ t.sp = s.sp ∧
      StorageKept s t ∧ MovedOn 1 2 s t)) ∧
  ((∀ (b : Byte) (w : Addr),
    (modifyForms b w).map (fun m => tableRow (.asl (.mem m))) =
      [(some 0x06#8, 2, 5), (some 0x16#8, 2, 6), (some 0x0E#8, 3, 6), (some 0x1E#8, 3, 7)] ∧
    (modifyForms b w).map (fun m => tableRow (.lsr (.mem m))) =
      [(some 0x46#8, 2, 5), (some 0x56#8, 2, 6), (some 0x4E#8, 3, 6), (some 0x5E#8, 3, 7)] ∧
    (modifyForms b w).map (fun m => tableRow (.rol (.mem m))) =
      [(some 0x26#8, 2, 5), (some 0x36#8, 2, 6), (some 0x2E#8, 3, 6), (some 0x3E#8, 3, 7)] ∧
    (modifyForms b w).map (fun m => tableRow (.ror (.mem m))) =
      [(some 0x66#8, 2, 5), (some 0x76#8, 2, 6), (some 0x6E#8, 3, 6), (some 0x7E#8, 3, 7)]) ∧
  ∀ (m : Mem) (s : State) (ea : Addr) (v : Byte) (c extra : Nat), ea = effAddr m s → v = readValue ea s →
    c = (getFlag .carry s.p).toNat → extra = (if ea = 0x4014#16 then s.config.oamDmaCycles else 0) →
    (∃ (r : Byte) (t : State), exec (.asl (.mem m)) s = .next t ∧ r.toNat = v.toNat * 2 % 256 ∧
      getFlag .carry t.p = v.getLsbD 7 ∧ Stored ea r (readEffect ea s) s t ∧ ZNOf r t.p ∧
      FlagsKeptBut [.carry, .zero, .negative] s.p t.p ∧ DataRegistersKept s t ∧
      MovedOn (Mem.length m) (baseCycles (.asl (.mem m)) + extra) s t) ∧
    (∃ (r : Byte) (t : State), exec (.lsr (.mem m)) s = .next t ∧ r.toNat = v.toNat / 2 ∧
      getFlag .carry t.p = v.getLsbD 0 ∧ Stored ea r (readEffect ea s) s t ∧ ZNOf r t.p ∧
      FlagsKeptBut [.carry, .zero, .negative] s.p t.p ∧ DataRegistersKept s t ∧
      MovedOn (Mem.length m) (baseCycles (.lsr (.mem m)) + extra) s t) ∧
    (∃ (r : Byte) (t : State), exec (.rol (.mem m)) s = .next t ∧ r.toNat = (v.toNat * 2 + c) % 256 ∧
      getFlag .carry t.p = v.getLsbD 7 ∧ Stored ea r (readEffect ea s) s t ∧ ZNOf r t.p ∧
      FlagsKeptBut [.carry, .zero, .negative] s.p t.p ∧ DataRegistersKept s t ∧
      MovedOn (Mem.length m) (baseCycles (.rol (.mem m)) + extra) s t) ∧
    (∃ (r : Byte) (t : State), exec (.ror (.mem m)) s = .next t ∧ r.toNat = v.toNat / 2 + c * 128 ∧
      getFlag .carry t.p = v.getLsbD 0 ∧ Stored ea r (readEffect ea s) s t ∧ ZNOf r t.p ∧
      FlagsKeptBut [.carry, .zero, .negative] s.p t.p ∧ DataRegistersKept s t ∧
      MovedOn (Mem.length m) (baseCycles (.ror (.mem m)) + extra) s t))

/-! ### Control transfer -/

/-- JMP: to the address, or to the word the pointer holds, whose high byte comes from the pointer's own page (R126,
R200). The indirect jump and its wrap within the page are the spec's own choice (D14). -/
def Obligations.Jumps : Prop :=
  (∀ w : Addr, tableRow (.jmp (.abs w)) = (some 0x4C#8, 3, 3) ∧ tableRow (.jmp (.ind w)) = (some 0x6C#8, 3, 5)) ∧
  ∀ (w high : Addr) (s : State), high.toNat = w.toNat / 256 * 256 + (w.toNat + 1) % 256 →
    (∃ t, exec (.jmp (.abs w)) s = .next t ∧ t.pc = w ∧ t.cyc = s.cyc + 3 ∧ DataRegistersKept s t ∧ t.p = s.p ∧
      StorageKept s t ∧ HiddenKept s t) ∧
    (∃ t, exec (.jmp (.ind w)) s = .next t ∧
      t.pc.toNat = (memRead high (memRead w s).2).1.toNat * 256 + (memRead w s).1.toNat ∧ t.cyc = s.cyc + 5 ∧
      DataRegistersKept s t ∧ t.p = s.p ∧ t.ppu = (memRead high (memRead w s).2).2.ppu ∧ t.cart = s.cart ∧
      OutsideWindowKept s t ∧ (¬ InWindow w → StorageKept s t) ∧ HiddenKept s t)

/-- JSR pushes the address of its own last byte, high byte first, and jumps; RTS pops a word and goes one byte past it
(R201, R202). -/
def Obligations.SubroutineCalls : Prop :=
  (∀ w : Addr, tableRow (.jsr w) = (some 0x20#8, 3, 6)) ∧ tableRow .rts = (some 0x60#8, 1, 6) ∧
  ∀ (w : Addr) (s : State),
    (∃ (hi lo : Byte) (t : State), exec (.jsr w) s = .next t ∧
      hi.toNat * 256 + lo.toNat = (s.pc.toNat + 2) % 65536 ∧
      Stacked [(stackAddr s.sp, hi), (stackAddr (s.sp - 1#8), lo)] s t ∧ t.sp.toNat = (s.sp.toNat + 254) % 256 ∧
      t.pc = w ∧ t.cyc = s.cyc + 6 ∧ t.a = s.a ∧ t.x = s.x ∧ t.y = s.y ∧ t.p = s.p ∧ HiddenKept s t) ∧
    (∃ t, exec .rts s = .next t ∧
      t.pc.toNat = ((readValue (stackAddr (s.sp + 2#8)) s).toNat * 256 + (readValue (stackAddr (s.sp + 1#8)) s).toNat +
        1) % 65536 ∧ t.sp.toNat = (s.sp.toNat + 2) % 256 ∧ t.cyc = s.cyc + 6 ∧ t.a = s.a ∧ t.x = s.x ∧ t.y = s.y ∧
      t.p = s.p ∧ StorageKept s t ∧ HiddenKept s t)

/-- A return from a subroutine that left the stack pointer and the two bytes of its return address as the call left
them, whatever it left in every other byte of the stack, goes to the instruction after the call (R201, R202). It is the
model's inference from the two rules. -/
def Obligations.CallThenReturn : Prop :=
  ∀ (w : Addr) (s called before : State), MemoriesCanonical s → exec (.jsr w) s = .next called →
    before.sp = called.sp →
    readValue (stackAddr (called.sp + 1#8)) before = readValue (stackAddr (called.sp + 1#8)) called →
    readValue (stackAddr (called.sp + 2#8)) before = readValue (stackAddr (called.sp + 2#8)) called →
    ∃ t, exec .rts before = .next t ∧ t.pc.toNat = (s.pc.toNat + 3) % 65536 ∧ t.sp = s.sp

/-- The eight branches: the flag tested, the target, the cycles of a taken branch and of one to another page (R125,
R203 to R211). The instruction after the branch as the base and the page compared is the spec's own choice (D16). -/
def Obligations.Branches : Prop :=
  (∀ b : Byte, [tableRow (.bpl b), tableRow (.bmi b), tableRow (.bvc b), tableRow (.bvs b), tableRow (.bcc b),
      tableRow (.bcs b), tableRow (.bne b), tableRow (.beq b)] =
    [(some 0x10#8, 2, 2), (some 0x30#8, 2, 2), (some 0x50#8, 2, 2), (some 0x70#8, 2, 2), (some 0x90#8, 2, 2),
     (some 0xB0#8, 2, 2), (some 0xD0#8, 2, 2), (some 0xF0#8, 2, 2)]) ∧
  ∀ (b : Byte) (s : State) (i : Instr) (taken : Bool),
    (i, taken) ∈ [(.bpl b, !getFlag .negative s.p), (.bmi b, getFlag .negative s.p), (.bvc b, !getFlag .overflow s.p),
      (.bvs b, getFlag .overflow s.p), (.bcc b, !getFlag .carry s.p), (.bcs b, getFlag .carry s.p),
      (.bne b, !getFlag .zero s.p), (.beq b, getFlag .zero s.p)] →
    ∃ (next : Addr) (t : State), next.toNat = (s.pc.toNat + 2) % 65536 ∧ exec i s = .next t ∧
      (taken = false → t.pc = next ∧ t.cyc = s.cyc + 2) ∧
      (taken = true → (t.pc.toNat : Int) = (next.toNat + b.toInt) % 65536 ∧
        t.cyc = s.cyc + if t.pc.toNat / 256 = next.toNat / 256 then 3 else 4) ∧
      DataRegistersKept s t ∧ t.p = s.p ∧ StorageKept s t ∧ HiddenKept s t

/-! ### Stack, flags, system -/

/-- The stack primitives: where a push stores and a pop reads, that SP wraps, that a push touches no other byte; and that
popping gives back what was pushed, byte or word, and interleaved as the source's example has it (R220 to R223, R347). -/
def Obligations.StackPrimitives : Prop :=
  ((∀ b : Byte, (stackAddr b).toNat = 0x100 + b.toNat) ∧
  ∀ (v hi lo : Byte) (w : Addr) (s : State), w.toNat = hi.toNat * 256 + lo.toNat →
    Stacked [(stackAddr s.sp, v)] s (push v s) ∧ (push v s).sp.toNat = (s.sp.toNat + 255) % 256 ∧
    pop s = (readValue (stackAddr (s.sp + 1#8)) s, { s with sp := s.sp + 1#8 }) ∧
    Stacked [(stackAddr s.sp, hi), (stackAddr (s.sp - 1#8), lo)] s (push16 w s) ∧
    (push16 w s).sp.toNat = (s.sp.toNat + 254) % 256 ∧
    (pop16 s).1.toNat = (readValue (stackAddr (s.sp + 2#8)) s).toNat * 256 + (readValue (stackAddr (s.sp + 1#8)) s).toNat ∧
    (pop16 s).2 = { s with sp := s.sp + 2#8 }) ∧
  (∀ (v hi lo : Byte) (w : Addr) (s : State), MemoriesCanonical s → w.toNat = hi.toNat * 256 + lo.toNat →
    (pop (push v s)).1 = v ∧ (pop (push v s)).2.sp = s.sp ∧
    (pop16 (push16 w s)).1 = w ∧ (pop16 (push16 w s)).2.sp = s.sp ∧
    (pop16 (push v (push16 w s))).1.toNat = lo.toNat * 256 + v.toNat ∧
    (pop (pop16 (push v (push16 w s))).2).1 = hi ∧ (pop (pop16 (push v (push16 w s))).2).2.sp = s.sp)

/-- PHA, PHP, PLA, PLP (R224 to R227). What PHP pushes and PLP pulls in bits 4 and 5 is the spec's own choice (D5). -/
def Obligations.StackInstructions : Prop :=
  [tableRow .pha, tableRow .php, tableRow .pla, tableRow .plp] =
    [(some 0x48#8, 1, 3), (some 0x08#8, 1, 3), (some 0x68#8, 1, 4), (some 0x28#8, 1, 4)] ∧
  ∀ s : State,
    (∃ t, exec .pha s = .next t ∧ Stacked [(stackAddr s.sp, s.a)] s t ∧ t.sp.toNat = (s.sp.toNat + 255) % 256 ∧
      t.a = s.a ∧ t.x = s.x ∧ t.y = s.y ∧ t.p = s.p ∧ MovedOn 1 3 s t) ∧
    (∃ t, exec .php s = .next t ∧ Stacked [(stackAddr s.sp, s.p ||| 0x30#8)] s t ∧
      t.sp.toNat = (s.sp.toNat + 255) % 256 ∧ t.a = s.a ∧ t.x = s.x ∧ t.y = s.y ∧ t.p = s.p ∧ MovedOn 1 3 s t) ∧
    (∃ t, exec .pla s = .next t ∧ t.a = readValue (stackAddr (s.sp + 1#8)) s ∧ ZNOf t.a t.p ∧
      FlagsKeptBut [.zero, .negative] s.p t.p ∧ t.sp.toNat = (s.sp.toNat + 1) % 256 ∧ t.x = s.x ∧ t.y = s.y ∧
      StorageKept s t ∧ MovedOn 1 4 s t) ∧
    (∃ t, exec .plp s = .next t ∧ t.p = readValue (stackAddr (s.sp + 1#8)) s ||| 0x20#8 ∧
      t.sp.toNat = (s.sp.toNat + 1) % 256 ∧ t.a = s.a ∧ t.x = s.x ∧ t.y = s.y ∧ StorageKept s t ∧ MovedOn 1 4 s t)

/-- The flag instructions change exactly their flag, and NOP nothing (R228, R229, R231, R234, R235, and the operations of
CLI, CLD and SED). -/
def Obligations.FlagInstructions : Prop :=
  [tableRow .clc, tableRow .sec, tableRow .cli, tableRow .sei, tableRow .cld, tableRow .sed, tableRow .clv,
      tableRow .nop] =
    [(some 0x18#8, 1, 2), (some 0x38#8, 1, 2), (some 0x58#8, 1, 2), (some 0x78#8, 1, 2), (some 0xD8#8, 1, 2),
     (some 0xF8#8, 1, 2), (some 0xB8#8, 1, 2), (some 0xEA#8, 1, 2)] ∧
  ∀ (s : State) (i : Instr) (f : Flag) (b : Bool),
    (i, f, b) ∈ [(.clc, .carry, false), (.sec, .carry, true), (.cli, .interruptDisable, false),
      (.sei, .interruptDisable, true), (.cld, .decimal, false), (.sed, .decimal, true), (.clv, .overflow, false),
      (.nop, .carry, getFlag .carry s.p)] →
    ∃ t, exec i s = .next t ∧ getFlag f t.p = b ∧ FlagsKeptBut [f] s.p t.p ∧ DataRegistersKept s t ∧
      StorageKept s t ∧ MovedOn 1 2 s t

/-- BRK: the interrupt sequence with the address two bytes after the opcode's, Break and Unused set in the pushed
status, and the vector at 0xFFFE (R236). The pushed address and the Break bit are the spec's own choices (D5, D7). -/
def Obligations.SoftwareInterrupt : Prop :=
  tableRow .brk = (some 0x00#8, 1, 7) ∧
  ∀ s : State, ∃ (hi lo : Byte) (t : State), exec .brk s = .next t ∧
    hi.toNat * 256 + lo.toNat = (s.pc.toNat + 2) % 65536 ∧
    Stacked [(stackAddr s.sp, hi), (stackAddr (s.sp - 1#8), lo), (stackAddr (s.sp - 2#8), s.p ||| 0x30#8)] s t ∧
    t.sp.toNat = (s.sp.toNat + 253) % 256 ∧ getFlag .interruptDisable t.p = true ∧
    FlagsKeptBut [.interruptDisable] s.p t.p ∧
    t.pc.toNat = (readValue 0xFFFF#16 s).toNat * 256 + (readValue 0xFFFE#16 s).toNat ∧ t.cyc = s.cyc + 7 ∧
    t.a = s.a ∧ t.x = s.x ∧ t.y = s.y ∧ HiddenKept s t

/-- RTI: the status from the stack with Unused set, then PC (R237). -/
def Obligations.ReturnFromInterrupt : Prop :=
  tableRow .rti = (some 0x40#8, 1, 6) ∧
  ∀ s : State, ∃ t, exec .rti s = .next t ∧ t.p = readValue (stackAddr (s.sp + 1#8)) s ||| 0x20#8 ∧
    t.pc.toNat = (readValue (stackAddr (s.sp + 3#8)) s).toNat * 256 + (readValue (stackAddr (s.sp + 2#8)) s).toNat ∧
    t.sp.toNat = (s.sp.toNat + 3) % 256 ∧ t.cyc = s.cyc + 6 ∧ t.a = s.a ∧ t.x = s.x ∧ t.y = s.y ∧ StorageKept s t ∧
    HiddenKept s t

/-- A halting opcode sets the halt flag and changes nothing else: PC stays and no cycle is counted (R245). An
undefined opcode is a one-byte, one-cycle no-op that emits its address and byte (R246). The PC and the cycles of a
halt, and the event, are the spec's own choices (D11, D12); that State holds the events emitted is log entry 3. -/
def Obligations.HaltingAndUndefinedOpcodes : Prop :=
  (∀ (op : Byte) (s : State), exec (.kil op) s = .next { s with halted := true }) ∧
  (∀ (op : Byte) (s : State), ∃ t, exec (.und op) s = .next t ∧ t.pc.toNat = (s.pc.toNat + 1) % 65536 ∧
    t = { s with pc := t.pc, cyc := s.cyc + 1, events := s.events ++ [⟨s.pc, op⟩] })

/-! ### Interrupts -/

/-- The entry of a hardware interrupt: PC and the status, Break clear and Unused set, on the stack; InterruptDisable
set; PC from the vector; 7 cycles; an NMI clears its latch (R308, R309). That the entry is a step of 7 cycles is the
spec's own choice (D8). -/
def Obligations.InterruptEntry : Prop :=
  ∀ (k : InterruptKind) (s : State) (vector : Addr), vector = (match k with | .nmi => 0xFFFA#16 | .irq => 0xFFFE#16) →
    ∃ (hi lo : Byte) (t : State), raiseInterrupt k s = t ∧ hi.toNat * 256 + lo.toNat = s.pc.toNat ∧
      Stacked [(stackAddr s.sp, hi), (stackAddr (s.sp - 1#8), lo),
        (stackAddr (s.sp - 2#8), (s.p &&& 0xEF#8) ||| 0x20#8)] s t ∧
      t.sp.toNat = (s.sp.toNat + 253) % 256 ∧ getFlag .interruptDisable t.p = true ∧
      FlagsKeptBut [.interruptDisable] s.p t.p ∧
      t.pc.toNat = (readValue (vector + 1#16) s).toNat * 256 + (readValue vector s).toNat ∧ t.cyc = s.cyc + 7 ∧
      t.a = s.a ∧ t.x = s.x ∧ t.y = s.y ∧ t.halted = s.halted ∧
      t.nmiPending = (match k with | .nmi => false | .irq => s.nmiPending) ∧ t.config = s.config ∧ t.inputs = s.inputs ∧
      t.events = s.events

/-- A handler that leaves the stack pointer and the three bytes of the entry as the entry left them, whatever it leaves
in every other byte of the stack, returns by RTI to the interrupted instruction, with every flag as it was but Break,
which is 0, and Unused, which is 1 (R309, R311). It is the model's inference from the two sequences. -/
def Obligations.InterruptThenReturn : Prop :=
  ∀ (k : InterruptKind) (s entered before : State), MemoriesCanonical s → entered = raiseInterrupt k s →
    before.sp = entered.sp →
    (∀ b ∈ [entered.sp + 1#8, entered.sp + 2#8, entered.sp + 3#8],
      readValue (stackAddr b) before = readValue (stackAddr b) entered) →
    ∃ t, exec .rti before = .next t ∧ t.pc = s.pc ∧ t.sp = s.sp ∧ FlagsKeptBut [.break, .unused] s.p t.p ∧
      getFlag .break t.p = false ∧ getFlag .unused t.p = true

/-- One iteration of the System loop on a running machine: a pending NMI first, then an unmasked IRQ, else an
instruction; then three ticks for each cycle (R305, R306, R307, R320); the step of a halting opcode is followed by no
tick (R31). When the machine is halted or asked to stop, the run has ended (R322); that an iteration then answers a next
state, with nothing changed but the input list, whatever is pending, is the model's choice (log entry 10). The sampling,
the order and the stop request are the spec's own choices (D9, D10, D41); the list the two input lines come from, and
the empty list, are log entry 2. -/
def Obligations.LoopIteration : Prop :=
  ∀ (s s0 : State) (irq stop : Bool), s.cart.supported = true →
    ((s.inputs = [] ∧ irq = false ∧ stop = false ∧ s0 = s) ∨
      ∃ rest, s.inputs = .sample irq stop :: rest ∧ s0 = { s with inputs := rest }) →
    (s.halted = true ∨ stop = true → step s = .next s0) ∧
    (s.halted = false → stop = false →
      (s.nmiPending = true → step s = .next (advance 21 (raiseInterrupt .nmi s0))) ∧
      (s.nmiPending = false → irq = true → getFlag .interruptDisable s.p = false →
        step s = .next (advance 21 (raiseInterrupt .irq s0))) ∧
      (s.nmiPending = false → (irq = false ∨ getFlag .interruptDisable s.p = true) → ∀ t, processorStep s0 = .next t →
        (t.halted = false → step s = .next (advance (3 * (t.cyc - s.cyc)) t)) ∧
        (t.halted = true → step s = .next t)))

/-- A step runs the decoded instruction: with no interrupt to take, where the bytes at PC, each read with its side
effect, decode to an instruction, the step is that instruction's meaning on the state after those reads, followed by
three ticks for each cycle it counted, or by none if it halted (R112, R320). The sampling and the list of inputs are
D9 and log entry 2. -/
def Obligations.StepRunsDecodedInstruction : Prop :=
  ∀ (s s0 s1 s2 s3 t : State) (i : Instr) (rest : List Byte) (irq : Bool), s.cart.supported = true → s.halted = false →
    s.nmiPending = false → (irq = false ∨ getFlag .interruptDisable s.p = true) →
    ((s.inputs = [] ∧ irq = false ∧ s0 = s) ∨ ∃ l, s.inputs = .sample irq false :: l ∧ s0 = { s with inputs := l }) →
    s1 = (memRead s.pc s0).2 → s2 = (memRead (s.pc + 1#16) s1).2 → s3 = (memRead (s.pc + 2#16) s2).2 →
    decode [(memRead s.pc s0).1, (memRead (s.pc + 1#16) s1).1, (memRead (s.pc + 2#16) s2).1] = .ok (i, rest) →
    exec i (if instrLength i = 1 then s1 else if instrLength i = 2 then s2 else s3) = .next t →
    WellFormed i ∧ step s = .next (if t.halted then t else advance (3 * (t.cyc - s.cyc)) t) ∧
    (¬ InWindow s.pc → ¬ InWindow (s.pc + 1#16) → ¬ InWindow (s.pc + 2#16) → s1 = s0 ∧ s2 = s0 ∧ s3 = s0)

/-! ### Power-on, reset, the host -/

/-- The start state: what the spec gives for every register, the picture unit's registers and position, and the frame
buffers (R55, R56, R57). All but A, X, Y, SP, P and PC is the spec's own choice (D31, D39). -/
def Obligations.StartState : Prop :=
  ∀ s : State, s = State.reset →
    s.a = 0x00#8 ∧ s.x = 0x00#8 ∧ s.y = 0x00#8 ∧ s.sp = 0xFD#8 ∧ s.p = 0x34#8 ∧ s.cyc = 0 ∧ s.halted = false ∧
    s.nmiPending = false ∧ s.pc = (memRead16 0xFFFC#16 s).1 ∧ s.ppu.scanline = -1 ∧ s.ppu.dot = 0 ∧ s.ppu.frame = 0 ∧
    s.ppu.ctrl = 0x00#8 ∧ s.ppu.mask = 0x00#8 ∧ s.ppu.vblank = false ∧ s.ppu.w = false ∧ s.ppu.vramAddr = 0x0000#16 ∧
    s.ppu.scrollX = 0x00#8 ∧ s.ppu.scrollY = 0x00#8 ∧ s.ppu.oamAddr = 0x00#8 ∧
    ∀ x y : Nat, s.ppu.back.get (pixelKey x y) = 0xFF000000#32 ∧ s.ppu.front.get (pixelKey x y) = 0xFF000000#32

/-- Power-on of any machine: the registers but PC and the picture unit as R340 says, each memory from its parameter, the
ROMs kept. Reset loads PC from the vector at 0xFFFC, clears the halt flag and a pending NMI, and changes nothing else
(R341). That PC keeps its value over power-on is the model's choice (log entry 13, DEDUCED, unsafe): R340 does not write
PC, and R57 leaves it unspecified until the reset. All else but A, X, Y, SP, P and the reset vector is the spec's own
choice (D31, D38, D39). -/
def Obligations.PowerOnAndReset : Prop :=
  (∀ (s t : State), t = powerOn s →
    t.a = 0x00#8 ∧ t.x = 0x00#8 ∧ t.y = 0x00#8 ∧ t.p = 0x34#8 ∧ t.sp = 0xFD#8 ∧ t.cyc = 0 ∧ t.halted = false ∧
    t.nmiPending = false ∧ t.pc = s.pc ∧ t.ppu.scanline = -1 ∧ t.ppu.dot = 0 ∧ t.ppu.frame = 0 ∧ t.ppu.ctrl = 0x00#8 ∧
    t.ppu.mask = 0x00#8 ∧ t.ppu.vblank = false ∧ t.ppu.w = false ∧ t.ppu.vramAddr = 0x0000#16 ∧ t.ppu.scrollX = 0x00#8 ∧
    t.ppu.scrollY = 0x00#8 ∧ t.ppu.oamAddr = 0x00#8 ∧
    (∀ k : Nat, t.ppu.back.get k = 0xFF000000#32 ∧ t.ppu.front.get k = 0xFF000000#32) ∧
    t.ram = s.config.ramInit ∧ t.ppu.oam = s.config.oamInit ∧ t.ppu.ntRam = s.config.nametableInit ∧
    t.ppu.palRam = s.config.paletteInit ∧ t.cart.prgRom = s.cart.prgRom ∧
    t.cart.chrMem = (if s.cart.chrPages = 0 then s.config.chrRamInit else s.cart.chrMem)) ∧
  (∀ s : State, ∃ pc : Addr, pc.toNat = (readValue 0xFFFD#16 s).toNat * 256 + (readValue 0xFFFC#16 s).toNat ∧
    resetCall s = { s with pc := pc, halted := false, nmiPending := false })

/-- The host's calls, between iterations: power-on, reset, the byte and word accesses with their side effects, a bare
Processor step, bare ticks (R103, R323). That calls come between iterations is the spec's own choice (D46); the list
they come from is log entry 2, that a host write to 0x4014 makes the OAM transfer and counts no cycle is log entry 8
(DEDUCED), and that a halted Processor's bare step does nothing is log entry 10. -/
def Obligations.HostCalls : Prop :=
  ∀ (s s0 : State) (rest : List Input) (c : HostCall), s.cart.supported = true → s.inputs = .call c :: rest →
    s0 = { s with inputs := rest } →
    (c = .powerOn → step s = .next (powerOn s0)) ∧ (c = .reset → step s = .next (resetCall s0)) ∧
    (∀ a, c = .readByte a → step s = .next (memRead a s0).2) ∧ (∀ a, c = .readWord a → step s = .next (memRead16 a s0).2) ∧
    (∀ a v, c = .writeByte a v → step s = .next (memWrite a v s0)) ∧
    (∀ a v, c = .writeWord a v → step s = .next (memWrite16 a v s0)) ∧
    (c = .step → s.halted = false → step s = processorStep s0) ∧ (c = .step → s.halted = true → step s = .next s0) ∧
    (∀ n, c = .advance n → step s = .next (advance n s0))

/-- A cartridge with another mapper id, or with no program page, does not start: every step refuses (R94). The
cartridge of a container image has the header's fields, the trainer skipped, the two ROMs byte for byte (R93, R95).
Which mapper id is which, the refused page count and the skipped trainer are the spec's own choices (D21, D22); that a
step of such a machine refuses is log entry 11, and that bytes after the character ROM are ignored is log entry 7. -/
def Obligations.ContainerAndCartridge : Prop :=
  (∀ s : State, s.cart.mapperId ≠ 0x00#8 ∨ s.cart.prgPages = 0 → step s = .refused .unsupportedCartridge) ∧
  (∀ (b4 b5 b6 b7 : Byte) (reserved trainer prg chr after : List Byte) (chrRamInit : Memory),
    b7 &&& 0xF0#8 = 0x00#8 → b6 >>> 4 = 0x00#8 → b4 ≠ 0x00#8 → reserved.length = 8 →
    trainer.length = (if b6.getLsbD 2 then 512 else 0) → prg.length = b4.toNat * 16384 → chr.length = b5.toNat * 8192 →
    ∃ c, Cartridge.ofImage chrRamInit
        ([0x4E#8, 0x45#8, 0x53#8, 0x1A#8, b4, b5, b6, b7] ++ reserved ++ trainer ++ prg ++ chr ++ after) = .ok c ∧
      c.supported = true ∧ c.prgPages = b4.toNat ∧ c.chrPages = b5.toNat ∧ c.mirroring = b6.getLsbD 0 ∧
      c.battery = b6.getLsbD 1 ∧ c.trainerPresent = b6.getLsbD 2 ∧ c.fourScreen = b6.getLsbD 3 ∧
      c.consoleType.toNat = b7.toNat % 4 ∧ c.mapperId = 0x00#8 ∧
      (∀ k < prg.length, c.prgRom.get k = prg.getD k 0x00#8) ∧
      (b5 ≠ 0x00#8 → ∀ k < chr.length, c.chrMem.get k = chr.getD k 0x00#8) ∧ (b5 = 0x00#8 → c.chrMem = chrRamInit))

/-! ### The whole machine -/

/-- What no instruction does: change the picture unit's position, its frame count or a frame buffer, set the vblank
flag, touch the NMI latch, the parameters or the input stream, or write program or character ROM; and only a halting
opcode sets the halt flag, only an undefined opcode emits an event (R31, R96, R303, R310). It collects what the
families' rules leave out. -/
def Obligations.WhatNoInstructionChanges : Prop :=
  ∀ (i : Instr) (s t : State), exec i s = .next t →
    t.ppu.scanline = s.ppu.scanline ∧ t.ppu.dot = s.ppu.dot ∧ t.ppu.frame = s.ppu.frame ∧ t.ppu.back = s.ppu.back ∧
    t.ppu.front = s.ppu.front ∧ (t.ppu.vblank = true → s.ppu.vblank = true) ∧ t.nmiPending = s.nmiPending ∧
    t.config = s.config ∧ t.inputs = s.inputs ∧ t.cart = { s.cart with chrMem := t.cart.chrMem } ∧
    (s.cart.chrPages ≠ 0 → t.cart.chrMem = s.cart.chrMem) ∧
    (t.halted = true → s.halted = true ∨ ∃ op, i = .kil op) ∧ (t.events = s.events ∨ ∃ op, i = .und op)

/-- The cycle counter is read by nothing. From a state that has counted k cycles more, an instruction does the same, with
k cycles more, and so does a whole step, be it an iteration with its fetch, interrupt entry and ticks, or a host call;
only power-on, which sets the counter, leaves the very same state (R30). Its width is the spec's own choice (D40). -/
def Obligations.CycleCounterIsUnread : Prop :=
  (∀ (i : Instr) (s t : State) (k : Nat), exec i s = .next t →
    exec i { s with cyc := s.cyc + k } = .next { t with cyc := t.cyc + k }) ∧
  (∀ (s t : State) (k : Nat), (∀ rest : List Input, s.inputs ≠ .call .powerOn :: rest) → step s = .next t →
    step { s with cyc := s.cyc + k } = .next { t with cyc := t.cyc + k }) ∧
  (∀ (s : State) (k : Nat) (rest : List Input), s.inputs = .call .powerOn :: rest →
    step { s with cyc := s.cyc + k } = step s) ∧
  (∀ (s : State) (k : Nat) (r : Refusal), step s = .refused r → step { s with cyc := s.cyc + k } = .refused r)

/-- The Decimal flag has no effect on any computation: from states that differ in it alone, an instruction leaves
states that differ at most in it and, for PHP and BRK, in the status byte they push (R29, R173). This is the spec's
own choice (D4). -/
def Obligations.DecimalFlagHasNoEffect : Prop :=
  ∀ (i : Instr) (s t : State) (b : Bool), exec i s = .next t →
    ∃ t', exec i { s with p := setFlag .decimal b s.p } = .next t' ∧
      t' = { t with p := t'.p, ram := t'.ram } ∧ FlagsKeptBut [.decimal] t.p t'.p ∧
      (i ≠ .php → i ≠ .brk → t'.ram = t.ram) ∧
      ∀ a : Addr, ¬ SameCell a (stackAddr (t.sp + 1#8)) → readValue a t' = readValue a t

/-- Every step keeps program ROM, character ROM and the cartridge's parameters (R96). -/
def Obligations.RomIsImmutable : Prop :=
  ∀ s t : State, step s = .next t → t.cart = { s.cart with chrMem := t.cart.chrMem } ∧
    (s.cart.chrPages ≠ 0 → t.cart.chrMem = s.cart.chrMem)

/-- Every step keeps the canonical form of every memory, so that equal memories are equal data. The form is the
model's own (log entry 4). -/
def Obligations.StepKeepsMemoriesCanonical : Prop :=
  ∀ s t : State, MemoriesCanonical s → step s = .next t → MemoriesCanonical t

/-- Every step keeps the lock-step invariant, but for the two harness calls that the spec says break it: three ticks
for each cycle, whatever instruction, interrupt or host access the step was (R259, R321). It is the spec's derivation
from R251, R320 and R245; for a host write to 0x4014 it rests on log entry 8 (DEDUCED): such a write counts no cycle. -/
def Obligations.StepKeepsLockStep : Prop :=
  ∀ s t : State, LockStep s → step s = .next t →
    (∀ rest : List Input, s.inputs ≠ .call .step :: rest) → (∀ (n : Nat) (rest : List Input), s.inputs ≠ .call (.advance n) :: rest) →
    LockStep t

/-- Every step keeps the position one of the frame's, and the vblank flag 0 before (241, 1) (R35, R254). It is the
property of the source's §8 as an invariant. -/
def Obligations.StepKeepsVblankRule : Prop :=
  ∀ s t : State, PositionLegal s.ppu ∧ VblankOnlyInBlank s → step s = .next t → PositionLegal t.ppu ∧ VblankOnlyInBlank t

/-- Every step keeps the Unused bit 1 (R25). -/
def Obligations.StepKeepsUnusedBit : Prop :=
  ∀ s t : State, UnusedBitSet s → step s = .next t → UnusedBitSet t

/-- The invariants hold at reset. The reset contents of the memories and the cartridge are log entries 4, 5 and 6. -/
def Obligations.ResetMeetsInvariants : Prop :=
  MemoriesCanonical State.reset ∧ LockStep State.reset ∧ PositionLegal State.reset.ppu ∧
  VblankOnlyInBlank State.reset ∧ UnusedBitSet State.reset ∧ State.reset.cart.supported = true
end

