-- ==== Sys2Proof/Laws/Memory.lean ====
section
/-! SUPPORT. The laws of the sparse memories: a read after a write, and that a write keeps the canonical form. -/

namespace Sys2Proof

section Sparse

variable {α : Type} {d v : α} {k k' size : Nat} {m : List (Nat × α)}

theorem Sparse.get_of_forall_lt (h : ∀ c ∈ m, k < c.1) : Sparse.get d k m = d := by
  induction m with
  | nil => rfl
  | cons c rest ih =>
    have hc : k < c.1 := h c (by simp)
    simp only [Sparse.get, if_neg (Nat.ne_of_lt hc)]
    exact ih fun c' hc' => h c' (by simp [hc'])

/-- Two memories in canonical form that read the same everywhere are the same data. -/
theorem Sparse.eq_of_get_eq {m m' : List (Nat × α)} {size' : Nat} (h : Sparse.Canonical d size m)
    (h' : Sparse.Canonical d size' m') (e : ∀ k, Sparse.get d k m = Sparse.get d k m') : m = m' := by
  induction m generalizing m' with
  | nil =>
    cases m' with
    | nil => rfl
    | cons c rest => exact absurd (by simpa [Sparse.get] using (e c.1).symm) (h'.2.1 c (by simp))
  | cons c rest ih =>
    cases m' with
    | nil => exact absurd (by simpa [Sparse.get] using e c.1) (h.2.1 c (by simp))
    | cons c' rest' =>
      obtain ⟨hr, hn, hs⟩ := h
      obtain ⟨hr', hn', hs'⟩ := h'
      obtain ⟨hc, hrest⟩ := List.pairwise_cons.mp hr
      obtain ⟨hc', hrest'⟩ := List.pairwise_cons.mp hr'
      have key : c.1 = c'.1 := by
        rcases Nat.lt_trichotomy c.1 c'.1 with hlt | heq | hgt
        · have h0 : Sparse.get d c.1 (c' :: rest') = d := Sparse.get_of_forall_lt fun b hb => by
            rcases List.mem_cons.mp hb with rfl | hb
            · exact hlt
            · exact Nat.lt_trans hlt (hc' b hb)
          exact absurd (by rw [← h0, ← e]; simp [Sparse.get]) (hn c (by simp))
        · exact heq
        · have h0 : Sparse.get d c'.1 (c :: rest) = d := Sparse.get_of_forall_lt fun b hb => by
            rcases List.mem_cons.mp hb with rfl | hb
            · exact hgt
            · exact Nat.lt_trans hgt (hc b hb)
          exact absurd (by rw [← h0, e]; simp [Sparse.get]) (hn' c' (by simp))
      have val : c.2 = c'.2 := by simpa [Sparse.get, key] using e c.1
      have tail : rest = rest' := by
        refine ih ⟨hrest, fun b hb => hn b (by simp [hb]), fun b hb => hs b (by simp [hb])⟩
          ⟨hrest', fun b hb => hn' b (by simp [hb]), fun b hb => hs' b (by simp [hb])⟩ fun k => ?_
        by_cases hk : k = c.1
        · rw [Sparse.get_of_forall_lt fun b hb => hk ▸ hc b hb,
            Sparse.get_of_forall_lt fun b hb => (hk.trans key) ▸ hc' b hb]
        · have hk' : k ≠ c'.1 := key ▸ hk
          simpa [Sparse.get, hk, hk'] using e k
      exact List.cons_eq_cons.mpr ⟨Prod.ext key val, tail⟩

variable [DecidableEq α]

/-- A write leaves every other cell alone, in canonical form or not. -/
theorem Sparse.get_put_other (h : k' ≠ k) : Sparse.get d k' (Sparse.put d k v m) = Sparse.get d k' m := by
  induction m with
  | nil => by_cases hv : v = d <;> simp [Sparse.put, Sparse.get, hv, h]
  | cons c rest ih =>
    simp only [Sparse.put]
    split
    · split <;> simp [Sparse.get, h]
    · split
      · rename_i hk
        split <;> simp [Sparse.get, h, ← hk]
      · simp [Sparse.get, ih]

/-- A read after a write to the same cell gives the value written. -/
theorem Sparse.get_put_same (h : m.Pairwise (fun c c' => c.1 < c'.1)) :
    Sparse.get d k (Sparse.put d k v m) = v := by
  induction m with
  | nil => by_cases hv : v = d <;> simp [Sparse.put, Sparse.get, hv]
  | cons c rest ih =>
    obtain ⟨hc, hrest⟩ := List.pairwise_cons.mp h
    simp only [Sparse.put]
    split
    · rename_i hlt
      split
      · rename_i hv
        rw [hv]
        refine Sparse.get_of_forall_lt fun c' hc' => ?_
        rcases List.mem_cons.mp hc' with rfl | hc'
        · exact hlt
        · exact Nat.lt_trans hlt (hc c' hc')
      · simp [Sparse.get]
    · split
      · rename_i hk
        split
        · rename_i hv
          rw [hv]
          exact Sparse.get_of_forall_lt fun c' hc' => hk ▸ hc c' hc'
        · simp [Sparse.get]
      · rename_i hk
        simp [Sparse.get, hk, ih hrest]

theorem Sparse.mem_put {c : Nat × α} (h : c ∈ Sparse.put d k v m) : c ∈ m ∨ (c = (k, v) ∧ v ≠ d) := by
  induction m with
  | nil => by_cases hv : v = d <;> simp_all [Sparse.put]
  | cons c' rest ih =>
    simp only [Sparse.put] at h
    split at h
    · split at h
      · exact .inl h
      · rcases List.mem_cons.mp h with h | h
        · exact .inr ⟨h, ‹_›⟩
        · exact .inl h
    · split at h
      · split at h
        · exact .inl (List.mem_cons_of_mem _ h)
        · rcases List.mem_cons.mp h with h | h
          · exact .inr ⟨h, ‹_›⟩
          · exact .inl (List.mem_cons_of_mem _ h)
      · rcases List.mem_cons.mp h with h | h
        · exact .inl (by simp [h])
        · rcases ih h with h | h
          · exact .inl (List.mem_cons_of_mem _ h)
          · exact .inr h

theorem Sparse.put_rising (h : m.Pairwise (fun c c' => c.1 < c'.1)) :
    (Sparse.put d k v m).Pairwise (fun c c' => c.1 < c'.1) := by
  induction m with
  | nil => by_cases hv : v = d <;> simp [Sparse.put, hv]
  | cons c rest ih =>
    obtain ⟨hc, hrest⟩ := List.pairwise_cons.mp h
    simp only [Sparse.put]
    split
    · rename_i hlt
      split
      · exact h
      · refine List.pairwise_cons.mpr ⟨fun c' hc' => ?_, h⟩
        rcases List.mem_cons.mp hc' with rfl | hc'
        · exact hlt
        · exact Nat.lt_trans hlt (hc c' hc')
    · split
      · rename_i hk
        split
        · exact hrest
        · exact List.pairwise_cons.mpr ⟨fun c' hc' => hk ▸ hc c' hc', hrest⟩
      · refine List.pairwise_cons.mpr ⟨fun c' hc' => ?_, ih hrest⟩
        rcases Sparse.mem_put hc' with hc' | ⟨rfl, -⟩
        · exact hc c' hc'
        · show c.1 < k
          omega

/-- A write inside the memory keeps the canonical form. -/
theorem Sparse.put_canonical (h : Sparse.Canonical d size m) (hk : k < size) :
    Sparse.Canonical d size (Sparse.put d k v m) := by
  refine ⟨Sparse.put_rising h.1, fun c hc => ?_, fun c hc => ?_⟩
  · rcases Sparse.mem_put hc with hc | ⟨rfl, hv⟩
    · exact h.2.1 c hc
    · exact hv
  · rcases Sparse.mem_put hc with hc | ⟨rfl, -⟩
    · exact h.2.2 c hc
    · exact hk

end Sparse

variable {m : Memory} {k k' size : Nat} {v : Byte}

theorem Memory.get_put_same (h : Memory.wf size m) : (m.put k v).get k = v := Sparse.get_put_same h.1

theorem Memory.get_put_other (h : k' ≠ k) : (m.put k v).get k' = m.get k' := Sparse.get_put_other h

theorem Memory.put_wf (h : Memory.wf size m) (hk : k < size) : Memory.wf size (m.put k v) := Sparse.put_canonical h hk

@[simp] theorem Memory.wf_nil : Memory.wf size [] := by simp [Memory.wf, Sparse.Canonical]

@[simp] theorem Memory.get_nil : Memory.get [] k = 0x00#8 := rfl

theorem Pixels.put_wf {m : Pixels} {v : Colour} (h : Pixels.wf m) (hk : k < 61440) : Pixels.wf (m.put k v) :=
  Sparse.put_canonical h hk

theorem Pixels.get_put_same {m : Pixels} {v : Colour} (h : Pixels.wf m) : (m.put k v).get k = v :=
  Sparse.get_put_same h.1

theorem Pixels.get_put_other {m : Pixels} {v : Colour} (h : k' ≠ k) : (m.put k v).get k' = m.get k' :=
  Sparse.get_put_other h

@[simp] theorem Pixels.wf_nil : Pixels.wf [] := by simp [Pixels.wf, Sparse.Canonical]

theorem Memory.ofBytesFrom_key_le {bytes : List Byte} {c : Host.Cell} (h : c ∈ Memory.ofBytesFrom k bytes) :
    k ≤ c.1 ∧ c.1 < k + bytes.length ∧ c.2 ≠ 0x00#8 := by
  induction bytes generalizing k with
  | nil => simp [Memory.ofBytesFrom] at h
  | cons b rest ih =>
    have step : c ∈ Memory.ofBytesFrom (k + 1) rest → k ≤ c.1 ∧ c.1 < k + (rest.length + 1) ∧ c.2 ≠ 0x00#8 := fun h =>
      have := ih h
      ⟨by omega, by omega, this.2.2⟩
    simp only [Memory.ofBytesFrom] at h
    split at h
    · exact step h
    · rcases List.mem_cons.mp h with rfl | h
      · exact ⟨Nat.le_refl _, by simp, ‹_›⟩
      · exact step h

/-- The memory made of a list of bytes is in canonical form. -/
theorem Memory.ofBytesFrom_rising (bytes : List Byte) :
    (Memory.ofBytesFrom k bytes).Pairwise (fun c c' => c.1 < c'.1) := by
  induction bytes generalizing k with
  | nil => exact List.Pairwise.nil
  | cons b rest ih =>
    simp only [Memory.ofBytesFrom]
    split
    · exact ih
    · exact List.pairwise_cons.mpr ⟨fun c hc => (Memory.ofBytesFrom_key_le hc).1, ih⟩

theorem Memory.ofBytes_wf {bytes : List Byte} (h : bytes.length ≤ size) : Memory.wf size (Memory.ofBytes bytes) :=
  ⟨Memory.ofBytesFrom_rising bytes, fun _ hc => (Memory.ofBytesFrom_key_le hc).2.2, fun _ hc => by
    have := (Memory.ofBytesFrom_key_le hc).2.1
    omega⟩

end Sys2Proof
end

