-- ==== Sys2Proof/Laws/State.lean ====
section
/-! SUPPORT. What each named update of the state does to each field: one lemma per field per update. -/

namespace Sys2Proof.Machine

/-! `setA` -/

@[simp] theorem State.setA_a (v : Byte) (s : State) : (s.setA v).a = v := rfl
@[simp] theorem State.setA_x (v : Byte) (s : State) : (s.setA v).x = s.x := rfl
@[simp] theorem State.setA_y (v : Byte) (s : State) : (s.setA v).y = s.y := rfl
@[simp] theorem State.setA_sp (v : Byte) (s : State) : (s.setA v).sp = s.sp := rfl
@[simp] theorem State.setA_p (v : Byte) (s : State) : (s.setA v).p = s.p := rfl
@[simp] theorem State.setA_pc (v : Byte) (s : State) : (s.setA v).pc = s.pc := rfl
@[simp] theorem State.setA_cyc (v : Byte) (s : State) : (s.setA v).cyc = s.cyc := rfl
@[simp] theorem State.setA_halted (v : Byte) (s : State) : (s.setA v).halted = s.halted := rfl
@[simp] theorem State.setA_nmiPending (v : Byte) (s : State) : (s.setA v).nmiPending = s.nmiPending := rfl
@[simp] theorem State.setA_ram (v : Byte) (s : State) : (s.setA v).ram = s.ram := rfl
@[simp] theorem State.setA_ppu (v : Byte) (s : State) : (s.setA v).ppu = s.ppu := rfl
@[simp] theorem State.setA_cart (v : Byte) (s : State) : (s.setA v).cart = s.cart := rfl
@[simp] theorem State.setA_config (v : Byte) (s : State) : (s.setA v).config = s.config := rfl
@[simp] theorem State.setA_inputs (v : Byte) (s : State) : (s.setA v).inputs = s.inputs := rfl
@[simp] theorem State.setA_events (v : Byte) (s : State) : (s.setA v).events = s.events := rfl

/-! `setX` -/

@[simp] theorem State.setX_a (v : Byte) (s : State) : (s.setX v).a = s.a := rfl
@[simp] theorem State.setX_x (v : Byte) (s : State) : (s.setX v).x = v := rfl
@[simp] theorem State.setX_y (v : Byte) (s : State) : (s.setX v).y = s.y := rfl
@[simp] theorem State.setX_sp (v : Byte) (s : State) : (s.setX v).sp = s.sp := rfl
@[simp] theorem State.setX_p (v : Byte) (s : State) : (s.setX v).p = s.p := rfl
@[simp] theorem State.setX_pc (v : Byte) (s : State) : (s.setX v).pc = s.pc := rfl
@[simp] theorem State.setX_cyc (v : Byte) (s : State) : (s.setX v).cyc = s.cyc := rfl
@[simp] theorem State.setX_halted (v : Byte) (s : State) : (s.setX v).halted = s.halted := rfl
@[simp] theorem State.setX_nmiPending (v : Byte) (s : State) : (s.setX v).nmiPending = s.nmiPending := rfl
@[simp] theorem State.setX_ram (v : Byte) (s : State) : (s.setX v).ram = s.ram := rfl
@[simp] theorem State.setX_ppu (v : Byte) (s : State) : (s.setX v).ppu = s.ppu := rfl
@[simp] theorem State.setX_cart (v : Byte) (s : State) : (s.setX v).cart = s.cart := rfl
@[simp] theorem State.setX_config (v : Byte) (s : State) : (s.setX v).config = s.config := rfl
@[simp] theorem State.setX_inputs (v : Byte) (s : State) : (s.setX v).inputs = s.inputs := rfl
@[simp] theorem State.setX_events (v : Byte) (s : State) : (s.setX v).events = s.events := rfl

/-! `setY` -/

@[simp] theorem State.setY_a (v : Byte) (s : State) : (s.setY v).a = s.a := rfl
@[simp] theorem State.setY_x (v : Byte) (s : State) : (s.setY v).x = s.x := rfl
@[simp] theorem State.setY_y (v : Byte) (s : State) : (s.setY v).y = v := rfl
@[simp] theorem State.setY_sp (v : Byte) (s : State) : (s.setY v).sp = s.sp := rfl
@[simp] theorem State.setY_p (v : Byte) (s : State) : (s.setY v).p = s.p := rfl
@[simp] theorem State.setY_pc (v : Byte) (s : State) : (s.setY v).pc = s.pc := rfl
@[simp] theorem State.setY_cyc (v : Byte) (s : State) : (s.setY v).cyc = s.cyc := rfl
@[simp] theorem State.setY_halted (v : Byte) (s : State) : (s.setY v).halted = s.halted := rfl
@[simp] theorem State.setY_nmiPending (v : Byte) (s : State) : (s.setY v).nmiPending = s.nmiPending := rfl
@[simp] theorem State.setY_ram (v : Byte) (s : State) : (s.setY v).ram = s.ram := rfl
@[simp] theorem State.setY_ppu (v : Byte) (s : State) : (s.setY v).ppu = s.ppu := rfl
@[simp] theorem State.setY_cart (v : Byte) (s : State) : (s.setY v).cart = s.cart := rfl
@[simp] theorem State.setY_config (v : Byte) (s : State) : (s.setY v).config = s.config := rfl
@[simp] theorem State.setY_inputs (v : Byte) (s : State) : (s.setY v).inputs = s.inputs := rfl
@[simp] theorem State.setY_events (v : Byte) (s : State) : (s.setY v).events = s.events := rfl

/-! `setSp` -/

@[simp] theorem State.setSp_a (v : Byte) (s : State) : (s.setSp v).a = s.a := rfl
@[simp] theorem State.setSp_x (v : Byte) (s : State) : (s.setSp v).x = s.x := rfl
@[simp] theorem State.setSp_y (v : Byte) (s : State) : (s.setSp v).y = s.y := rfl
@[simp] theorem State.setSp_sp (v : Byte) (s : State) : (s.setSp v).sp = v := rfl
@[simp] theorem State.setSp_p (v : Byte) (s : State) : (s.setSp v).p = s.p := rfl
@[simp] theorem State.setSp_pc (v : Byte) (s : State) : (s.setSp v).pc = s.pc := rfl
@[simp] theorem State.setSp_cyc (v : Byte) (s : State) : (s.setSp v).cyc = s.cyc := rfl
@[simp] theorem State.setSp_halted (v : Byte) (s : State) : (s.setSp v).halted = s.halted := rfl
@[simp] theorem State.setSp_nmiPending (v : Byte) (s : State) : (s.setSp v).nmiPending = s.nmiPending := rfl
@[simp] theorem State.setSp_ram (v : Byte) (s : State) : (s.setSp v).ram = s.ram := rfl
@[simp] theorem State.setSp_ppu (v : Byte) (s : State) : (s.setSp v).ppu = s.ppu := rfl
@[simp] theorem State.setSp_cart (v : Byte) (s : State) : (s.setSp v).cart = s.cart := rfl
@[simp] theorem State.setSp_config (v : Byte) (s : State) : (s.setSp v).config = s.config := rfl
@[simp] theorem State.setSp_inputs (v : Byte) (s : State) : (s.setSp v).inputs = s.inputs := rfl
@[simp] theorem State.setSp_events (v : Byte) (s : State) : (s.setSp v).events = s.events := rfl

/-! `setP` -/

@[simp] theorem State.setP_a (v : Byte) (s : State) : (s.setP v).a = s.a := rfl
@[simp] theorem State.setP_x (v : Byte) (s : State) : (s.setP v).x = s.x := rfl
@[simp] theorem State.setP_y (v : Byte) (s : State) : (s.setP v).y = s.y := rfl
@[simp] theorem State.setP_sp (v : Byte) (s : State) : (s.setP v).sp = s.sp := rfl
@[simp] theorem State.setP_p (v : Byte) (s : State) : (s.setP v).p = v := rfl
@[simp] theorem State.setP_pc (v : Byte) (s : State) : (s.setP v).pc = s.pc := rfl
@[simp] theorem State.setP_cyc (v : Byte) (s : State) : (s.setP v).cyc = s.cyc := rfl
@[simp] theorem State.setP_halted (v : Byte) (s : State) : (s.setP v).halted = s.halted := rfl
@[simp] theorem State.setP_nmiPending (v : Byte) (s : State) : (s.setP v).nmiPending = s.nmiPending := rfl
@[simp] theorem State.setP_ram (v : Byte) (s : State) : (s.setP v).ram = s.ram := rfl
@[simp] theorem State.setP_ppu (v : Byte) (s : State) : (s.setP v).ppu = s.ppu := rfl
@[simp] theorem State.setP_cart (v : Byte) (s : State) : (s.setP v).cart = s.cart := rfl
@[simp] theorem State.setP_config (v : Byte) (s : State) : (s.setP v).config = s.config := rfl
@[simp] theorem State.setP_inputs (v : Byte) (s : State) : (s.setP v).inputs = s.inputs := rfl
@[simp] theorem State.setP_events (v : Byte) (s : State) : (s.setP v).events = s.events := rfl

/-! `setPc` -/

@[simp] theorem State.setPc_a (v : Addr) (s : State) : (s.setPc v).a = s.a := rfl
@[simp] theorem State.setPc_x (v : Addr) (s : State) : (s.setPc v).x = s.x := rfl
@[simp] theorem State.setPc_y (v : Addr) (s : State) : (s.setPc v).y = s.y := rfl
@[simp] theorem State.setPc_sp (v : Addr) (s : State) : (s.setPc v).sp = s.sp := rfl
@[simp] theorem State.setPc_p (v : Addr) (s : State) : (s.setPc v).p = s.p := rfl
@[simp] theorem State.setPc_pc (v : Addr) (s : State) : (s.setPc v).pc = v := rfl
@[simp] theorem State.setPc_cyc (v : Addr) (s : State) : (s.setPc v).cyc = s.cyc := rfl
@[simp] theorem State.setPc_halted (v : Addr) (s : State) : (s.setPc v).halted = s.halted := rfl
@[simp] theorem State.setPc_nmiPending (v : Addr) (s : State) : (s.setPc v).nmiPending = s.nmiPending := rfl
@[simp] theorem State.setPc_ram (v : Addr) (s : State) : (s.setPc v).ram = s.ram := rfl
@[simp] theorem State.setPc_ppu (v : Addr) (s : State) : (s.setPc v).ppu = s.ppu := rfl
@[simp] theorem State.setPc_cart (v : Addr) (s : State) : (s.setPc v).cart = s.cart := rfl
@[simp] theorem State.setPc_config (v : Addr) (s : State) : (s.setPc v).config = s.config := rfl
@[simp] theorem State.setPc_inputs (v : Addr) (s : State) : (s.setPc v).inputs = s.inputs := rfl
@[simp] theorem State.setPc_events (v : Addr) (s : State) : (s.setPc v).events = s.events := rfl

/-! `addCycles` -/

@[simp] theorem State.addCycles_a (n : Nat) (s : State) : (s.addCycles n).a = s.a := rfl
@[simp] theorem State.addCycles_x (n : Nat) (s : State) : (s.addCycles n).x = s.x := rfl
@[simp] theorem State.addCycles_y (n : Nat) (s : State) : (s.addCycles n).y = s.y := rfl
@[simp] theorem State.addCycles_sp (n : Nat) (s : State) : (s.addCycles n).sp = s.sp := rfl
@[simp] theorem State.addCycles_p (n : Nat) (s : State) : (s.addCycles n).p = s.p := rfl
@[simp] theorem State.addCycles_pc (n : Nat) (s : State) : (s.addCycles n).pc = s.pc := rfl
@[simp] theorem State.addCycles_cyc (n : Nat) (s : State) : (s.addCycles n).cyc = s.cyc + n := rfl
@[simp] theorem State.addCycles_halted (n : Nat) (s : State) : (s.addCycles n).halted = s.halted := rfl
@[simp] theorem State.addCycles_nmiPending (n : Nat) (s : State) : (s.addCycles n).nmiPending = s.nmiPending := rfl
@[simp] theorem State.addCycles_ram (n : Nat) (s : State) : (s.addCycles n).ram = s.ram := rfl
@[simp] theorem State.addCycles_ppu (n : Nat) (s : State) : (s.addCycles n).ppu = s.ppu := rfl
@[simp] theorem State.addCycles_cart (n : Nat) (s : State) : (s.addCycles n).cart = s.cart := rfl
@[simp] theorem State.addCycles_config (n : Nat) (s : State) : (s.addCycles n).config = s.config := rfl
@[simp] theorem State.addCycles_inputs (n : Nat) (s : State) : (s.addCycles n).inputs = s.inputs := rfl
@[simp] theorem State.addCycles_events (n : Nat) (s : State) : (s.addCycles n).events = s.events := rfl

/-! `setHalted` -/

@[simp] theorem State.setHalted_a (b : Bool) (s : State) : (s.setHalted b).a = s.a := rfl
@[simp] theorem State.setHalted_x (b : Bool) (s : State) : (s.setHalted b).x = s.x := rfl
@[simp] theorem State.setHalted_y (b : Bool) (s : State) : (s.setHalted b).y = s.y := rfl
@[simp] theorem State.setHalted_sp (b : Bool) (s : State) : (s.setHalted b).sp = s.sp := rfl
@[simp] theorem State.setHalted_p (b : Bool) (s : State) : (s.setHalted b).p = s.p := rfl
@[simp] theorem State.setHalted_pc (b : Bool) (s : State) : (s.setHalted b).pc = s.pc := rfl
@[simp] theorem State.setHalted_cyc (b : Bool) (s : State) : (s.setHalted b).cyc = s.cyc := rfl
@[simp] theorem State.setHalted_halted (b : Bool) (s : State) : (s.setHalted b).halted = b := rfl
@[simp] theorem State.setHalted_nmiPending (b : Bool) (s : State) : (s.setHalted b).nmiPending = s.nmiPending := rfl
@[simp] theorem State.setHalted_ram (b : Bool) (s : State) : (s.setHalted b).ram = s.ram := rfl
@[simp] theorem State.setHalted_ppu (b : Bool) (s : State) : (s.setHalted b).ppu = s.ppu := rfl
@[simp] theorem State.setHalted_cart (b : Bool) (s : State) : (s.setHalted b).cart = s.cart := rfl
@[simp] theorem State.setHalted_config (b : Bool) (s : State) : (s.setHalted b).config = s.config := rfl
@[simp] theorem State.setHalted_inputs (b : Bool) (s : State) : (s.setHalted b).inputs = s.inputs := rfl
@[simp] theorem State.setHalted_events (b : Bool) (s : State) : (s.setHalted b).events = s.events := rfl

/-! `setNmi` -/

@[simp] theorem State.setNmi_a (b : Bool) (s : State) : (s.setNmi b).a = s.a := rfl
@[simp] theorem State.setNmi_x (b : Bool) (s : State) : (s.setNmi b).x = s.x := rfl
@[simp] theorem State.setNmi_y (b : Bool) (s : State) : (s.setNmi b).y = s.y := rfl
@[simp] theorem State.setNmi_sp (b : Bool) (s : State) : (s.setNmi b).sp = s.sp := rfl
@[simp] theorem State.setNmi_p (b : Bool) (s : State) : (s.setNmi b).p = s.p := rfl
@[simp] theorem State.setNmi_pc (b : Bool) (s : State) : (s.setNmi b).pc = s.pc := rfl
@[simp] theorem State.setNmi_cyc (b : Bool) (s : State) : (s.setNmi b).cyc = s.cyc := rfl
@[simp] theorem State.setNmi_halted (b : Bool) (s : State) : (s.setNmi b).halted = s.halted := rfl
@[simp] theorem State.setNmi_nmiPending (b : Bool) (s : State) : (s.setNmi b).nmiPending = b := rfl
@[simp] theorem State.setNmi_ram (b : Bool) (s : State) : (s.setNmi b).ram = s.ram := rfl
@[simp] theorem State.setNmi_ppu (b : Bool) (s : State) : (s.setNmi b).ppu = s.ppu := rfl
@[simp] theorem State.setNmi_cart (b : Bool) (s : State) : (s.setNmi b).cart = s.cart := rfl
@[simp] theorem State.setNmi_config (b : Bool) (s : State) : (s.setNmi b).config = s.config := rfl
@[simp] theorem State.setNmi_inputs (b : Bool) (s : State) : (s.setNmi b).inputs = s.inputs := rfl
@[simp] theorem State.setNmi_events (b : Bool) (s : State) : (s.setNmi b).events = s.events := rfl

/-! `setRam` -/

@[simp] theorem State.setRam_a (m : Memory) (s : State) : (s.setRam m).a = s.a := rfl
@[simp] theorem State.setRam_x (m : Memory) (s : State) : (s.setRam m).x = s.x := rfl
@[simp] theorem State.setRam_y (m : Memory) (s : State) : (s.setRam m).y = s.y := rfl
@[simp] theorem State.setRam_sp (m : Memory) (s : State) : (s.setRam m).sp = s.sp := rfl
@[simp] theorem State.setRam_p (m : Memory) (s : State) : (s.setRam m).p = s.p := rfl
@[simp] theorem State.setRam_pc (m : Memory) (s : State) : (s.setRam m).pc = s.pc := rfl
@[simp] theorem State.setRam_cyc (m : Memory) (s : State) : (s.setRam m).cyc = s.cyc := rfl
@[simp] theorem State.setRam_halted (m : Memory) (s : State) : (s.setRam m).halted = s.halted := rfl
@[simp] theorem State.setRam_nmiPending (m : Memory) (s : State) : (s.setRam m).nmiPending = s.nmiPending := rfl
@[simp] theorem State.setRam_ram (m : Memory) (s : State) : (s.setRam m).ram = m := rfl
@[simp] theorem State.setRam_ppu (m : Memory) (s : State) : (s.setRam m).ppu = s.ppu := rfl
@[simp] theorem State.setRam_cart (m : Memory) (s : State) : (s.setRam m).cart = s.cart := rfl
@[simp] theorem State.setRam_config (m : Memory) (s : State) : (s.setRam m).config = s.config := rfl
@[simp] theorem State.setRam_inputs (m : Memory) (s : State) : (s.setRam m).inputs = s.inputs := rfl
@[simp] theorem State.setRam_events (m : Memory) (s : State) : (s.setRam m).events = s.events := rfl

/-! `setPpu` -/

@[simp] theorem State.setPpu_a (u : Ppu) (s : State) : (s.setPpu u).a = s.a := rfl
@[simp] theorem State.setPpu_x (u : Ppu) (s : State) : (s.setPpu u).x = s.x := rfl
@[simp] theorem State.setPpu_y (u : Ppu) (s : State) : (s.setPpu u).y = s.y := rfl
@[simp] theorem State.setPpu_sp (u : Ppu) (s : State) : (s.setPpu u).sp = s.sp := rfl
@[simp] theorem State.setPpu_p (u : Ppu) (s : State) : (s.setPpu u).p = s.p := rfl
@[simp] theorem State.setPpu_pc (u : Ppu) (s : State) : (s.setPpu u).pc = s.pc := rfl
@[simp] theorem State.setPpu_cyc (u : Ppu) (s : State) : (s.setPpu u).cyc = s.cyc := rfl
@[simp] theorem State.setPpu_halted (u : Ppu) (s : State) : (s.setPpu u).halted = s.halted := rfl
@[simp] theorem State.setPpu_nmiPending (u : Ppu) (s : State) : (s.setPpu u).nmiPending = s.nmiPending := rfl
@[simp] theorem State.setPpu_ram (u : Ppu) (s : State) : (s.setPpu u).ram = s.ram := rfl
@[simp] theorem State.setPpu_ppu (u : Ppu) (s : State) : (s.setPpu u).ppu = u := rfl
@[simp] theorem State.setPpu_cart (u : Ppu) (s : State) : (s.setPpu u).cart = s.cart := rfl
@[simp] theorem State.setPpu_config (u : Ppu) (s : State) : (s.setPpu u).config = s.config := rfl
@[simp] theorem State.setPpu_inputs (u : Ppu) (s : State) : (s.setPpu u).inputs = s.inputs := rfl
@[simp] theorem State.setPpu_events (u : Ppu) (s : State) : (s.setPpu u).events = s.events := rfl

/-! `setChr` -/

@[simp] theorem State.setChr_a (m : Memory) (s : State) : (s.setChr m).a = s.a := rfl
@[simp] theorem State.setChr_x (m : Memory) (s : State) : (s.setChr m).x = s.x := rfl
@[simp] theorem State.setChr_y (m : Memory) (s : State) : (s.setChr m).y = s.y := rfl
@[simp] theorem State.setChr_sp (m : Memory) (s : State) : (s.setChr m).sp = s.sp := rfl
@[simp] theorem State.setChr_p (m : Memory) (s : State) : (s.setChr m).p = s.p := rfl
@[simp] theorem State.setChr_pc (m : Memory) (s : State) : (s.setChr m).pc = s.pc := rfl
@[simp] theorem State.setChr_cyc (m : Memory) (s : State) : (s.setChr m).cyc = s.cyc := rfl
@[simp] theorem State.setChr_halted (m : Memory) (s : State) : (s.setChr m).halted = s.halted := rfl
@[simp] theorem State.setChr_nmiPending (m : Memory) (s : State) : (s.setChr m).nmiPending = s.nmiPending := rfl
@[simp] theorem State.setChr_ram (m : Memory) (s : State) : (s.setChr m).ram = s.ram := rfl
@[simp] theorem State.setChr_ppu (m : Memory) (s : State) : (s.setChr m).ppu = s.ppu := rfl
@[simp] theorem State.setChr_cart (m : Memory) (s : State) : (s.setChr m).cart = { s.cart with chrMem := m } := rfl
@[simp] theorem State.setChr_config (m : Memory) (s : State) : (s.setChr m).config = s.config := rfl
@[simp] theorem State.setChr_inputs (m : Memory) (s : State) : (s.setChr m).inputs = s.inputs := rfl
@[simp] theorem State.setChr_events (m : Memory) (s : State) : (s.setChr m).events = s.events := rfl

/-! `setInputs` -/

@[simp] theorem State.setInputs_a (l : List Input) (s : State) : (s.setInputs l).a = s.a := rfl
@[simp] theorem State.setInputs_x (l : List Input) (s : State) : (s.setInputs l).x = s.x := rfl
@[simp] theorem State.setInputs_y (l : List Input) (s : State) : (s.setInputs l).y = s.y := rfl
@[simp] theorem State.setInputs_sp (l : List Input) (s : State) : (s.setInputs l).sp = s.sp := rfl
@[simp] theorem State.setInputs_p (l : List Input) (s : State) : (s.setInputs l).p = s.p := rfl
@[simp] theorem State.setInputs_pc (l : List Input) (s : State) : (s.setInputs l).pc = s.pc := rfl
@[simp] theorem State.setInputs_cyc (l : List Input) (s : State) : (s.setInputs l).cyc = s.cyc := rfl
@[simp] theorem State.setInputs_halted (l : List Input) (s : State) : (s.setInputs l).halted = s.halted := rfl
@[simp] theorem State.setInputs_nmiPending (l : List Input) (s : State) : (s.setInputs l).nmiPending = s.nmiPending := rfl
@[simp] theorem State.setInputs_ram (l : List Input) (s : State) : (s.setInputs l).ram = s.ram := rfl
@[simp] theorem State.setInputs_ppu (l : List Input) (s : State) : (s.setInputs l).ppu = s.ppu := rfl
@[simp] theorem State.setInputs_cart (l : List Input) (s : State) : (s.setInputs l).cart = s.cart := rfl
@[simp] theorem State.setInputs_config (l : List Input) (s : State) : (s.setInputs l).config = s.config := rfl
@[simp] theorem State.setInputs_inputs (l : List Input) (s : State) : (s.setInputs l).inputs = l := rfl
@[simp] theorem State.setInputs_events (l : List Input) (s : State) : (s.setInputs l).events = s.events := rfl

/-! `emit` -/

@[simp] theorem State.emit_a (e : UndefinedOpcode) (s : State) : (s.emit e).a = s.a := rfl
@[simp] theorem State.emit_x (e : UndefinedOpcode) (s : State) : (s.emit e).x = s.x := rfl
@[simp] theorem State.emit_y (e : UndefinedOpcode) (s : State) : (s.emit e).y = s.y := rfl
@[simp] theorem State.emit_sp (e : UndefinedOpcode) (s : State) : (s.emit e).sp = s.sp := rfl
@[simp] theorem State.emit_p (e : UndefinedOpcode) (s : State) : (s.emit e).p = s.p := rfl
@[simp] theorem State.emit_pc (e : UndefinedOpcode) (s : State) : (s.emit e).pc = s.pc := rfl
@[simp] theorem State.emit_cyc (e : UndefinedOpcode) (s : State) : (s.emit e).cyc = s.cyc := rfl
@[simp] theorem State.emit_halted (e : UndefinedOpcode) (s : State) : (s.emit e).halted = s.halted := rfl
@[simp] theorem State.emit_nmiPending (e : UndefinedOpcode) (s : State) : (s.emit e).nmiPending = s.nmiPending := rfl
@[simp] theorem State.emit_ram (e : UndefinedOpcode) (s : State) : (s.emit e).ram = s.ram := rfl
@[simp] theorem State.emit_ppu (e : UndefinedOpcode) (s : State) : (s.emit e).ppu = s.ppu := rfl
@[simp] theorem State.emit_cart (e : UndefinedOpcode) (s : State) : (s.emit e).cart = s.cart := rfl
@[simp] theorem State.emit_config (e : UndefinedOpcode) (s : State) : (s.emit e).config = s.config := rfl
@[simp] theorem State.emit_inputs (e : UndefinedOpcode) (s : State) : (s.emit e).inputs = s.inputs := rfl
@[simp] theorem State.emit_events (e : UndefinedOpcode) (s : State) : (s.emit e).events = s.events ++ [e] := rfl

end Sys2Proof.Machine
end

