-- ==== Sys2Proof/Laws/Bus.lean ====
section
/-! SUPPORT. What the main path's operations do: where an address goes, what a read returns and changes, what a write
changes and keeps, and that both depend on RAM, the picture unit and the cartridge alone. -/

namespace Sys2Proof.Machine

/-! ### Bytes and addresses -/

theorem toNat_joinBytes (hi lo : Byte) : (joinBytes hi lo).toNat = hi.toNat * 256 + lo.toNat := by
  show (hi ++ lo).toNat = _
  rw [BitVec.toNat_append, ← Nat.shiftLeft_add_eq_or_of_lt lo.isLt, Nat.shiftLeft_eq]

theorem toNat_lowByte (w : Addr) : (lowByte w).toNat = w.toNat % 256 := by
  simp [lowByte, BitVec.extractLsb'_toNat]

theorem toNat_highByte (w : Addr) : (highByte w).toNat = w.toNat / 256 := by
  have h := w.isLt
  simp only [highByte, BitVec.extractLsb'_toNat, Nat.shiftRight_eq_div_pow]
  omega

@[simp] theorem lowByte_joinBytes (hi lo : Byte) : lowByte (joinBytes hi lo) = lo := by
  have h := lo.isLt
  apply BitVec.eq_of_toNat_eq
  rw [toNat_lowByte, toNat_joinBytes]
  omega

@[simp] theorem highByte_joinBytes (hi lo : Byte) : highByte (joinBytes hi lo) = hi := by
  have h := lo.isLt
  apply BitVec.eq_of_toNat_eq
  rw [toNat_highByte, toNat_joinBytes]
  omega

@[simp] theorem joinBytes_high_low (w : Addr) : joinBytes (highByte w) (lowByte w) = w := by
  apply BitVec.eq_of_toNat_eq
  rw [toNat_joinBytes, toNat_highByte, toNat_lowByte]
  omega

/-! ### Routing -/

theorem route_ram {a : Addr} (h : a.toNat < 0x2000) : route a = .ram (a.toNat % 0x800) := by simp [route, h]

theorem route_window {a : Addr} (h : 0x2000 ≤ a.toNat) (h' : a.toNat ≤ 0x3FFF) : route a = .register (regOf a) := by
  have h1 : ¬ a.toNat < 0x2000 := by omega
  have h2 : a.toNat < 0x4000 := by omega
  simp [route, h1, h2]

theorem route_cartridge {a : Addr} (h : 0x4020 ≤ a.toNat) : route a = .cartridge := by
  have h1 : ¬ a.toNat < 0x2000 := by omega
  have h2 : ¬ a.toNat < 0x4000 := by omega
  have h3 : ¬ a.toNat = 0x4014 := by omega
  have h4 : ¬ a.toNat < 0x4018 := by omega
  have h5 : ¬ a.toNat < 0x4020 := by omega
  simp [route, h1, h2, h3, h4, h5]

theorem route_ram_lt {a : Addr} {k : Nat} (h : route a = .ram k) : k < 2048 := by
  unfold route at h
  simp only at h
  split at h
  · cases h
    exact Nat.mod_lt _ (by decide)
  all_goals (repeat' split at h) <;> cases h

theorem not_window_of_route {a : Addr} (h : ∀ r, route a ≠ .register r) : a.toNat < 0x2000 ∨ 0x3FFF < a.toNat := by
  by_cases h1 : 0x2000 ≤ a.toNat ∧ a.toNat ≤ 0x3FFF
  · exact absurd (route_window h1.1 h1.2) (h _)
  · omega

@[simp] theorem route_stackAddr (b : Byte) : route (stackAddr b) = .ram (256 + b.toNat) := by
  have hb := b.isLt
  have h : (stackAddr b).toNat = 256 + b.toNat := by simp [stackAddr, toNat_joinBytes]
  rw [route_ram (by omega), h, Nat.mod_eq_of_lt (by omega)]

@[simp] theorem route_zeroPage (b : Byte) : route (zeroPage b) = .ram b.toNat := by
  have hb := b.isLt
  have h : (zeroPage b).toNat = b.toNat := by simp [zeroPage, toNat_joinBytes]
  rw [route_ram (by omega), h, Nat.mod_eq_of_lt (by omega)]

/-! ### Reads -/

theorem readEffect_of_not_register {a : Addr} (h : ∀ r, route a ≠ .register r) (s : State) : readEffect a s = s := by
  unfold readEffect
  split
  · rename_i r hr
    exact absurd hr (h r)
  all_goals rfl

/-- Everything a read can change: the vblank flag, which it can only clear, the write toggle, and the VRAM address. -/
theorem readEffect_cases (a : Addr) (s : State) :
    ∃ (vb w : Bool) (va : Addr), (vb = true → s.ppu.vblank = true) ∧
      readEffect a s = s.setPpu { s.ppu with vblank := vb, w := w, vramAddr := va } := by
  have same : ∃ (vb w : Bool) (va : Addr), (vb = true → s.ppu.vblank = true) ∧
      s = s.setPpu { s.ppu with vblank := vb, w := w, vramAddr := va } :=
    ⟨s.ppu.vblank, s.ppu.w, s.ppu.vramAddr, id, rfl⟩
  unfold readEffect
  split
  · rename_i r _
    cases r
    case status => exact ⟨false, false, s.ppu.vramAddr, by simp, rfl⟩
    case data => exact ⟨s.ppu.vblank, s.ppu.w, s.ppu.vramAddr + vramStep s.ppu, id, rfl⟩
    all_goals exact same
  all_goals exact same

/-- A read changes the picture unit only. -/
theorem readEffect_eq (a : Addr) (s : State) : readEffect a s = s.setPpu (readEffect a s).ppu := by
  obtain ⟨vb, w, va, -, h⟩ := readEffect_cases a s
  rw [h]
  rfl

/-- The state `t` has the storage of `s`: RAM, the picture unit, the cartridge. -/
abbrev SameStorage (s t : State) : Prop := t.ram = s.ram ∧ t.ppu = s.ppu ∧ t.cart = s.cart

section Congruence

variable {s t : State}

theorem vidRead_congr (h : SameStorage s t) (n : Nat) : vidRead t n = vidRead s n := by
  obtain ⟨-, h2, h3⟩ := h
  simp [vidRead, h2, h3]

/-- What a read returns depends on the storage alone. -/
theorem readValue_congr (h : SameStorage s t) (a : Addr) : readValue a t = readValue a s := by
  have hv := vidRead_congr h
  obtain ⟨h1, h2, h3⟩ := h
  unfold readValue
  split
  · rw [h1]
  · rename_i r _
    cases r <;> simp [regValue, h2, hv]
  · rfl
  · rfl
  · rfl
  · rw [h3]

/-- What a read changes depends on the storage alone. -/
theorem readEffect_congr (h : SameStorage s t) (a : Addr) : (readEffect a t).ppu = (readEffect a s).ppu := by
  obtain ⟨h1, h2, h3⟩ := h
  unfold readEffect
  split
  · rename_i r _
    cases r <;> simp [regReadEffect, bumpVramAddr, h2]
  all_goals exact h2

theorem readEffect_same (h : SameStorage s t) (a : Addr) : SameStorage (readEffect a s) (readEffect a t) := by
  refine ⟨?_, readEffect_congr h a, ?_⟩
  · rw [readEffect_eq a s, readEffect_eq a t]
    exact h.1
  · rw [readEffect_eq a s, readEffect_eq a t]
    exact h.2.2

theorem vidWrite_same (h : SameStorage s t) (n : Nat) (v : Byte) : SameStorage (vidWrite n v s) (vidWrite n v t) := by
  obtain ⟨h1, h2, h3⟩ := h
  unfold vidWrite
  rw [h3]
  split
  · split
    · exact ⟨h1, h2, by simp [h3]⟩
    · exact ⟨h1, h2, h3⟩
  · exact ⟨h1, by simp [h2], h3⟩
  · exact ⟨h1, by simp [h2], h3⟩

theorem regWrite_same (h : SameStorage s t) (r : PpuReg) (v : Byte) : SameStorage (regWrite r v s) (regWrite r v t) := by
  have hd : SameStorage (vidWrite s.ppu.vramAddr.toNat v s) (vidWrite s.ppu.vramAddr.toNat v t) := vidWrite_same h _ v
  obtain ⟨h1, h2, h3⟩ := h
  cases r
  case data =>
    obtain ⟨d1, d2, d3⟩ := hd
    simp only [regWrite, bumpVramAddr, h2]
    exact ⟨d1, by simp [d2], d3⟩
  all_goals simp only [regWrite, h2]
  case status => exact ⟨h1, h2, h3⟩
  case scroll => split <;> exact ⟨h1, rfl, h3⟩
  case addr => split <;> exact ⟨h1, rfl, h3⟩
  all_goals exact ⟨h1, rfl, h3⟩

theorem oamTransferByte_same (h : SameStorage s t) (v : Byte) (i : Nat) :
    SameStorage (oamTransferByte v s i) (oamTransferByte v t i) := by
  have he := readEffect_same h (joinBytes v (BitVec.ofNat 8 i))
  have hv := readValue_congr h (joinBytes v (BitVec.ofNat 8 i))
  obtain ⟨e1, e2, e3⟩ := he
  exact ⟨e1, by simp [oamTransferByte, memRead, hv, e2], e3⟩

theorem oamTransfer_same (h : SameStorage s t) (v : Byte) : SameStorage (oamTransfer v s) (oamTransfer v t) := by
  unfold oamTransfer
  generalize List.range 256 = l
  induction l generalizing s t with
  | nil => exact h
  | cons i rest ih => exact ih (oamTransferByte_same h v i)

/-- What a write changes depends on the storage alone. -/
theorem memWrite_same (h : SameStorage s t) (a : Addr) (v : Byte) : SameStorage (memWrite a v s) (memWrite a v t) := by
  unfold memWrite
  split
  · exact ⟨by simp [h.1], h.2.1, h.2.2⟩
  · exact regWrite_same h _ v
  · exact oamTransfer_same h v
  all_goals exact h

end Congruence

/-! ### Writes -/

/-- The picture unit `u'` has the position, frame count and frame buffers of `u`, and a vblank flag set only if it was
set in `u`: what every main-path access keeps. -/
abbrev PositionKept (u u' : Ppu) : Prop :=
  u'.scanline = u.scanline ∧ u'.dot = u.dot ∧ u'.frame = u.frame ∧ u'.back = u.back ∧ u'.front = u.front ∧
  (u'.vblank = true → u.vblank = true)

/-- Everything a write can change: RAM, the picture unit other than its position and frame buffers, and character
memory if it is RAM. -/
abbrev WriteShape (s t : State) : Prop :=
  ∃ (ram : Memory) (u : Ppu) (chr : Memory), t = ((s.setRam ram).setPpu u).setChr chr ∧ PositionKept s.ppu u ∧
    (s.cart.chrPages ≠ 0 → chr = s.cart.chrMem)

theorem WriteShape.rfl' (s : State) : WriteShape s s :=
  ⟨s.ram, s.ppu, s.cart.chrMem, rfl, ⟨rfl, rfl, rfl, rfl, rfl, id⟩, fun _ => rfl⟩

theorem WriteShape.trans' {s t r : State} (h : WriteShape s t) (h' : WriteShape t r) : WriteShape s r := by
  obtain ⟨ram, u, chr, rfl, hu, hc⟩ := h
  obtain ⟨ram', u', chr', rfl, hu', hc'⟩ := h'
  refine ⟨ram', u', chr', rfl, ?_, fun hp => (hc' hp).trans (hc hp)⟩
  obtain ⟨p1, p2, p3, p4, p5, p6⟩ := hu
  obtain ⟨q1, q2, q3, q4, q5, q6⟩ := hu'
  exact ⟨q1.trans p1, q2.trans p2, q3.trans p3, q4.trans p4, q5.trans p5, fun h => p6 (q6 h)⟩

theorem WriteShape.setPpu' {s : State} {u : Ppu} (h : PositionKept s.ppu u) : WriteShape s (s.setPpu u) :=
  ⟨s.ram, u, s.cart.chrMem, rfl, h, fun _ => rfl⟩

theorem readEffect_shape (a : Addr) (s : State) : WriteShape s (readEffect a s) := by
  obtain ⟨vb, w, va, hv, h⟩ := readEffect_cases a s
  rw [h]
  exact WriteShape.setPpu' ⟨rfl, rfl, rfl, rfl, rfl, hv⟩

theorem vidWrite_shape (n : Nat) (v : Byte) (s : State) : WriteShape s (vidWrite n v s) := by
  unfold vidWrite
  split
  · split
    · rename_i h
      exact ⟨s.ram, s.ppu, _, rfl, ⟨rfl, rfl, rfl, rfl, rfl, id⟩, fun hp => absurd (by simpa [Cartridge.chrWritable] using h) hp⟩
    · exact WriteShape.rfl' s
  all_goals exact WriteShape.setPpu' ⟨rfl, rfl, rfl, rfl, rfl, id⟩

theorem regWrite_shape (r : PpuReg) (v : Byte) (s : State) : WriteShape s (regWrite r v s) := by
  cases r
  case data => exact (vidWrite_shape _ v s).trans' (WriteShape.setPpu' ⟨rfl, rfl, rfl, rfl, rfl, id⟩)
  case status => exact WriteShape.rfl' s
  all_goals simp only [regWrite]
  case scroll => split <;> exact WriteShape.setPpu' ⟨rfl, rfl, rfl, rfl, rfl, id⟩
  case addr => split <;> exact WriteShape.setPpu' ⟨rfl, rfl, rfl, rfl, rfl, id⟩
  all_goals exact WriteShape.setPpu' ⟨rfl, rfl, rfl, rfl, rfl, id⟩

theorem oamTransferByte_shape (v : Byte) (s : State) (i : Nat) : WriteShape s (oamTransferByte v s i) :=
  (readEffect_shape _ s).trans' (WriteShape.setPpu' ⟨rfl, rfl, rfl, rfl, rfl, id⟩)

theorem oamTransfer_shape (v : Byte) (s : State) : WriteShape s (oamTransfer v s) := by
  unfold oamTransfer
  generalize List.range 256 = l
  induction l generalizing s with
  | nil => exact WriteShape.rfl' s
  | cons i rest ih => exact (oamTransferByte_shape v s i).trans' (ih _)

theorem memWrite_shape (a : Addr) (v : Byte) (s : State) : WriteShape s (memWrite a v s) := by
  unfold memWrite
  split
  · exact ⟨s.ram.put _ v, s.ppu, s.cart.chrMem, rfl, ⟨rfl, rfl, rfl, rfl, rfl, id⟩, fun _ => rfl⟩
  · exact regWrite_shape _ v s
  · exact oamTransfer_shape v s
  all_goals exact WriteShape.rfl' s

/-- A write as an update of the storage: its own RAM, picture unit and cartridge, every other field kept. -/
theorem memWrite_eq (a : Addr) (v : Byte) (s : State) :
    memWrite a v s = { s with
      ram := (memWrite a v s).ram, ppu := (memWrite a v s).ppu, cart := (memWrite a v s).cart } := by
  obtain ⟨ram, u, chr, h, -, -⟩ := memWrite_shape a v s
  rw [h]
  rfl

/-! ### The stack and the vectors -/

/-- A push writes one RAM cell of page 1 and moves SP. -/
theorem push_eq (v : Byte) (s : State) : push v s = (s.setRam (s.ram.put (256 + s.sp.toNat) v)).setSp (s.sp - 1#8) := by
  simp [push, memWrite]

/-- A pop reads one RAM cell of page 1 and moves SP. -/
theorem pop_eq (s : State) : pop s = (s.ram.get (256 + (s.sp + 1#8).toNat), s.setSp (s.sp + 1#8)) := by
  simp [pop, memRead, readValue, readEffect]

theorem push16_eq (w : Addr) (s : State) :
    push16 w s = (s.setRam ((s.ram.put (256 + s.sp.toNat) (highByte w)).put (256 + (s.sp - 1#8).toNat) (lowByte w))).setSp
      (s.sp - 2#8) := by
  have h : s.sp - 1#8 - 1#8 = s.sp - 2#8 := by bv_omega
  simp [push16, push_eq, State.setRam, State.setSp, h]

theorem pop16_eq (s : State) :
    pop16 s = (joinBytes (s.ram.get (256 + (s.sp + 2#8).toNat)) (s.ram.get (256 + (s.sp + 1#8).toNat)), s.setSp (s.sp + 2#8)) := by
  have h : s.sp + 1#8 + 1#8 = s.sp + 2#8 := by bv_omega
  simp [pop16, pop_eq, State.setSp, h]

/-- A word read above 0x4020 reads the cartridge and changes nothing. -/
theorem memRead16_cartridge {a : Addr} (h : 0x4020 ≤ a.toNat) (h' : 0x4020 ≤ (a + 1#16).toNat) (s : State) :
    memRead16 a s = (joinBytes (s.cart.read (a + 1#16)) (s.cart.read a), s) := by
  simp [memRead16, memRead, readValue, readEffect, route_cartridge h, route_cartridge h']

/-- The interrupt sequence: three bytes of page 1, SP, the InterruptDisable flag and PC. -/
theorem enterInterrupt_eq (ret : Addr) (status : Byte) {vector : Addr} (h : 0x4020 ≤ vector.toNat)
    (h' : 0x4020 ≤ (vector + 1#16).toNat) (s : State) :
    enterInterrupt ret status vector s = { s with
      ram := ((s.ram.put (256 + s.sp.toNat) (highByte ret)).put (256 + (s.sp - 1#8).toNat) (lowByte ret)).put
        (256 + (s.sp - 2#8).toNat) status
      sp := s.sp - 3#8
      p := setFlag .interruptDisable true s.p
      pc := joinBytes (s.cart.read (vector + 1#16)) (s.cart.read vector) } := by
  have h3 : s.sp - 2#8 - 1#8 = s.sp - 3#8 := by bv_omega
  simp [enterInterrupt, push16_eq, push_eq, memRead16_cartridge h h', State.setRam, State.setSp, State.setP, State.setPc, h3]

theorem returnFromInterrupt_eq (s : State) :
    returnFromInterrupt s = { s with
      sp := s.sp + 3#8
      p := pulledStatus (s.ram.get (256 + (s.sp + 1#8).toNat))
      pc := joinBytes (s.ram.get (256 + (s.sp + 3#8).toNat)) (s.ram.get (256 + (s.sp + 2#8).toNat)) } := by
  have h2 : s.sp + 1#8 + 1#8 = s.sp + 2#8 := by bv_omega
  have h3 : s.sp + 1#8 + 2#8 = s.sp + 3#8 := by bv_omega
  simp [returnFromInterrupt, pop_eq, pop16_eq, State.setSp, State.setP, State.setPc, h2, h3]

end Sys2Proof.Machine
end

