-- ==== Sys2Proof/Laws/Encoding.lean ====
section
/-! SUPPORT. The shape of the opcode grid, and the decoder on a byte list, by the entry of its opcode byte. -/

namespace Sys2Proof

/-- The grid has sixteen rows of sixteen entries, so the defaults of `entryOf` are never used (R111). -/
theorem opGrid_complete : opGrid.length = 16 ∧ ∀ row ∈ opGrid, row.length = 16 := by
  refine ⟨rfl, fun row h => ?_⟩
  simp only [opGrid, List.mem_append, List.mem_cons, List.not_mem_nil, or_false] at h
  rcases h with (rfl | rfl | rfl | rfl | rfl | rfl | rfl | rfl) | (rfl | rfl | rfl | rfl | rfl | rfl | rfl | rfl) <;> rfl

theorem decode_f1 {op : Byte} {i : Instr} (h : entryOf op = .f1 i) (rest : List Byte) :
    decode (op :: rest) = .ok (i, rest) := by simp [decode, h]

theorem decode_f2 {op : Byte} {mk : Byte → Instr} (h : entryOf op = .f2 mk) (b : Byte) (rest : List Byte) :
    decode (op :: b :: rest) = .ok (mk b, rest) := by simp [decode, h]

theorem decode_f3 {op : Byte} {mk : Addr → Instr} (h : entryOf op = .f3 mk) (lo hi : Byte) (rest : List Byte) :
    decode (op :: lo :: hi :: rest) = .ok (mk (joinBytes hi lo), rest) := by simp [decode, h]

/-- A list of bytes holds an instruction exactly if it is as long as its opcode byte says. -/
theorem decode_isOk (op : Byte) (rest : List Byte) :
    (∃ r, decode (op :: rest) = .ok r) ↔ opLength op ≤ rest.length + 1 := by
  unfold decode opLength
  cases h : entryOf op
  · simp [h]
  · cases rest <;> simp [h]
  · cases rest with
    | nil => simp [h]
    | cons b rest => cases rest <;> simp [h]

/-- `P` holds of each entry of a row with its opcode byte, the first of which is `n`. -/
def RowAll (P : Byte → Entry → Prop) : Nat → List Entry → Prop
  | _, [] => True
  | n, e :: rest => P (BitVec.ofNat 8 n) e ∧ RowAll P (n + 1) rest

theorem RowAll.getD {P : Byte → Entry → Prop} {n k : Nat} {row : List Entry} (d : Entry) (h : RowAll P n row)
    (hk : k < row.length) : P (BitVec.ofNat 8 (n + k)) (row.getD k d) := by
  induction row generalizing n k with
  | nil => simp at hk
  | cons e rest ih =>
    cases k with
    | zero => exact h.1
    | succ k =>
      have := ih h.2 (Nat.lt_of_succ_lt_succ hk)
      rw [Nat.add_right_comm] at this
      exact this

/-- What holds of every entry of the grid holds of the entry of every opcode byte. -/
theorem entryOf_of_rows {P : Byte → Entry → Prop}
    (h0 : RowAll P 0x00 opRow0) (h1 : RowAll P 0x10 opRow1) (h2 : RowAll P 0x20 opRow2) (h3 : RowAll P
    0x30 opRow3) (h4 : RowAll P 0x40 opRow4) (h5 : RowAll P 0x50 opRow5) (h6 : RowAll P 0x60 opRow6) (h7
    : RowAll P 0x70 opRow7) (h8 : RowAll P 0x80 opRow8) (h9 : RowAll P 0x90 opRow9) (hA : RowAll P 0xA0
    opRowA) (hB : RowAll P 0xB0 opRowB) (hC : RowAll P 0xC0 opRowC) (hD : RowAll P 0xD0 opRowD) (hE :
    RowAll P 0xE0 opRowE) (hF : RowAll P 0xF0 opRowF) (op : Byte) : P op (entryOf op) := by
  obtain ⟨hi, lo, hh, hl, e⟩ : ∃ hi lo, hi < 16 ∧ lo < 16 ∧ op.toNat = 16 * hi + lo :=
    ⟨op.toNat / 16, op.toNat % 16, by have := op.isLt; omega, by omega, by omega⟩
  have eop : op = BitVec.ofNat 8 (16 * hi + lo) := by rw [← e, BitVec.ofNat_toNat, BitVec.setWidth_eq]
  have e1 : op.toNat / 16 = hi := by omega
  have e2 : op.toNat % 16 = lo := by omega
  have row : ∀ (r : List Entry), opGrid.getD hi [] = r → r.length = 16 → RowAll P (16 * hi) r → P op (entryOf op) := by
    intro r hr hlen hall
    unfold entryOf
    rw [e1, e2, hr]
    have := hall.getD (.f1 (.und op)) (hlen ▸ hl)
    rwa [← eop] at this
  interval_cases hi
  · exact row opRow0 rfl rfl h0
  · exact row opRow1 rfl rfl h1
  · exact row opRow2 rfl rfl h2
  · exact row opRow3 rfl rfl h3
  · exact row opRow4 rfl rfl h4
  · exact row opRow5 rfl rfl h5
  · exact row opRow6 rfl rfl h6
  · exact row opRow7 rfl rfl h7
  · exact row opRow8 rfl rfl h8
  · exact row opRow9 rfl rfl h9
  · exact row opRowA rfl rfl hA
  · exact row opRowB rfl rfl hB
  · exact row opRowC rfl rfl hC
  · exact row opRowD rfl rfl hD
  · exact row opRowE rfl rfl hE
  · exact row opRowF rfl rfl hF

end Sys2Proof
end

