-- ==== Sys2Proof/Laws/Flags.lean ====
section
/-! SUPPORT. The laws of the flags: reading a flag after setting one, and which flags each flag computation keeps. -/

namespace Sys2Proof.Machine

/-- A flag that was set reads as set to; every other flag reads as before. -/
@[simp] theorem getFlag_setFlag (f g : Flag) (b : Bool) (p : Byte) :
    getFlag f (setFlag g b p) = if f = g then b else getFlag f p := by
  cases f <;> cases g <;> cases b <;> simp [getFlag, setFlag, Flag.pos]

@[simp] theorem getFlag_setZN (f : Flag) (v p : Byte) :
    getFlag f (setZN v p) =
      if f = .negative then v.getLsbD 7 else if f = .zero then v == 0#8 else getFlag f p := by
  simp [setZN]

/-- Two status bytes with the same flags are the same byte. -/
theorem flags_ext {p q : Byte} (h : ∀ f : Flag, getFlag f p = getFlag f q) : p = q := by
  apply BitVec.eq_of_getLsbD_eq
  intro i hi
  have h7 := h .negative
  have h6 := h .overflow
  have h5 := h .unused
  have h4 := h .break
  have h3 := h .decimal
  have h2 := h .interruptDisable
  have h1 := h .zero
  have h0 := h .carry
  match i, hi with
  | 0, _ => exact h0
  | 1, _ => exact h1
  | 2, _ => exact h2
  | 3, _ => exact h3
  | 4, _ => exact h4
  | 5, _ => exact h5
  | 6, _ => exact h6
  | 7, _ => exact h7

/-- ADC changes Carry, Overflow, Zero and Negative. -/
theorem getFlag_addWithCarry {f : Flag} (a m p : Byte)
    (h : f ≠ .carry) (h' : f ≠ .overflow) (hz : f ≠ .zero) (hn : f ≠ .negative) :
    getFlag f (addWithCarry a m p).2 = getFlag f p := by simp [addWithCarry, h, h', hz, hn]

@[simp] theorem getFlag_compare (f : Flag) (r m p : Byte) :
    getFlag f (compare r m p) = if f = .negative then (r - m).getLsbD 7 else if f = .zero then r - m == 0#8
      else if f = .carry then decide (m.toNat ≤ r.toNat) else getFlag f p := by
  simp [compare]

@[simp] theorem getFlag_bitTest (f : Flag) (a m p : Byte) :
    getFlag f (bitTest a m p) = if f = .overflow then m.getLsbD 6 else if f = .negative then m.getLsbD 7
      else if f = .zero then (a &&& m) == 0#8 else getFlag f p := by
  simp [bitTest]

@[simp] theorem getFlag_shiftLeft (f : Flag) (v p : Byte) :
    getFlag f (shiftLeft v p).2 = if f = .negative then (v <<< 1).getLsbD 7 else if f = .zero then v <<< 1 == 0#8
      else if f = .carry then v.getLsbD 7 else getFlag f p := by
  simp only [shiftLeft, getFlag_setZN, getFlag_setFlag]

@[simp] theorem getFlag_shiftRight (f : Flag) (v p : Byte) :
    getFlag f (shiftRight v p).2 = if f = .negative then (v >>> 1).getLsbD 7 else if f = .zero then v >>> 1 == 0#8
      else if f = .carry then v.getLsbD 0 else getFlag f p := by
  simp only [shiftRight, getFlag_setZN, getFlag_setFlag]

@[simp] theorem getFlag_rotateLeft (f : Flag) (v p : Byte) :
    getFlag f (rotateLeft v p).2 = if f = .negative then (rotateLeft v p).1.getLsbD 7
      else if f = .zero then (rotateLeft v p).1 == 0#8
      else if f = .carry then v.getLsbD 7 else getFlag f p := by
  simp only [rotateLeft, getFlag_setZN, getFlag_setFlag]

@[simp] theorem getFlag_rotateRight (f : Flag) (v p : Byte) :
    getFlag f (rotateRight v p).2 = if f = .negative then (rotateRight v p).1.getLsbD 7
      else if f = .zero then (rotateRight v p).1 == 0#8
      else if f = .carry then v.getLsbD 0 else getFlag f p := by
  simp only [rotateRight, getFlag_setZN, getFlag_setFlag]

@[simp] theorem getFlag_unused_pulledStatus (v : Byte) : getFlag .unused (pulledStatus v) = true := by
  simp [getFlag, pulledStatus, Flag.pos]

theorem getFlag_pulledStatus {f : Flag} (h : f ≠ .unused) (v : Byte) : getFlag f (pulledStatus v) = getFlag f v := by
  cases f <;> simp_all [getFlag, pulledStatus, Flag.pos]

/-- The byte PHP and BRK push has Break and Unused set, and every other flag of P (R26 b, c). -/
theorem getFlag_pushedBySoftware (f : Flag) (p : Byte) :
    getFlag f (pushedBySoftware p) = (decide (f = .break) || decide (f = .unused) || getFlag f p) := by
  cases f <;> simp [getFlag, pushedBySoftware, Flag.pos]

/-- The byte IRQ and NMI entry push has Break clear, Unused set, and every other flag of P (R26 a). -/
theorem getFlag_pushedByHardware (f : Flag) (p : Byte) :
    getFlag f (pushedByHardware p) = (decide (f = .unused) || (decide (f ≠ .break) && getFlag f p)) := by
  cases f <;> simp [getFlag, pushedByHardware, Flag.pos]

end Sys2Proof.Machine
end

