-- ==== Sys2Proof/Laws/Kept.lean ====
section
/-! SUPPORT. What every instruction but the halting and the undefined opcodes keeps (`Kept`), by composition from what
each shared operation keeps, and the inversion of `exec`. -/

namespace Sys2Proof.Machine

/-! ### Every operation on storage keeps the canonical form -/

theorem ntIndex_lt (c : Cartridge) {a : Nat} (h : 0x2000 ≤ a) (h' : a < 0x3000) :
    ntIndex c a < if c.fourScreen then 4096 else 2048 := by
  have ht : (a - 0x2000) / 1024 < 4 := by omega
  unfold ntIndex ntPhys
  split
  · omega
  · split <;> omega

theorem palIndex_lt (a : Nat) : palIndex a < 32 := by
  have h : a % 32 < 32 := Nat.mod_lt _ (by decide)
  have h15 : a % 32 &&& 0x0F ≤ 0x0F := Nat.and_le_right
  simp only [palIndex]
  split <;> omega

/-- The cell of a video access is inside its memory. -/
theorem videoRoute_lt (c : Cartridge) (n : Nat) :
    match videoRoute c n with
    | .chr k => k < 8192
    | .nametable k => k < if c.fourScreen then 4096 else 2048
    | .palette k => k < 32 := by
  have hn : n % 0x4000 < 0x4000 := Nat.mod_lt _ (by decide)
  simp only [videoRoute]
  by_cases h1 : n % 0x4000 < 0x2000
  · simp [h1]
  by_cases h2 : n % 0x4000 < 0x3000
  · simpa [h1, h2] using ntIndex_lt c (by omega) h2
  by_cases h3 : n % 0x4000 < 0x3F00
  · simpa [h1, h2, h3] using ntIndex_lt c (a := n % 0x4000 - 0x1000) (by omega) (by omega)
  · simpa [h1, h2, h3] using palIndex_lt _

theorem vidWrite_canonical {s : State} (h : MemoriesCanonical s) (n : Nat) (v : Byte) :
    MemoriesCanonical (vidWrite n v s) := by
  obtain ⟨h1, h2, h3, h4, h5, h6, h7, h8, h9⟩ := h
  have hr := videoRoute_lt s.cart n
  unfold vidWrite
  split
  · rename_i k hk
    rw [hk] at hr
    split
    · rename_i hw
      have hc : s.cart.chrPages = 0 := by simpa [Cartridge.chrWritable] using hw
      refine ⟨h1, h2, h3, h4, h5, h6, h7, ?_, h9⟩
      rw [if_pos hc] at h8
      simpa [hc] using Memory.put_wf h8 hr
    · exact ⟨h1, h2, h3, h4, h5, h6, h7, h8, h9⟩
  · rename_i k hk
    rw [hk] at hr
    exact ⟨h1, h2, Memory.put_wf h3 hr, h4, h5, h6, h7, h8, h9⟩
  · rename_i k hk
    rw [hk] at hr
    exact ⟨h1, h2, h3, Memory.put_wf h4 hr, h5, h6, h7, h8, h9⟩

theorem readEffect_canonical {s : State} (h : MemoriesCanonical s) (a : Addr) : MemoriesCanonical (readEffect a s) := by
  obtain ⟨vb, w, va, -, e⟩ := readEffect_cases a s
  rw [e]
  exact h

theorem regWrite_canonical {s : State} (h : MemoriesCanonical s) (r : PpuReg) (v : Byte) :
    MemoriesCanonical (regWrite r v s) := by
  cases r
  case data => exact vidWrite_canonical h s.ppu.vramAddr.toNat v
  case oamData =>
    obtain ⟨h1, h2, h3, h4, h5, h6, h7, h8, h9⟩ := h
    exact ⟨h1, Memory.put_wf h2 s.ppu.oamAddr.isLt, h3, h4, h5, h6, h7, h8, h9⟩
  case scroll =>
    simp only [regWrite]
    split <;> exact h
  case addr =>
    simp only [regWrite]
    split <;> exact h
  all_goals exact h

theorem oamTransferByte_canonical {s : State} (h : MemoriesCanonical s) (v : Byte) (i : Nat) :
    MemoriesCanonical (oamTransferByte v s i) := by
  obtain ⟨h1, h2, h3, h4, h5, h6, h7, h8, h9⟩ := readEffect_canonical h (joinBytes v (BitVec.ofNat 8 i))
  exact ⟨h1, Memory.put_wf h2 (Nat.mod_lt _ (by decide)), h3, h4, h5, h6, h7, h8, h9⟩

theorem oamTransfer_canonical {s : State} (h : MemoriesCanonical s) (v : Byte) : MemoriesCanonical (oamTransfer v s) := by
  unfold oamTransfer
  generalize List.range 256 = l
  induction l generalizing s with
  | nil => exact h
  | cons i rest ih => exact ih (oamTransferByte_canonical h v i)

/-- Every write keeps the canonical form of every memory. -/
theorem memWrite_canonical {s : State} (h : MemoriesCanonical s) (a : Addr) (v : Byte) :
    MemoriesCanonical (memWrite a v s) := by
  unfold memWrite
  split
  · rename_i k hk
    exact ⟨Memory.put_wf h.1 (route_ram_lt hk), h.2⟩
  · exact regWrite_canonical h _ v
  · exact oamTransfer_canonical h v
  all_goals exact h

/-! ### What an operation keeps -/

/-- What an instruction keeps: the picture unit's position and frame buffers, the NMI latch, the halt flag, the
parameters, the input and event streams, the cartridge but for character RAM, the cycles already counted, the Unused
bit, and the canonical form. -/
structure Kept (s t : State) : Prop where
  position : PositionKept s.ppu t.ppu
  nmi : t.nmiPending = s.nmiPending
  halted : t.halted = s.halted
  config : t.config = s.config
  inputs : t.inputs = s.inputs
  events : t.events = s.events
  cart : t.cart = { s.cart with chrMem := t.cart.chrMem }
  rom : s.cart.chrPages ≠ 0 → t.cart.chrMem = s.cart.chrMem
  cyc : s.cyc ≤ t.cyc
  unused : UnusedBitSet s → UnusedBitSet t
  canonical : MemoriesCanonical s → MemoriesCanonical t

theorem Kept.rfl' (s : State) : Kept s s where
  position := ⟨rfl, rfl, rfl, rfl, rfl, id⟩
  nmi := rfl
  halted := rfl
  config := rfl
  inputs := rfl
  events := rfl
  cart := rfl
  rom := fun _ => rfl
  cyc := Nat.le_refl _
  unused := id
  canonical := id

theorem Kept.trans' {s t r : State} (h : Kept s t) (h' : Kept t r) : Kept s r where
  position := by
    obtain ⟨p1, p2, p3, p4, p5, p6⟩ := h.position
    obtain ⟨q1, q2, q3, q4, q5, q6⟩ := h'.position
    exact ⟨q1.trans p1, q2.trans p2, q3.trans p3, q4.trans p4, q5.trans p5, fun h => p6 (q6 h)⟩
  nmi := h'.nmi.trans h.nmi
  halted := h'.halted.trans h.halted
  config := h'.config.trans h.config
  inputs := h'.inputs.trans h.inputs
  events := h'.events.trans h.events
  cart := by
    have e := h'.cart
    rw [h.cart] at e
    exact e
  rom := fun hp => by
    have hp' : t.cart.chrPages ≠ 0 := by
      rw [h.cart]
      exact hp
    exact (h'.rom hp').trans (h.rom hp)
  cyc := Nat.le_trans h.cyc h'.cyc
  unused := fun hu => h'.unused (h.unused hu)
  canonical := fun hc => h'.canonical (h.canonical hc)

section Updates

variable {s t : State}

/-- A change of A, X, Y, SP, PC alone is kept through. -/
theorem Kept.registers (h : Kept s t) (a x y sp : Byte) (pc : Addr) :
    Kept s { t with a := a, x := x, y := y, sp := sp, pc := pc } := h.trans'
  { Kept.rfl' t with unused := id, canonical := id, cyc := Nat.le_refl _ }

theorem Kept.setA (h : Kept s t) (v : Byte) : Kept s (t.setA v) := h.registers v t.x t.y t.sp t.pc
theorem Kept.setX (h : Kept s t) (v : Byte) : Kept s (t.setX v) := h.registers t.a v t.y t.sp t.pc
theorem Kept.setY (h : Kept s t) (v : Byte) : Kept s (t.setY v) := h.registers t.a t.x v t.sp t.pc
theorem Kept.setSp (h : Kept s t) (v : Byte) : Kept s (t.setSp v) := h.registers t.a t.x t.y v t.pc
theorem Kept.setPc (h : Kept s t) (v : Addr) : Kept s (t.setPc v) := h.registers t.a t.x t.y t.sp v

/-- A status byte whose Unused bit is set whenever the old one's is. -/
theorem Kept.setP (h : Kept s t) {q : Byte} (hq : getFlag .unused t.p = true → getFlag .unused q = true) :
    Kept s (t.setP q) := h.trans'
  { Kept.rfl' t with unused := hq, canonical := id, cyc := Nat.le_refl _ }

theorem Kept.addCycles (h : Kept s t) (n : Nat) : Kept s (t.addCycles n) := h.trans'
  { Kept.rfl' t with unused := id, canonical := id, cyc := Nat.le_add_right _ _ }

theorem Kept.ofShape (h : WriteShape s t) (hc : MemoriesCanonical s → MemoriesCanonical t) : Kept s t := by
  obtain ⟨ram, u, chr, rfl, hu, hrom⟩ := h
  exact { Kept.rfl' s with
    position := hu, cart := rfl, rom := hrom, canonical := hc, unused := id, cyc := Nat.le_refl _ }

theorem Kept.readEffect (h : Kept s t) (a : Addr) : Kept s (readEffect a t) :=
  h.trans' (Kept.ofShape (readEffect_shape a t) fun hc => readEffect_canonical hc a)

theorem Kept.memWrite (h : Kept s t) (a : Addr) (v : Byte) : Kept s (memWrite a v t) :=
  h.trans' (Kept.ofShape (memWrite_shape a v t) fun hc => memWrite_canonical hc a v)

theorem Kept.memRead (h : Kept s t) (a : Addr) : Kept s (memRead a t).2 := h.readEffect a

theorem Kept.memRead16 (h : Kept s t) (a : Addr) : Kept s (memRead16 a t).2 := (h.readEffect a).readEffect _

theorem Kept.push (h : Kept s t) (v : Byte) : Kept s (push v t) := (h.memWrite _ v).setSp _

theorem Kept.push16 (h : Kept s t) (w : Addr) : Kept s (push16 w t) := (h.push _).push _

theorem Kept.pop (h : Kept s t) : Kept s (pop t).2 := (h.setSp _).memRead _

theorem Kept.pop16 (h : Kept s t) : Kept s (pop16 t).2 := h.pop.pop

theorem Kept.enterInterrupt (h : Kept s t) (ret : Addr) (status : Byte) (vector : Addr) :
    Kept s (enterInterrupt ret status vector t) := by
  have h1 := (h.push16 ret).push status
  exact ((h1.setP (q := setFlag .interruptDisable true _) (by simp)).memRead16 vector).setPc _

theorem Kept.returnFromInterrupt (h : Kept s t) : Kept s (returnFromInterrupt t) :=
  ((h.pop.setP (by simp)).pop16).setPc _

theorem Kept.toNext (h : Kept s t) (i : Instr) : Kept s (toNext i t) := h.setPc _

theorem Kept.spend (h : Kept s t) (i : Instr) (n : Nat) : Kept s (spend i n t) := h.addCycles _

theorem Kept.srcEffect (h : Kept s t) (o : Src) : Kept s (srcEffect o t) := by
  cases o
  · exact h
  · exact h.readEffect _

theorem Kept.jumpTarget (h : Kept s t) (g : Target) : Kept s (jumpTarget g t).2 := by
  cases g
  · exact h
  · exact (h.memRead _).memRead _

end Updates

/-! ### The step shapes -/

/-- An answer that is a next state, and one that keeps what `Kept` says. -/
abbrev NextKept (s : State) (r : Result) : Prop := ∃ t, r = .next t ∧ Kept s t

theorem readStep_kept (i : Instr) (o : Src) (f : Byte → State → State) (s : State)
    (hf : ∀ m t, Kept s t → Kept s (f m t)) : NextKept s (readStep i o f s) :=
  ⟨_, rfl, (hf _ _ (((Kept.rfl' s).toNext i).srcEffect o)).spend _ _⟩

theorem storeStep_kept (i : Instr) (m : Mem) (v : Byte) (s : State) : NextKept s (storeStep i m v s) :=
  ⟨_, rfl, (((Kept.rfl' s).toNext i).memWrite _ _).spend _ _⟩

theorem modifyMemStep_kept (i : Instr) (m : Mem) (f : Byte → Byte → Byte × Byte) (s : State)
    (hf : ∀ v p, getFlag .unused p = true → getFlag .unused (f v p).2 = true) : NextKept s (modifyMemStep i m f s) := by
  refine ⟨_, rfl, Kept.spend (Kept.setP (((((Kept.rfl' s).toNext i).readEffect _).memWrite _ _)) fun h => hf _ _ ?_) _ _⟩
  rw [memWrite_eq, readEffect_eq] at h
  exact h

theorem modifyStep_kept (i : Instr) (d : Dst) (f : Byte → Byte → Byte × Byte) (s : State)
    (hf : ∀ v p, getFlag .unused p = true → getFlag .unused (f v p).2 = true) : NextKept s (modifyStep i d f s) := by
  cases d
  · exact ⟨_, rfl, ((((Kept.rfl' s).toNext i).setA _).setP (hf _ _)).spend _ _⟩
  · exact modifyMemStep_kept i _ f s hf

theorem plainStep_kept (i : Instr) (f : State → State) (s : State) (hf : ∀ t, Kept s t → Kept s (f t)) :
    NextKept s (plainStep i f s) :=
  ⟨_, rfl, (hf _ ((Kept.rfl' s).toNext i)).spend _ _⟩

theorem branchStep_kept (i : Instr) (taken : Bool) (b : Byte) (s : State) : NextKept s (branchStep i taken b s) := by
  cases taken
  · exact ⟨_, rfl, ((Kept.rfl' s).toNext i).spend _ _⟩
  · exact ⟨_, rfl, (((Kept.rfl' s).toNext i).setPc _).spend _ _⟩

/-- The instruction is neither a halting nor an undefined opcode. -/
def documented : Instr → Bool
  | .kil _ => false
  | .und _ => false
  | _ => true

/-- Every documented instruction answers a next state that keeps what `Kept` says. -/
theorem exec_kept (i : Instr) (hi : documented i = true) (s : State) : NextKept s (exec i s) := by
  cases i
  case lda o =>
    show NextKept s (execLda o s)
    unfold execLda
    exact readStep_kept _ o _ s fun m t h => (h.setA m).setP (by simp)
  case ldx o =>
    show NextKept s (execLdx o s)
    unfold execLdx
    exact readStep_kept _ o _ s fun m t h => (h.setX m).setP (by simp)
  case ldy o =>
    show NextKept s (execLdy o s)
    unfold execLdy
    exact readStep_kept _ o _ s fun m t h => (h.setY m).setP (by simp)
  case sta m =>
    show NextKept s (execSta m s)
    unfold execSta
    exact storeStep_kept _ m _ s
  case stx m =>
    show NextKept s (execStx m s)
    unfold execStx
    exact storeStep_kept _ m _ s
  case sty m =>
    show NextKept s (execSty m s)
    unfold execSty
    exact storeStep_kept _ m _ s
  case tax =>
    show NextKept s (execTax s)
    unfold execTax
    exact plainStep_kept _ _ s fun t h => (h.setX _).setP (by simp)
  case tay =>
    show NextKept s (execTay s)
    unfold execTay
    exact plainStep_kept _ _ s fun t h => (h.setY _).setP (by simp)
  case txa =>
    show NextKept s (execTxa s)
    unfold execTxa
    exact plainStep_kept _ _ s fun t h => (h.setA _).setP (by simp)
  case tya =>
    show NextKept s (execTya s)
    unfold execTya
    exact plainStep_kept _ _ s fun t h => (h.setA _).setP (by simp)
  case tsx =>
    show NextKept s (execTsx s)
    unfold execTsx
    exact plainStep_kept _ _ s fun t h => (h.setX _).setP (by simp)
  case txs =>
    show NextKept s (execTxs s)
    unfold execTxs
    exact plainStep_kept _ _ s fun t h => h.setSp _
  case ora o =>
    show NextKept s (execOra o s)
    unfold execOra logicStep
    exact readStep_kept _ o _ s fun m t h => (h.setA _).setP (by simp)
  case and o =>
    show NextKept s (execAnd o s)
    unfold execAnd logicStep
    exact readStep_kept _ o _ s fun m t h => (h.setA _).setP (by simp)
  case eor o =>
    show NextKept s (execEor o s)
    unfold execEor logicStep
    exact readStep_kept _ o _ s fun m t h => (h.setA _).setP (by simp)
  case adc o =>
    show NextKept s (execAdc o s)
    unfold execAdc sumStep
    exact readStep_kept _ o _ s fun m t h => (h.setA _).setP (by simp [getFlag_addWithCarry])
  case sbc o =>
    show NextKept s (execSbc o s)
    unfold execSbc sumStep
    exact readStep_kept _ o _ s fun m t h => (h.setA _).setP (by simp [subWithBorrow, getFlag_addWithCarry])
  case cmp o =>
    show NextKept s (execCmp o s)
    unfold execCmp
    exact readStep_kept _ o _ s fun m t h => h.setP (by simp)
  case cpx o =>
    show NextKept s (execCpx o s)
    unfold execCpx
    exact readStep_kept _ o _ s fun m t h => h.setP (by simp)
  case cpy o =>
    show NextKept s (execCpy o s)
    unfold execCpy
    exact readStep_kept _ o _ s fun m t h => h.setP (by simp)
  case bit m =>
    show NextKept s (execBit m s)
    unfold execBit
    exact readStep_kept _ (.mem m) _ s fun m t h => h.setP (by simp)
  case inc m =>
    show NextKept s (execInc m s)
    unfold execInc
    exact modifyMemStep_kept _ m _ s (fun v p h => by simpa [increment] using h)
  case dec m =>
    show NextKept s (execDec m s)
    unfold execDec
    exact modifyMemStep_kept _ m _ s (fun v p h => by simpa [decrement] using h)
  case inx =>
    show NextKept s (execInx s)
    unfold execInx
    exact plainStep_kept _ _ s fun t h => (h.setX _).setP (by simp [increment])
  case iny =>
    show NextKept s (execIny s)
    unfold execIny
    exact plainStep_kept _ _ s fun t h => (h.setY _).setP (by simp [increment])
  case dex =>
    show NextKept s (execDex s)
    unfold execDex
    exact plainStep_kept _ _ s fun t h => (h.setX _).setP (by simp [decrement])
  case dey =>
    show NextKept s (execDey s)
    unfold execDey
    exact plainStep_kept _ _ s fun t h => (h.setY _).setP (by simp [decrement])
  case asl d =>
    show NextKept s (execAsl d s)
    unfold execAsl
    exact modifyStep_kept _ d _ s (fun v p h => by simpa using h)
  case lsr d =>
    show NextKept s (execLsr d s)
    unfold execLsr
    exact modifyStep_kept _ d _ s (fun v p h => by simpa using h)
  case rol d =>
    show NextKept s (execRol d s)
    unfold execRol
    exact modifyStep_kept _ d _ s (fun v p h => by simpa using h)
  case ror d =>
    show NextKept s (execRor d s)
    unfold execRor
    exact modifyStep_kept _ d _ s (fun v p h => by simpa using h)
  case jmp g =>
    show NextKept s (execJmp g s)
    unfold execJmp
    exact plainStep_kept _ _ s fun t h => (h.jumpTarget g).setPc _
  case jsr w =>
    show NextKept s (execJsr w s)
    unfold execJsr
    exact plainStep_kept _ _ s fun t h => (h.push16 _).setPc _
  case rts =>
    show NextKept s (execRts s)
    unfold execRts
    exact plainStep_kept _ _ s fun t h => h.pop16.setPc _
  case bpl b =>
    show NextKept s (execBpl b s)
    unfold execBpl
    exact branchStep_kept _ _ b s
  case bmi b =>
    show NextKept s (execBmi b s)
    unfold execBmi
    exact branchStep_kept _ _ b s
  case bvc b =>
    show NextKept s (execBvc b s)
    unfold execBvc
    exact branchStep_kept _ _ b s
  case bvs b =>
    show NextKept s (execBvs b s)
    unfold execBvs
    exact branchStep_kept _ _ b s
  case bcc b =>
    show NextKept s (execBcc b s)
    unfold execBcc
    exact branchStep_kept _ _ b s
  case bcs b =>
    show NextKept s (execBcs b s)
    unfold execBcs
    exact branchStep_kept _ _ b s
  case bne b =>
    show NextKept s (execBne b s)
    unfold execBne
    exact branchStep_kept _ _ b s
  case beq b =>
    show NextKept s (execBeq b s)
    unfold execBeq
    exact branchStep_kept _ _ b s
  case pha =>
    show NextKept s (execPha s)
    unfold execPha
    exact plainStep_kept _ _ s fun t h => h.push _
  case php =>
    show NextKept s (execPhp s)
    unfold execPhp
    exact plainStep_kept _ _ s fun t h => h.push _
  case pla =>
    show NextKept s (execPla s)
    unfold execPla
    exact plainStep_kept _ _ s fun t h => (h.pop.setA _).setP (by simp [pop_eq])
  case plp =>
    show NextKept s (execPlp s)
    unfold execPlp
    exact plainStep_kept _ _ s fun t h => h.pop.setP (by simp)
  case clc =>
    show NextKept s (execClc s)
    unfold execClc
    exact plainStep_kept _ _ s fun t h => h.setP (by simp)
  case sec =>
    show NextKept s (execSec s)
    unfold execSec
    exact plainStep_kept _ _ s fun t h => h.setP (by simp)
  case cli =>
    show NextKept s (execCli s)
    unfold execCli
    exact plainStep_kept _ _ s fun t h => h.setP (by simp)
  case sei =>
    show NextKept s (execSei s)
    unfold execSei
    exact plainStep_kept _ _ s fun t h => h.setP (by simp)
  case cld =>
    show NextKept s (execCld s)
    unfold execCld
    exact plainStep_kept _ _ s fun t h => h.setP (by simp)
  case sed =>
    show NextKept s (execSed s)
    unfold execSed
    exact plainStep_kept _ _ s fun t h => h.setP (by simp)
  case clv =>
    show NextKept s (execClv s)
    unfold execClv
    exact plainStep_kept _ _ s fun t h => h.setP (by simp)
  case nop =>
    show NextKept s (execNop s)
    unfold execNop
    exact plainStep_kept _ _ s fun t h => h
  case brk =>
    show NextKept s (execBrk s)
    unfold execBrk
    exact ⟨_, rfl, ((Kept.rfl' s).enterInterrupt _ _ _).spend _ _⟩
  case rti =>
    show NextKept s (execRti s)
    unfold execRti
    exact plainStep_kept _ _ s fun t h => h.returnFromInterrupt
  case kil op => cases hi
  case und op => cases hi

/-- A hardware interrupt's entry keeps what an instruction keeps, but for the NMI latch, which it can only clear. -/
theorem raiseInterrupt_kept (k : InterruptKind) (s : State) :
    Kept (s.setNmi (raiseInterrupt k s).nmiPending) (raiseInterrupt k s) ∧
      ((raiseInterrupt k s).nmiPending = true → s.nmiPending = true) := by
  cases k
  · refine ⟨?_, by simp [raiseInterrupt]⟩
    have h := (Kept.rfl' s).enterInterrupt s.pc (pushedByHardware s.p) nmiVector
    exact { h with nmi := rfl, cyc := Nat.le_trans h.cyc (Nat.le_add_right _ _) }
  · have h := (Kept.rfl' s).enterInterrupt s.pc (pushedByHardware s.p) irqVector
    refine ⟨?_, fun hn => ?_⟩
    · exact { h with nmi := rfl, cyc := Nat.le_trans h.cyc (Nat.le_add_right _ _) }
    · have e : (raiseInterrupt .irq s).nmiPending = s.nmiPending := h.nmi
      exact e ▸ hn

end Sys2Proof.Machine
end

