-- ==== Sys2Proof/Laws/Operands.lean ====
section
/-! SUPPORT. What each shape of a step can do: reading an operand, storing at an effective address, pushing, popping;
each said once, in the terms of Safety.lean. -/

namespace Sys2Proof.Machine

/-! ### Where an address goes, the other way round -/

/-- The six targets of the main path, each with its addresses. -/
theorem route_cases (a : Addr) :
    (a.toNat < 0x2000 ∧ route a = .ram (a.toNat % 0x800)) ∨ (InWindow a ∧ route a = .register (regOf a)) ∨
    (a = 0x4014#16 ∧ route a = .oamTrigger) ∨
    (a ≠ 0x4014#16 ∧ 0x4000 ≤ a.toNat ∧ a.toNat < 0x4018 ∧ route a = .stub) ∨
    (0x4018 ≤ a.toNat ∧ a.toNat < 0x4020 ∧ route a = .unmapped) ∨ (0x4020 ≤ a.toNat ∧ route a = .cartridge) := by
  by_cases h1 : a.toNat < 0x2000
  · exact .inl ⟨h1, route_ram h1⟩
  by_cases h2 : a.toNat ≤ 0x3FFF
  · exact .inr (.inl ⟨⟨by omega, h2⟩, route_window (by omega) h2⟩)
  by_cases h3 : a = 0x4014#16
  · exact .inr (.inr (.inl ⟨h3, h3 ▸ by decide⟩))
  have h3' : ¬ a.toNat = 0x4014 := fun h => h3 (BitVec.eq_of_toNat_eq h)
  have h4 : ¬ a.toNat < 0x4000 := by omega
  by_cases h5 : a.toNat < 0x4018
  · exact .inr (.inr (.inr (.inl ⟨h3, by omega, h5, by simp [route, h1, h4, h3', h5]⟩)))
  by_cases h6 : a.toNat < 0x4020
  · exact .inr (.inr (.inr (.inr (.inl ⟨by omega, h6, by simp [route, h1, h4, h3', h5, h6]⟩))))
  · exact .inr (.inr (.inr (.inr (.inr ⟨by omega, route_cartridge (by omega)⟩))))

theorem route_not_register {a : Addr} (h : ¬ InWindow a) (r : PpuReg) : route a ≠ .register r := by
  intro e
  rcases route_cases a with ⟨_, h2⟩ | ⟨h1, _⟩ | ⟨_, h2⟩ | ⟨_, _, _, h2⟩ | ⟨_, _, h2⟩ | ⟨_, h2⟩
  case inr.inl => exact h h1
  all_goals (rw [e] at h2; cases h2)

/-- Outside the register window a read has no side effect. -/
theorem readEffect_outside {a : Addr} (h : ¬ InWindow a) (s : State) : readEffect a s = s :=
  readEffect_of_not_register (route_not_register h) s

/-- What a read outside the register window returns depends on RAM and program ROM alone. -/
theorem readValue_outside {a : Addr} (h : ¬ InWindow a) {s t : State} (hr : t.ram = s.ram)
    (hc : t.cart = { s.cart with chrMem := t.cart.chrMem }) : readValue a t = readValue a s := by
  unfold readValue
  split
  · rw [hr]
  · rename_i r e
    exact absurd e (route_not_register h r)
  · rfl
  · rfl
  · rfl
  · rw [hc]
    rfl

theorem inWindow_stackAddr (b : Byte) : ¬ InWindow (stackAddr b) := by
  have hb := b.isLt
  have h : (stackAddr b).toNat = 0x01 * 256 + b.toNat := toNat_joinBytes _ _
  unfold InWindow
  omega

theorem stackAddr_ne_trigger (b : Byte) : stackAddr b ≠ 0x4014#16 := by
  intro h
  have e := route_stackAddr b
  rw [h, show route 0x4014#16 = .oamTrigger by decide] at e
  cases e

/-! ### The operand does not depend on PC -/

section

variable (s : State) (pc : Addr)

@[simp] theorem readValue_setPc (a : Addr) : readValue a (s.setPc pc) = readValue a s :=
  readValue_congr ⟨rfl, rfl, rfl⟩ a

@[simp] theorem effAddr_setPc (m : Mem) : effAddr m (s.setPc pc) = effAddr m s := by
  cases m <;> simp [effAddr, baseAddr, zeroPagePointer]

@[simp] theorem crossed_setPc (m : Mem) : crossed m (s.setPc pc) = crossed m s := by
  cases m <;> simp [crossed, effAddr, baseAddr, zeroPagePointer]

@[simp] theorem crossingPenalty_setPc (o : Src) : crossingPenalty o (s.setPc pc) = crossingPenalty o s := by
  cases o with
  | imm b => rfl
  | mem m => cases m <;> simp [crossingPenalty]

@[simp] theorem srcValue_setPc (o : Src) : srcValue o (s.setPc pc) = srcValue o s := by
  cases o <;> simp [srcValue]

@[simp] theorem srcEffect_setPc_ppu (o : Src) : (srcEffect o (s.setPc pc)).ppu = (srcEffect o s).ppu := by
  cases o with
  | imm b => rfl
  | mem m => simpa [srcEffect] using readEffect_congr (s := s) (t := s.setPc pc) ⟨rfl, rfl, rfl⟩ (effAddr m s)

end

/-! ### Reading an operand -/

/-- Reading a source operand changes the picture unit only. -/
theorem srcEffect_eq (o : Src) (s : State) : srcEffect o s = s.setPpu (srcEffect o s).ppu := by
  cases o with
  | imm b => rfl
  | mem m => exact readEffect_eq _ s

theorem vidRead_readEffect (a : Addr) (s : State) (n : Nat) : vidRead (readEffect a s) n = vidRead s n := by
  obtain ⟨vb, w, va, -, e⟩ := readEffect_cases a s
  rw [e]
  rfl

theorem storageKept_of {s t : State} (h : SameStorage s t) : StorageKept s t :=
  ⟨readValue_congr h, vidRead_congr h, h.2.1, h.2.2⟩

theorem srcEffect_setPc (s : State) (pc : Addr) (o : Src) :
    srcEffect o (s.setPc pc) = (s.setPc pc).setPpu (srcEffect o s).ppu := by
  rw [srcEffect_eq, srcEffect_setPc_ppu]

/-- A state whose storage is that after the operand's read. -/
theorem operandRead_of {o : Src} {s t : State} (hr : t.ram = s.ram) (hu : t.ppu = (srcEffect o s).ppu)
    (hc : t.cart = s.cart) : OperandRead o s t := by
  refine ⟨hu, hc, fun n => ?_, ⟨hr, fun a ha => readValue_outside ha hr (by rw [hc])⟩, fun h => ?_⟩
  · have e : vidRead t n = vidRead (srcEffect o s) n := by
      refine vidRead_congr (s := srcEffect o s) ⟨?_, hu, ?_⟩ n
      · rw [srcEffect_eq]
        exact hr
      · rw [srcEffect_eq]
        exact hc
    rw [e]
    cases o
    · rfl
    · exact vidRead_readEffect _ s n
  · refine storageKept_of ⟨hr, hu.trans ?_, hc⟩
    cases o with
    | imm b => rfl
    | mem m => simp only [srcEffect, readEffect_outside (h m rfl)]

/-! ### Storing -/

/-- A write outside RAM, the register window and the trigger does nothing. -/
theorem memWrite_other {a : Addr} (hr : ∀ k, route a ≠ .ram k) (hw : ¬ InWindow a) (ht : a ≠ 0x4014#16) (v : Byte)
    (s : State) : memWrite a v s = s := by
  rcases route_cases a with ⟨_, h2⟩ | ⟨h1, _⟩ | ⟨h1, _⟩ | ⟨_, _, _, h2⟩ | ⟨_, _, h2⟩ | ⟨_, h2⟩
  · exact absurd h2 (hr _)
  · exact absurd h1 hw
  · exact absurd h1 ht
  all_goals simp [memWrite, h2]

theorem vidWrite_ram (n : Nat) (v : Byte) (s : State) : (vidWrite n v s).ram = s.ram := by
  unfold vidWrite
  split
  · split <;> rfl
  · rfl
  · rfl

/-- A write outside RAM keeps RAM. -/
theorem memWrite_ram {a : Addr} (hr : ∀ k, route a ≠ .ram k) (v : Byte) (s : State) : (memWrite a v s).ram = s.ram := by
  unfold memWrite
  split
  · rename_i k e
    exact absurd e (hr k)
  · rename_i r _
    cases r
    case data => exact vidWrite_ram _ v s
    case scroll =>
      simp only [regWrite]
      split <;> rfl
    case addr =>
      simp only [regWrite]
      split <;> rfl
    all_goals rfl
  · unfold oamTransfer
    generalize List.range 256 = l
    induction l generalizing s with
    | nil => rfl
    | cons i rest ih =>
      refine (ih (oamTransferByte v s i)).trans ?_
      simp only [oamTransferByte, memRead]
      rw [readEffect_eq]
      rfl
  all_goals rfl

theorem memWrite_cart (a : Addr) (v : Byte) (s : State) :
    (memWrite a v s).cart = { s.cart with chrMem := (memWrite a v s).cart.chrMem } := by
  obtain ⟨ram, u, chr, e, -, -⟩ := memWrite_shape a v s
  rw [e]
  rfl

/-- A state whose storage is that after a store, the state before it having the storage of `s` but for the side effect of
a read at the same address. -/
theorem stored_of {ea : Addr} {v : Byte} {s1 s t : State} (h1 : s1 = s ∨ SameStorage (readEffect ea s) s1)
    (h : SameStorage (memWrite ea v s1) t) : Stored ea v s1 s t := by
  obtain ⟨hr, hu, hc⟩ := h
  have ram1 : s1.ram = s.ram := by
    rcases h1 with rfl | h1
    · rfl
    · rw [h1.1, readEffect_eq]
      rfl
  have cart1 : s1.cart = s.cart := by
    rcases h1 with rfl | h1
    · rfl
    · rw [h1.2.2, readEffect_eq]
      rfl
  have ppu1 : ¬ InWindow ea → s1.ppu = s.ppu := fun hw => by
    rcases h1 with rfl | h1
    · rfl
    · rw [h1.2.1, readEffect_outside hw]
  have cart2 : t.cart = { s.cart with chrMem := t.cart.chrMem } := by
    rw [hc, memWrite_cart, cart1]
  refine ⟨hr, hu, hc, fun a ha hs => ?_, fun hw ht => ?_, fun hcan a ha => ?_⟩
  · by_cases hram : ∃ k, route ea = .ram k
    · obtain ⟨k, hk⟩ := hram
      have hea : ea.toNat < 0x2000 ∧ k = ea.toNat % 0x800 := by
        rcases route_cases ea with ⟨g1, g2⟩ | ⟨_, g2⟩ | ⟨_, g2⟩ | ⟨_, _, _, g2⟩ | ⟨_, _, g2⟩ | ⟨_, g2⟩
        case inl =>
          rw [g2] at hk
          cases hk
          exact ⟨g1, rfl⟩
        all_goals (rw [g2] at hk; cases hk)
      rcases route_cases a with ⟨g1, g2⟩ | ⟨g1, _⟩ | ⟨_, g2⟩ | ⟨_, _, _, g2⟩ | ⟨_, _, g2⟩ | ⟨_, g2⟩
      · have hne : a.toNat % 0x800 ≠ k := fun e => hs ⟨g1, hea.1, e.trans hea.2⟩
        simp only [readValue, g2, hr, memWrite, hk, State.setRam_ram, ram1]
        exact Memory.get_put_other hne
      · exact absurd g1 ha
      · simp [readValue, g2]
      · simp [readValue, g2]
      · simp [readValue, g2]
      · simp only [readValue, g2]
        rw [cart2]
        rfl
    · refine readValue_outside ha ?_ cart2
      rw [hr, memWrite_ram (fun k e => hram ⟨k, e⟩), ram1]
  · have hcart : t.cart = s.cart := by
      by_cases hram : ∃ k, route ea = .ram k
      · obtain ⟨k, hk⟩ := hram
        rw [hc]
        simpa [memWrite, hk] using cart1
      · rw [hc, memWrite_other (fun k e => hram ⟨k, e⟩) hw ht, cart1]
    have hppu : t.ppu = s.ppu := by
      by_cases hram : ∃ k, route ea = .ram k
      · obtain ⟨k, hk⟩ := hram
        rw [hu]
        simpa [memWrite, hk] using ppu1 hw
      · rw [hu, memWrite_other (fun k e => hram ⟨k, e⟩) hw ht, ppu1 hw]
    refine ⟨hppu, hcart, fun n => by simp [vidRead, hppu, hcart], fun a hs => ?_⟩
    by_cases ha : InWindow a
    · simp only [readValue, route_window ha.1 ha.2]
      cases regOf a <;> simp [regValue, vidRead, hppu, hcart]
    · by_cases hram : ∃ k, route ea = .ram k
      · obtain ⟨k, hk⟩ := hram
        rcases route_cases ea with ⟨e1, e2⟩ | ⟨_, e2⟩ | ⟨_, e2⟩ | ⟨_, _, _, e2⟩ | ⟨_, _, e2⟩ | ⟨_, e2⟩
        case inl =>
          rcases route_cases a with ⟨g1, g2⟩ | ⟨g1, _⟩ | ⟨_, g2⟩ | ⟨_, _, _, g2⟩ | ⟨_, _, g2⟩ | ⟨_, g2⟩
          · have hne : a.toNat % 0x800 ≠ ea.toNat % 0x800 := fun e => hs ⟨g1, e1, e⟩
            simp only [readValue, g2, hr, memWrite, e2, State.setRam_ram, ram1]
            exact Memory.get_put_other hne
          · exact absurd g1 ha
          · simp [readValue, g2]
          · simp [readValue, g2]
          · simp [readValue, g2]
          · simp [readValue, g2, hcart]
        all_goals (rw [e2] at hk; cases hk)
      · refine readValue_outside ha ?_ cart2
        rw [hr, memWrite_ram (fun k e => hram ⟨k, e⟩), ram1]
  · obtain ⟨g1, g2, g3⟩ := ha
    simp only [readValue, route_ram g1, hr, memWrite, route_ram g2, State.setRam_ram, ram1, g3]
    exact Memory.get_put_same hcan.1

/-! ### The stack -/

/-- A write of RAM cells: every other byte is kept. -/
theorem stacked_nil {s t : State} (h : SameStorage s t) : Stacked [] s t :=
  ⟨h.2.1, h.2.2, vidRead_congr h, fun a _ => readValue_congr h a, fun _ c hc => by cases hc⟩

/-- One more byte on the stack. -/
theorem stacked_cons {cells : List (Addr × Byte)} {sp v : Byte} {s s1 t : State} (hs : Stacked cells s s1)
    (hn : ∀ c ∈ cells, ¬ SameCell c.1 (stackAddr sp)) (hcan : MemoriesCanonical s → MemoriesCanonical s1)
    (h : SameStorage (memWrite (stackAddr sp) v s1) t) : Stacked (cells ++ [(stackAddr sp, v)]) s t := by
  obtain ⟨-, -, -, -, k5, k6⟩ := stored_of (s1 := s1) (s := s1) (.inl rfl) h
  obtain ⟨k7, k8, k9, k10⟩ := k5 (inWindow_stackAddr sp) (stackAddr_ne_trigger sp)
  obtain ⟨s1', s2, s3, s4, s5⟩ := hs
  refine ⟨k7.trans s1', k8.trans s2, fun n => (k9 n).trans (s3 n), fun a ha => ?_, fun hm c hc a ha => ?_⟩
  · exact (k10 a (ha (stackAddr sp, v) (by simp))).trans (s4 a fun c hc => ha c (by simp [hc]))
  · rcases List.mem_append.mp hc with hc | hc
    · refine (k10 a fun e => hn c hc ?_).trans (s5 hm c hc a ha)
      obtain ⟨a1, a2, a3⟩ := ha
      obtain ⟨e1, e2, e3⟩ := e
      exact ⟨a2, e2, a3.symm.trans e3⟩
    · simp only [List.mem_singleton] at hc
      subst hc
      exact k6 (hcan hm) a ha

theorem sameCell_stackAddr {b c : Byte} (h : SameCell (stackAddr b) (stackAddr c)) : b = c := by
  obtain ⟨-, -, h⟩ := h
  have hb := b.isLt
  have hc := c.isLt
  have e1 : (stackAddr b).toNat = 0x01 * 256 + b.toNat := toNat_joinBytes _ _
  have e2 : (stackAddr c).toNat = 0x01 * 256 + c.toNat := toNat_joinBytes _ _
  apply BitVec.eq_of_toNat_eq
  omega

/-- What a push does to every byte of memory. -/
theorem push_stacked (v : Byte) (s : State) : Stacked [(stackAddr s.sp, v)] s (push v s) :=
  stacked_cons (stacked_nil ⟨rfl, rfl, rfl⟩) (fun _ h => by cases h) id ⟨rfl, rfl, rfl⟩

/-- What a push of a word does to every byte of memory. -/
theorem push16_stacked (w : Addr) (s : State) :
    Stacked [(stackAddr s.sp, highByte w), (stackAddr (s.sp - 1#8), lowByte w)] s (push16 w s) := by
  refine stacked_cons (sp := s.sp - 1#8) (push_stacked (highByte w) s) (fun c hc h => ?_) (fun h => ?_) ⟨rfl, rfl, rfl⟩
  · simp only [List.mem_singleton] at hc
    subst hc
    have := sameCell_stackAddr h
    bv_omega
  · exact ((Kept.rfl' s).push _).canonical h

/-- What the interrupt sequence's three pushes do to every byte of memory. -/
theorem push3_stacked (w : Addr) (v : Byte) (s : State) :
    Stacked [(stackAddr s.sp, highByte w), (stackAddr (s.sp - 1#8), lowByte w), (stackAddr (s.sp - 2#8), v)] s
      (push v (push16 w s)) := by
  have hsp : (push16 w s).sp = s.sp - 2#8 := by rw [push16_eq]; rfl
  refine stacked_cons (sp := s.sp - 2#8) (push16_stacked w s) (fun c hc h => ?_) (fun h => ?_) ?_
  · simp only [List.mem_cons, List.not_mem_nil, or_false] at hc
    rcases hc with rfl | rfl
    · have := sameCell_stackAddr h
      bv_omega
    · have := sameCell_stackAddr h
      bv_omega
  · exact ((Kept.rfl' s).push16 _).canonical h
  · rw [← hsp]
    exact ⟨rfl, rfl, rfl⟩

/-- `Stacked` looks at the storage alone. -/
theorem Stacked.congr {cells : List (Addr × Byte)} {s t t' : State} (h : Stacked cells s t) (e : SameStorage t t') :
    Stacked cells s t' := by
  obtain ⟨h1, h2, h3, h4, h5⟩ := h
  exact ⟨e.2.1.trans h1, e.2.2.trans h2, fun n => (vidRead_congr e n).trans (h3 n),
    fun a ha => (readValue_congr e a).trans (h4 a ha), fun hm c hc a ha => (readValue_congr e a).trans (h5 hm c hc a ha)⟩

end Sys2Proof.Machine
end

