-- ==== Sys2Proof/Laws/PerInstr.lean ====
section
/-! SUPPORT. For every constructor of `Instr`: the encoder's length, the meaning's length and the decoder's length of a
well-formed instruction are the same (R110, R131, R134). -/

namespace Sys2Proof.Laws.EncodedLength

/-- The bytes of the instruction begin with an opcode byte that announces their number, and the meaning moves PC past
that many. -/
def Statement (i : Instr) : Prop :=
  WellFormed i → ∃ op : Byte, (encode i).head? = some op ∧ (encode i).length = opLength op ∧
    Machine.instrLength i = opLength op

theorem lda (o : Src) : Statement (.lda o) := by
  intro h
  cases o with
  | imm b => exact ⟨_, rfl, rfl, rfl⟩
  | mem m => cases m <;> first | exact ⟨_, rfl, rfl, rfl⟩ | cases h

theorem ldx (o : Src) : Statement (.ldx o) := by
  intro h
  cases o with
  | imm b => exact ⟨_, rfl, rfl, rfl⟩
  | mem m => cases m <;> first | exact ⟨_, rfl, rfl, rfl⟩ | cases h

theorem ldy (o : Src) : Statement (.ldy o) := by
  intro h
  cases o with
  | imm b => exact ⟨_, rfl, rfl, rfl⟩
  | mem m => cases m <;> first | exact ⟨_, rfl, rfl, rfl⟩ | cases h

theorem sta (m : Mem) : Statement (.sta m) := by
  intro h
  cases m <;> first | exact ⟨_, rfl, rfl, rfl⟩ | cases h

theorem stx (m : Mem) : Statement (.stx m) := by
  intro h
  cases m <;> first | exact ⟨_, rfl, rfl, rfl⟩ | cases h

theorem sty (m : Mem) : Statement (.sty m) := by
  intro h
  cases m <;> first | exact ⟨_, rfl, rfl, rfl⟩ | cases h

theorem tax : Statement (.tax) := fun _ => ⟨_, rfl, rfl, rfl⟩

theorem tay : Statement (.tay) := fun _ => ⟨_, rfl, rfl, rfl⟩

theorem txa : Statement (.txa) := fun _ => ⟨_, rfl, rfl, rfl⟩

theorem tya : Statement (.tya) := fun _ => ⟨_, rfl, rfl, rfl⟩

theorem tsx : Statement (.tsx) := fun _ => ⟨_, rfl, rfl, rfl⟩

theorem txs : Statement (.txs) := fun _ => ⟨_, rfl, rfl, rfl⟩

theorem ora (o : Src) : Statement (.ora o) := by
  intro h
  cases o with
  | imm b => exact ⟨_, rfl, rfl, rfl⟩
  | mem m => cases m <;> first | exact ⟨_, rfl, rfl, rfl⟩ | cases h

theorem and (o : Src) : Statement (.and o) := by
  intro h
  cases o with
  | imm b => exact ⟨_, rfl, rfl, rfl⟩
  | mem m => cases m <;> first | exact ⟨_, rfl, rfl, rfl⟩ | cases h

theorem eor (o : Src) : Statement (.eor o) := by
  intro h
  cases o with
  | imm b => exact ⟨_, rfl, rfl, rfl⟩
  | mem m => cases m <;> first | exact ⟨_, rfl, rfl, rfl⟩ | cases h

theorem adc (o : Src) : Statement (.adc o) := by
  intro h
  cases o with
  | imm b => exact ⟨_, rfl, rfl, rfl⟩
  | mem m => cases m <;> first | exact ⟨_, rfl, rfl, rfl⟩ | cases h

theorem sbc (o : Src) : Statement (.sbc o) := by
  intro h
  cases o with
  | imm b => exact ⟨_, rfl, rfl, rfl⟩
  | mem m => cases m <;> first | exact ⟨_, rfl, rfl, rfl⟩ | cases h

theorem cmp (o : Src) : Statement (.cmp o) := by
  intro h
  cases o with
  | imm b => exact ⟨_, rfl, rfl, rfl⟩
  | mem m => cases m <;> first | exact ⟨_, rfl, rfl, rfl⟩ | cases h

theorem cpx (o : Src) : Statement (.cpx o) := by
  intro h
  cases o with
  | imm b => exact ⟨_, rfl, rfl, rfl⟩
  | mem m => cases m <;> first | exact ⟨_, rfl, rfl, rfl⟩ | cases h

theorem cpy (o : Src) : Statement (.cpy o) := by
  intro h
  cases o with
  | imm b => exact ⟨_, rfl, rfl, rfl⟩
  | mem m => cases m <;> first | exact ⟨_, rfl, rfl, rfl⟩ | cases h

theorem bit (m : Mem) : Statement (.bit m) := by
  intro h
  cases m <;> first | exact ⟨_, rfl, rfl, rfl⟩ | cases h

theorem inc (m : Mem) : Statement (.inc m) := by
  intro h
  cases m <;> first | exact ⟨_, rfl, rfl, rfl⟩ | cases h

theorem dec (m : Mem) : Statement (.dec m) := by
  intro h
  cases m <;> first | exact ⟨_, rfl, rfl, rfl⟩ | cases h

theorem inx : Statement (.inx) := fun _ => ⟨_, rfl, rfl, rfl⟩

theorem iny : Statement (.iny) := fun _ => ⟨_, rfl, rfl, rfl⟩

theorem dex : Statement (.dex) := fun _ => ⟨_, rfl, rfl, rfl⟩

theorem dey : Statement (.dey) := fun _ => ⟨_, rfl, rfl, rfl⟩

theorem asl (d : Dst) : Statement (.asl d) := by
  intro h
  cases d with
  | acc => exact ⟨_, rfl, rfl, rfl⟩
  | mem m => cases m <;> first | exact ⟨_, rfl, rfl, rfl⟩ | cases h

theorem lsr (d : Dst) : Statement (.lsr d) := by
  intro h
  cases d with
  | acc => exact ⟨_, rfl, rfl, rfl⟩
  | mem m => cases m <;> first | exact ⟨_, rfl, rfl, rfl⟩ | cases h

theorem rol (d : Dst) : Statement (.rol d) := by
  intro h
  cases d with
  | acc => exact ⟨_, rfl, rfl, rfl⟩
  | mem m => cases m <;> first | exact ⟨_, rfl, rfl, rfl⟩ | cases h

theorem ror (d : Dst) : Statement (.ror d) := by
  intro h
  cases d with
  | acc => exact ⟨_, rfl, rfl, rfl⟩
  | mem m => cases m <;> first | exact ⟨_, rfl, rfl, rfl⟩ | cases h

theorem jmp (t : Target) : Statement (.jmp t) := by
  intro _
  cases t <;> exact ⟨_, rfl, rfl, rfl⟩

theorem jsr (w : Addr) : Statement (.jsr w) := fun _ => ⟨_, rfl, rfl, rfl⟩

theorem rts : Statement (.rts) := fun _ => ⟨_, rfl, rfl, rfl⟩

theorem bpl (b : Byte) : Statement (.bpl b) := fun _ => ⟨_, rfl, rfl, rfl⟩

theorem bmi (b : Byte) : Statement (.bmi b) := fun _ => ⟨_, rfl, rfl, rfl⟩

theorem bvc (b : Byte) : Statement (.bvc b) := fun _ => ⟨_, rfl, rfl, rfl⟩

theorem bvs (b : Byte) : Statement (.bvs b) := fun _ => ⟨_, rfl, rfl, rfl⟩

theorem bcc (b : Byte) : Statement (.bcc b) := fun _ => ⟨_, rfl, rfl, rfl⟩

theorem bcs (b : Byte) : Statement (.bcs b) := fun _ => ⟨_, rfl, rfl, rfl⟩

theorem bne (b : Byte) : Statement (.bne b) := fun _ => ⟨_, rfl, rfl, rfl⟩

theorem beq (b : Byte) : Statement (.beq b) := fun _ => ⟨_, rfl, rfl, rfl⟩

theorem pha : Statement (.pha) := fun _ => ⟨_, rfl, rfl, rfl⟩

theorem php : Statement (.php) := fun _ => ⟨_, rfl, rfl, rfl⟩

theorem pla : Statement (.pla) := fun _ => ⟨_, rfl, rfl, rfl⟩

theorem plp : Statement (.plp) := fun _ => ⟨_, rfl, rfl, rfl⟩

theorem clc : Statement (.clc) := fun _ => ⟨_, rfl, rfl, rfl⟩

theorem sec : Statement (.sec) := fun _ => ⟨_, rfl, rfl, rfl⟩

theorem cli : Statement (.cli) := fun _ => ⟨_, rfl, rfl, rfl⟩

theorem sei : Statement (.sei) := fun _ => ⟨_, rfl, rfl, rfl⟩

theorem cld : Statement (.cld) := fun _ => ⟨_, rfl, rfl, rfl⟩

theorem sed : Statement (.sed) := fun _ => ⟨_, rfl, rfl, rfl⟩

theorem clv : Statement (.clv) := fun _ => ⟨_, rfl, rfl, rfl⟩

theorem nop : Statement (.nop) := fun _ => ⟨_, rfl, rfl, rfl⟩

theorem brk : Statement (.brk) := fun _ => ⟨_, rfl, rfl, rfl⟩

theorem rti : Statement (.rti) := fun _ => ⟨_, rfl, rfl, rfl⟩

theorem kil (op : Byte) : Statement (.kil op) := by
  intro h
  have hc : kilOpcodes.contains op = true := h
  have hl : opLength op = 1 := (by decide : ∀ op ∈ kilOpcodes, opLength op = 1) op (by simpa using hc)
  refine ⟨op, ?_, ?_, hl.symm⟩ <;> simp only [encode, opcodeOf, hc, if_true, hl] <;> rfl

theorem und (op : Byte) : Statement (.und op) := by
  intro h
  have hc : undOpcodes.contains op = true := h
  have hl : opLength op = 1 := (by decide : ∀ op ∈ undOpcodes, opLength op = 1) op (by simpa using hc)
  refine ⟨op, ?_, ?_, hl.symm⟩ <;> simp only [encode, opcodeOf, hc, if_true, hl] <;> rfl

end Sys2Proof.Laws.EncodedLength
end

