-- ==== Sys2Proof/Laws/Picture.lean ====
section
/-! SUPPORT. What the tick does: the position as a count of ticks, the events, what it keeps. -/

namespace Sys2Proof.Machine

/-- How many ticks put the picture unit at this position, from power-on's (-1, 0) of frame 0 (R259). -/
def ticksOf (u : Ppu) : Int := (u.frame : Int) * 89342 + (u.scanline + 1) * 341 + (u.dot : Int)

/-- The position advances by one tick, and stays one of the frame's. -/
theorem advancePosition_ticks {u : Ppu} (h : PositionLegal u) :
    PositionLegal (advancePosition u) ∧ ticksOf (advancePosition u) = ticksOf u + 1 := by
  obtain ⟨h1, h2, h3⟩ := h
  unfold advancePosition PositionLegal ticksOf
  by_cases hd : u.dot + 1 = 341
  · by_cases hs : u.scanline + 1 = 261
    · simp only [hd, if_true, hs]
      refine ⟨by omega, ?_⟩
      push_cast
      omega
    · simp only [hd, if_true, hs, if_false]
      omega
  · have hs : ¬ u.scanline = 261 := by omega
    simp only [hd, if_false, hs]
    push_cast
    omega

theorem advancePosition_vblank (u : Ppu) : (advancePosition u).vblank = u.vblank := by
  unfold advancePosition
  by_cases hd : u.dot + 1 = 341 <;> simp only [hd, if_true, if_false] <;> split <;> rfl

/-- Everything a tick can change: the position, the vblank flag, the frame buffers and the NMI latch; and how. -/
structure TickShape (s t : State) : Prop where
  form : ∃ (b : Bool) (back front : Pixels) (n : Bool),
    t = (s.setPpu { advancePosition s.ppu with vblank := b, back := back, front := front }).setNmi n
  vblank : t.ppu.vblank =
    if t.ppu.scanline = -1 ∧ t.ppu.dot = 0 then false
    else if t.ppu.scanline = 241 ∧ t.ppu.dot = 1 then true else s.ppu.vblank
  nmi : t.nmiPending =
    if t.ppu.scanline = 241 ∧ t.ppu.dot = 1 then s.nmiPending || s.ppu.ctrl.getLsbD 7 else s.nmiPending
  front : t.ppu.front = if t.ppu.scanline = 241 ∧ t.ppu.dot = 0 then s.ppu.back else s.ppu.front
  back : ∃ c, t.ppu.back = if 0 ≤ t.ppu.scanline ∧ t.ppu.scanline ≤ 239 ∧ t.ppu.dot ≤ 255
    then s.ppu.back.put (pixelKey t.ppu.dot t.ppu.scanline.toNat) c else s.ppu.back

theorem advancePosition_rest (u : Ppu) :
    advancePosition u = { u with
      scanline := (advancePosition u).scanline, dot := (advancePosition u).dot, frame := (advancePosition u).frame } := by
  unfold advancePosition
  by_cases hd : u.dot + 1 = 341 <;> simp only [hd, if_true, if_false] <;> split <;> rfl

theorem tick_shape (s : State) : TickShape s (tick s) := by
  obtain ⟨u, hu⟩ : ∃ u, u = advancePosition s.ppu := ⟨_, rfl⟩
  have hr := advancePosition_rest s.ppu
  rw [← hu] at hr
  have e1 : u.vblank = s.ppu.vblank := by rw [hr]
  have e2 : u.ctrl = s.ppu.ctrl := by rw [hr]
  have e3 : u.front = s.ppu.front := by rw [hr]
  have e4 : u.back = s.ppu.back := by rw [hr]
  unfold tick
  rw [← hu]
  by_cases c1 : u.scanline = 241 ∧ u.dot = 1
  · obtain ⟨a, b⟩ := c1
    refine ⟨⟨true, u.back, u.front, s.nmiPending || u.ctrl.getLsbD 7, ?_⟩, ?_, ?_, ?_, ⟨0, ?_⟩⟩ <;>
      simp [drawPixel, publish, vblankClear, vblankSet, State.setPpu, State.setNmi, a, b, ← hu, e2, e3, e4]
  by_cases c2 : u.scanline = -1 ∧ u.dot = 0
  · obtain ⟨a, b⟩ := c2
    refine ⟨⟨false, u.back, u.front, s.nmiPending, ?_⟩, ?_, ?_, ?_, ⟨0, ?_⟩⟩ <;>
      simp [drawPixel, publish, vblankClear, vblankSet, State.setPpu, State.setNmi, a, b, ← hu, e3, e4]
  by_cases c3 : u.scanline = 241 ∧ u.dot = 0
  · obtain ⟨a, b⟩ := c3
    refine ⟨⟨u.vblank, u.back, u.back, s.nmiPending, ?_⟩, ?_, ?_, ?_, ⟨0, ?_⟩⟩ <;>
      simp [drawPixel, publish, vblankClear, vblankSet, State.setPpu, State.setNmi, a, b, ← hu, e1, e4]
  by_cases c4 : 0 ≤ u.scanline ∧ u.scanline ≤ 239 ∧ u.dot ≤ 255
  · refine ⟨⟨u.vblank, u.back.put (pixelKey u.dot u.scanline.toNat) (pixel (s.setPpu u) u.dot u.scanline.toNat), u.front,
      s.nmiPending, ?_⟩, ?_, ?_, ?_, ⟨pixel (s.setPpu u) u.dot u.scanline.toNat, ?_⟩⟩ <;>
      simp [drawPixel, publish, vblankClear, vblankSet, State.setPpu, State.setNmi, c1, c2, c3, c4, ← hu, e1, e3, e4]
  · refine ⟨⟨u.vblank, u.back, u.front, s.nmiPending, ?_⟩, ?_, ?_, ?_, ⟨0, ?_⟩⟩ <;>
      simp [drawPixel, publish, vblankClear, vblankSet, State.setPpu, State.setNmi, c1, c2, c3, c4, ← hu, e1, e3, e4]
    rw [← e1, ← e3, ← e4]

/-- The position after a tick is the advanced one. -/
theorem tick_position (s : State) : (tick s).ppu.scanline = (advancePosition s.ppu).scanline ∧
    (tick s).ppu.dot = (advancePosition s.ppu).dot ∧ (tick s).ppu.frame = (advancePosition s.ppu).frame := by
  obtain ⟨b, back, front, n, h⟩ := (tick_shape s).form
  rw [h]
  exact ⟨rfl, rfl, rfl⟩

theorem tick_ticks {s : State} (h : PositionLegal s.ppu) :
    PositionLegal (tick s).ppu ∧ ticksOf (tick s).ppu = ticksOf s.ppu + 1 := by
  obtain ⟨p1, p2, p3⟩ := tick_position s
  have := advancePosition_ticks h
  unfold PositionLegal ticksOf at *
  rw [p1, p2, p3]
  exact this

theorem advance_ticks (n : Nat) {s : State} (h : PositionLegal s.ppu) :
    PositionLegal (advance n s).ppu ∧ ticksOf (advance n s).ppu = ticksOf s.ppu + n := by
  induction n generalizing s with
  | zero => exact ⟨h, by simp [advance]⟩
  | succ n ih =>
    obtain ⟨h1, h2⟩ := tick_ticks h
    obtain ⟨h3, h4⟩ := ih h1
    exact ⟨h3, by simp only [advance]; omega⟩

/-- The lock-step invariant says that the ticks done are three for each cycle. -/
theorem lockStep_iff (s : State) : LockStep s ↔ PositionLegal s.ppu ∧ ticksOf s.ppu = 3 * (s.cyc : Int) := by
  unfold LockStep PositionLegal ticksOf
  constructor
  · omega
  · rintro ⟨⟨h1, h2, h3⟩, h⟩
    obtain ⟨l, hl⟩ : ∃ l : Nat, s.ppu.scanline = (l : Int) - 1 := ⟨(s.ppu.scanline + 1).toNat, by omega⟩
    have e : 3 * s.cyc = (l * 341 + s.ppu.dot) + s.ppu.frame * 89342 := by omega
    have em : 3 * s.cyc % 89342 = l * 341 + s.ppu.dot := by
      rw [e, Nat.add_mul_mod_self_right, Nat.mod_eq_of_lt (by omega)]
    refine ⟨?_, ?_, by omega⟩ <;> rw [em] <;> omega

theorem tick_canonical {s : State} (h : MemoriesCanonical s) : MemoriesCanonical (tick s) := by
  obtain ⟨⟨b, back, front, n, e⟩, -, -, hf, ⟨c, hb⟩⟩ := tick_shape s
  have hr := advancePosition_rest s.ppu
  obtain ⟨h1, h2, h3, h4, h5, h6, h7, h8, h9⟩ := h
  have kf : Pixels.wf (tick s).ppu.front := by
    rw [hf]
    split
    · exact h5
    · exact h6
  have kb : Pixels.wf (tick s).ppu.back := by
    rw [hb]
    split
    · rename_i hc
      refine Pixels.put_wf h5 ?_
      simp only [pixelKey]
      omega
    · exact h5
  rw [e] at kf kb ⊢
  refine ⟨h1, ?_, ?_, ?_, kb, kf, h7, h8, h9⟩
  · have : (advancePosition s.ppu).oam = s.ppu.oam := by rw [hr]
    simpa [this] using h2
  · have : (advancePosition s.ppu).ntRam = s.ppu.ntRam := by rw [hr]
    simpa [this] using h3
  · have : (advancePosition s.ppu).palRam = s.ppu.palRam := by rw [hr]
    simpa [this] using h4

theorem advance_canonical (n : Nat) {s : State} (h : MemoriesCanonical s) : MemoriesCanonical (advance n s) := by
  induction n generalizing s with
  | zero => exact h
  | succ n ih => exact ih (tick_canonical h)

/-- Before (241, 1) the vblank flag stays 0 over a tick from a position of the frame. -/
theorem tick_vblank {s : State} (h : PositionLegal s.ppu) (hv : VblankOnlyInBlank s) : VblankOnlyInBlank (tick s) := by
  intro hc
  obtain ⟨p1, p2, -⟩ := tick_position s
  have hvb := (tick_shape s).vblank
  obtain ⟨h1, h2, h3⟩ := h
  rw [hvb]
  split
  · rfl
  · split
    · rename_i hn
      omega
    · rename_i hn0 hn1
      apply hv
      rw [p1, p2] at hc hn0
      unfold advancePosition at hc hn0
      by_cases hd : s.ppu.dot + 1 = 341
      · by_cases hs : s.ppu.scanline + 1 = 261
        · simp [hd, hs] at hn0
        · simp only [hd, if_true, hs, if_false] at hc
          omega
      · have hs : ¬ s.ppu.scanline = 261 := by omega
        simp only [hd, if_false, hs] at hc
        omega

theorem advance_vblank (n : Nat) {s : State} (h : PositionLegal s.ppu) (hv : VblankOnlyInBlank s) :
    VblankOnlyInBlank (advance n s) := by
  induction n generalizing s with
  | zero => exact hv
  | succ n ih => exact ih (tick_ticks h).1 (tick_vblank h hv)

/-- What ticks keep: everything but the picture unit and the NMI latch. -/
theorem advance_eq (n : Nat) (s : State) :
    advance n s = { s with ppu := (advance n s).ppu, nmiPending := (advance n s).nmiPending } := by
  induction n generalizing s with
  | zero => rfl
  | succ n ih =>
    obtain ⟨b, back, front, m, e⟩ := (tick_shape s).form
    show advance n (tick s) = { s with ppu := (advance n (tick s)).ppu, nmiPending := (advance n (tick s)).nmiPending }
    have := ih (tick s)
    rw [e] at this ⊢
    exact this

/-- What ticks keep of the picture unit: its registers and memories. -/
theorem advance_ppu (n : Nat) (s : State) :
    (advance n s).ppu = { s.ppu with
      scanline := (advance n s).ppu.scanline, dot := (advance n s).ppu.dot, frame := (advance n s).ppu.frame
      vblank := (advance n s).ppu.vblank, back := (advance n s).ppu.back, front := (advance n s).ppu.front } := by
  induction n generalizing s with
  | zero => rfl
  | succ n ih =>
    obtain ⟨b, back, front, m, e⟩ := (tick_shape s).form
    have hr := advancePosition_rest s.ppu
    have h := ih (tick s)
    have hp : (tick s).ppu = { s.ppu with
        scanline := (tick s).ppu.scanline, dot := (tick s).ppu.dot, frame := (tick s).ppu.frame
        vblank := (tick s).ppu.vblank, back := (tick s).ppu.back, front := (tick s).ppu.front } := by
      rw [e]
      show { advancePosition s.ppu with vblank := b, back := back, front := front } = _
      rw [hr]
      rfl
    rw [hp] at h
    exact h

end Sys2Proof.Machine
end

