-- ==== Sys2Proof/Laws/Reset.lean ====
section
/-! SUPPORT. The start state: power-on and then reset, from any state with the blank cartridge and the standard
parameters. -/

namespace Sys2Proof.Machine

/-- The program counter of `State.reset` is the word the reset vector holds (R57). -/
theorem reset_pc : State.reset.pc = (memRead16 resetVector State.reset).1 := by decide

/-- Reset loads PC from the vector, clears the halt flag and the NMI latch, and changes nothing else (R341). -/
theorem resetCall_eq (s : State) : resetCall s =
    { s with pc := joinBytes (s.cart.read 0xFFFD#16) (s.cart.read 0xFFFC#16), halted := false, nmiPending := false } := by
  have h : memRead16 resetVector s = _ := memRead16_cartridge (a := 0xFFFC#16) (by decide) (by decide) s
  simp [resetCall, h, State.setPc, State.setHalted, State.setNmi]

/-- `State.reset` is the state after `powerOn()` and then `reset()` (R342), with nothing waiting and no event emitted. -/
theorem reset_eq (s : State) (hc : s.cart = Cartridge.blank) (hk : s.config = Config.standard) (hi : s.inputs = [])
    (he : s.events = []) : State.reset = resetCall (powerOn s) := by
  rw [resetCall_eq]
  simp [powerOn, hc, hk, hi, he, State.reset, Cartridge.chrWritable, Cartridge.blank, Config.standard, Cartridge.read,
    joinBytes]

end Sys2Proof.Machine
end

