-- ==== Sys2Proof/Laws/Step.lean ====
section
/-! SUPPORT. The inversion of a step, and what fetching and the host's calls keep. -/

namespace Sys2Proof.Machine

/-- The fetch reads up to three bytes: it changes what those reads change, in the picture unit alone (R112). -/
theorem fetch_kept (s : State) : Kept s (fetch s).2 := by
  unfold fetch
  simp only [memRead]
  cases entryOf (readValue s.pc s)
  · exact (Kept.rfl' s).readEffect _
  · exact ((Kept.rfl' s).readEffect _).readEffect _
  · exact (((Kept.rfl' s).readEffect _).readEffect _).readEffect _

theorem readEffect_setPpu (a : Addr) (s : State) : ∃ u, readEffect a s = s.setPpu u := ⟨_, readEffect_eq a s⟩

theorem fetch_eq (s : State) : (fetch s).2 = s.setPpu (fetch s).2.ppu := by
  have key : ∃ u, (fetch s).2 = s.setPpu u := by
    unfold fetch
    simp only [memRead]
    obtain ⟨u1, h1⟩ := readEffect_setPpu s.pc s
    cases entryOf (readValue s.pc s)
    · exact ⟨u1, h1⟩
    · obtain ⟨u2, h2⟩ := readEffect_setPpu (s.pc + 1#16) (readEffect s.pc s)
      exact ⟨u2, h2.trans (by rw [h1]; rfl)⟩
    · obtain ⟨u2, h2⟩ := readEffect_setPpu (s.pc + 1#16) (readEffect s.pc s)
      obtain ⟨u3, h3⟩ := readEffect_setPpu (s.pc + 2#16) (readEffect (s.pc + 1#16) (readEffect s.pc s))
      exact ⟨u3, h3.trans (by rw [h2, h1]; rfl)⟩
  obtain ⟨u, h⟩ := key
  rw [h]
  rfl

/-- Where no instruction byte is fetched from the register window, the fetch changes nothing (R87, R92). -/
theorem fetch_unchanged {s : State} (h0 : ∀ r, route s.pc ≠ .register r) (h1 : ∀ r, route (s.pc + 1#16) ≠ .register r)
    (h2 : ∀ r, route (s.pc + 2#16) ≠ .register r) : (fetch s).2 = s := by
  unfold fetch
  simp only [memRead, readEffect_of_not_register h0]
  cases entryOf (readValue s.pc s)
  · rfl
  · exact readEffect_of_not_register h1 s
  · show readEffect _ (readEffect _ s) = s
    rw [readEffect_of_not_register h1, readEffect_of_not_register h2]

/-- What a step that answers a next state did: nothing (the run had ended), an interrupt entry, a Processor step, or a
host call. -/
theorem step_cases {s t : State} (h : step s = .next t) :
    s.cart.supported = true ∧
    ((∃ (c : HostCall) (l : List Input), s.inputs = .call c :: l ∧ hostCall c (s.setInputs l) = .next t) ∨
     (∃ l : List Input, t = s.setInputs l) ∨
     (∃ (l : List Input) (k : InterruptKind), s.halted = false ∧
        t = followTicks (s.setInputs l) (raiseInterrupt k (s.setInputs l))) ∨
     (∃ (l : List Input) (r : State), s.halted = false ∧ processorStep (s.setInputs l) = .next r ∧
        t = followTicks (s.setInputs l) r)) := by
  have loop : ∀ (irq stop : Bool) (s0 : State), loopIteration irq stop s0 = .next t →
      (t = s0) ∨ (∃ k, s0.halted = false ∧ t = followTicks s0 (raiseInterrupt k s0)) ∨
      (∃ r, s0.halted = false ∧ processorStep s0 = .next r ∧ t = followTicks s0 r) := by
    intro irq stop s0 h
    unfold loopIteration at h
    split at h
    · cases h
      exact .inl rfl
    · rename_i hs
      have hh : s0.halted = false := by
        cases hb : s0.halted
        · rfl
        · simp [hb] at hs
      split at h
      · cases h
        exact .inr (.inl ⟨.nmi, hh, rfl⟩)
      · split at h
        · cases h
          exact .inr (.inl ⟨.irq, hh, rfl⟩)
        · split at h
          · rename_i r hr
            cases h
            exact .inr (.inr ⟨r, hh, hr, rfl⟩)
          · cases h
          · cases h
  unfold step at h
  split at h
  · rename_i hc
    refine ⟨hc, ?_⟩
    unfold takeInput at h
    split at h
    · rename_i hi
      have e : s = s.setInputs [] := by
        rw [← hi]
        rfl
      rw [e] at h
      rcases loop _ _ _ h with h | ⟨k, h1, h2⟩ | ⟨r, h1, h2, h3⟩
      · exact .inr (.inl ⟨[], h⟩)
      · exact .inr (.inr (.inl ⟨[], k, h1, h2⟩))
      · exact .inr (.inr (.inr ⟨[], r, h1, h2, h3⟩))
    · rename_i irq stop l hi
      rcases loop _ _ _ h with h | ⟨k, h1, h2⟩ | ⟨r, h1, h2, h3⟩
      · exact .inr (.inl ⟨l, h⟩)
      · exact .inr (.inr (.inl ⟨l, k, h1, h2⟩))
      · exact .inr (.inr (.inr ⟨l, r, h1, h2, h3⟩))
    · rename_i c l hi
      exact .inl ⟨c, l, hi, h⟩
  · cases h

/-! ### The host's calls -/

theorem powerOn_canonical {s : State} (h : MemoriesCanonical s) : MemoriesCanonical (powerOn s) := by
  obtain ⟨-, -, -, -, -, -, h7, h8, h9⟩ := h
  obtain ⟨k1, k2, k3, k4, k5⟩ := h9
  by_cases hp : s.cart.chrPages = 0
  · have hw : s.cart.chrWritable = true := by simp [Cartridge.chrWritable, hp]
    simp only [powerOn, hw, if_true]
    exact ⟨k1, k2, k3, k4, Pixels.wf_nil, Pixels.wf_nil, h7, by simpa [hp] using k5, k1, k2, k3, k4, k5⟩
  · have hw : s.cart.chrWritable = false := by simp [Cartridge.chrWritable, hp]
    simp only [powerOn, hw]
    exact ⟨k1, k2, k3, k4, Pixels.wf_nil, Pixels.wf_nil, h7, h8, k1, k2, k3, k4, k5⟩

/-- The host's calls that access the main path. -/
def HostCall.isAccess : HostCall → Bool
  | .readByte _ | .readWord _ | .writeByte _ _ | .writeWord _ _ => true
  | .powerOn | .reset | .step | .advance _ => false

/-- An access by the host keeps what an instruction keeps. -/
theorem hostAccess_kept {c : HostCall} (h : c.isAccess = true) (s : State) :
    ∃ t, hostCall c s = .next t ∧ Kept s t := by
  cases c
  case readByte a => exact ⟨_, rfl, (Kept.rfl' s).readEffect _⟩
  case readWord a => exact ⟨_, rfl, (Kept.rfl' s).memRead16 _⟩
  case writeByte a v => exact ⟨_, rfl, (Kept.rfl' s).memWrite _ _⟩
  case writeWord a v => exact ⟨_, rfl, ((Kept.rfl' s).memWrite _ _).memWrite _ _⟩
  all_goals cases h

/-- What the halting opcode's step does (R245). -/
theorem execKil_eq (op : Byte) (s : State) : exec (.kil op) s = .next (s.setHalted true) := rfl

/-- What an undefined opcode's step does (R246). -/
theorem execUnd_eq (op : Byte) (s : State) :
    exec (.und op) s = .next (((s.setPc (s.pc + 1#16)).emit ⟨s.pc, op⟩).addCycles 1) := rfl

end Sys2Proof.Machine
end

