-- ==== Sys2Proof/Tests/Slice0.lean ====
section
/-! SUPPORT. Tests: the well-formedness check refuses an ill-formed term of each mnemonic; words written out from the
opcode map decode to their instructions; one or two steps of each instruction, with the results of 95_test_vectors.md;
and, for every statement with hypotheses, a state and operands that meet them. -/

namespace Sys2Proof.Tests

open Sys2Proof Sys2Proof.Machine

/-! ### Well-formedness refuses -/

theorem test_illformed_read : ¬ WellFormed (.lda (.mem (.zpy 0x10#8))) ∧ ¬ WellFormed (.ora (.mem (.zpy 0x10#8))) ∧
    ¬ WellFormed (.and (.mem (.zpy 0x10#8))) ∧ ¬ WellFormed (.eor (.mem (.zpy 0x10#8))) ∧
    ¬ WellFormed (.adc (.mem (.zpy 0x10#8))) ∧ ¬ WellFormed (.sbc (.mem (.zpy 0x10#8))) ∧
    ¬ WellFormed (.cmp (.mem (.zpy 0x10#8))) := by decide

theorem test_illformed_index : ¬ WellFormed (.ldx (.mem (.zpx 0x10#8))) ∧ ¬ WellFormed (.ldx (.mem (.abx 0x0210#16))) ∧
    ¬ WellFormed (.ldy (.mem (.zpy 0x10#8))) ∧ ¬ WellFormed (.ldy (.mem (.aby 0x0210#16))) ∧
    ¬ WellFormed (.cpx (.mem (.zpx 0x10#8))) ∧ ¬ WellFormed (.cpy (.mem (.abx 0x0210#16))) ∧
    ¬ WellFormed (.bit (.zpx 0x10#8)) := by decide

theorem test_illformed_store : ¬ WellFormed (.sta (.zpy 0x10#8)) ∧ ¬ WellFormed (.stx (.zpx 0x10#8)) ∧
    ¬ WellFormed (.stx (.aby 0x0210#16)) ∧ ¬ WellFormed (.sty (.zpy 0x10#8)) ∧ ¬ WellFormed (.sty (.abx 0x0210#16)) := by
  decide

theorem test_illformed_modify : ¬ WellFormed (.inc (.izx 0x10#8)) ∧ ¬ WellFormed (.dec (.izy 0x10#8)) ∧
    ¬ WellFormed (.asl (.mem (.aby 0x0210#16))) ∧ ¬ WellFormed (.lsr (.mem (.zpy 0x10#8))) ∧
    ¬ WellFormed (.rol (.mem (.izx 0x10#8))) ∧ ¬ WellFormed (.ror (.mem (.izy 0x10#8))) := by decide

theorem test_illformed_opcodes : ¬ WellFormed (.kil 0x03#8) ∧ ¬ WellFormed (.und 0x02#8) ∧ ¬ WellFormed (.und 0xEA#8) := by
  decide

/-! ### Words written out from the opcode map (R130); the first byte is the low one -/

theorem test_decode_loads :
    decodeTableWord 16 0x10A9 = some (.lda (.imm 0x10#8)) ∧
    decodeTableWord 16 0x10A5 = some (.lda (.mem (.zp 0x10#8))) ∧
    decodeTableWord 16 0x10B5 = some (.lda (.mem (.zpx 0x10#8))) ∧
    decodeTableWord 24 0x1234AD = some (.lda (.mem (.abs 0x1234#16))) ∧
    decodeTableWord 24 0x1234BD = some (.lda (.mem (.abx 0x1234#16))) ∧
    decodeTableWord 24 0x1234B9 = some (.lda (.mem (.aby 0x1234#16))) ∧
    decodeTableWord 16 0x10A1 = some (.lda (.mem (.izx 0x10#8))) ∧
    decodeTableWord 16 0x10B1 = some (.lda (.mem (.izy 0x10#8))) ∧
    decodeTableWord 16 0x10B6 = some (.ldx (.mem (.zpy 0x10#8))) ∧
    decodeTableWord 24 0x1234BE = some (.ldx (.mem (.aby 0x1234#16))) ∧
    decodeTableWord 24 0x1234BC = some (.ldy (.mem (.abx 0x1234#16))) ∧
    decodeTableWord 16 0x10B4 = some (.ldy (.mem (.zpx 0x10#8))) := by decide

theorem test_decode_stores_transfers :
    decodeTableWord 24 0x123499 = some (.sta (.aby 0x1234#16)) ∧
    decodeTableWord 16 0x1081 = some (.sta (.izx 0x10#8)) ∧
    decodeTableWord 16 0x1096 = some (.stx (.zpy 0x10#8)) ∧
    decodeTableWord 16 0x1094 = some (.sty (.zpx 0x10#8)) ∧
    decodeTableWord 8 0xAA = some (.tax) ∧
    decodeTableWord 8 0xA8 = some (.tay) ∧
    decodeTableWord 8 0x8A = some (.txa) ∧
    decodeTableWord 8 0x98 = some (.tya) ∧
    decodeTableWord 8 0xBA = some (.tsx) ∧
    decodeTableWord 8 0x9A = some (.txs) := by decide

theorem test_decode_arithmetic :
    decodeTableWord 16 0x1011 = some (.ora (.mem (.izy 0x10#8))) ∧
    decodeTableWord 24 0x12343D = some (.and (.mem (.abx 0x1234#16))) ∧
    decodeTableWord 16 0x1041 = some (.eor (.mem (.izx 0x10#8))) ∧
    decodeTableWord 16 0x1075 = some (.adc (.mem (.zpx 0x10#8))) ∧
    decodeTableWord 24 0x1234F9 = some (.sbc (.mem (.aby 0x1234#16))) ∧
    decodeTableWord 24 0x1234CD = some (.cmp (.mem (.abs 0x1234#16))) ∧
    decodeTableWord 16 0x10E4 = some (.cpx (.mem (.zp 0x10#8))) ∧
    decodeTableWord 16 0x10C0 = some (.cpy (.imm 0x10#8)) ∧
    decodeTableWord 24 0x12342C = some (.bit (.abs 0x1234#16)) ∧
    decodeTableWord 24 0x1234FE = some (.inc (.abx 0x1234#16)) ∧
    decodeTableWord 16 0x10C6 = some (.dec (.zp 0x10#8)) ∧
    decodeTableWord 8 0xE8 = some (.inx) ∧
    decodeTableWord 8 0xC8 = some (.iny) ∧
    decodeTableWord 8 0xCA = some (.dex) ∧
    decodeTableWord 8 0x88 = some (.dey) := by decide

theorem test_decode_shifts_control :
    decodeTableWord 8 0x0A = some (.asl .acc) ∧
    decodeTableWord 24 0x12345E = some (.lsr (.mem (.abx 0x1234#16))) ∧
    decodeTableWord 16 0x1036 = some (.rol (.mem (.zpx 0x10#8))) ∧
    decodeTableWord 24 0x12346E = some (.ror (.mem (.abs 0x1234#16))) ∧
    decodeTableWord 24 0x12344C = some (.jmp (.abs 0x1234#16)) ∧
    decodeTableWord 24 0x12346C = some (.jmp (.ind 0x1234#16)) ∧
    decodeTableWord 24 0x123420 = some (.jsr 0x1234#16) ∧
    decodeTableWord 8 0x60 = some (.rts) ∧
    decodeTableWord 16 0xF310 = some (.bpl 0xF3#8) ∧
    decodeTableWord 16 0xF330 = some (.bmi 0xF3#8) ∧
    decodeTableWord 16 0xF350 = some (.bvc 0xF3#8) ∧
    decodeTableWord 16 0xF370 = some (.bvs 0xF3#8) ∧
    decodeTableWord 16 0xF390 = some (.bcc 0xF3#8) ∧
    decodeTableWord 16 0xF3B0 = some (.bcs 0xF3#8) ∧
    decodeTableWord 16 0xF3D0 = some (.bne 0xF3#8) ∧
    decodeTableWord 16 0xF3F0 = some (.beq 0xF3#8) := by decide

theorem test_decode_system :
    decodeTableWord 8 0x48 = some (.pha) ∧
    decodeTableWord 8 0x08 = some (.php) ∧
    decodeTableWord 8 0x68 = some (.pla) ∧
    decodeTableWord 8 0x28 = some (.plp) ∧
    decodeTableWord 8 0x18 = some (.clc) ∧
    decodeTableWord 8 0x38 = some (.sec) ∧
    decodeTableWord 8 0x58 = some (.cli) ∧
    decodeTableWord 8 0x78 = some (.sei) ∧
    decodeTableWord 8 0xD8 = some (.cld) ∧
    decodeTableWord 8 0xF8 = some (.sed) ∧
    decodeTableWord 8 0xB8 = some (.clv) ∧
    decodeTableWord 8 0xEA = some (.nop) ∧
    decodeTableWord 8 0x00 = some (.brk) ∧
    decodeTableWord 8 0x40 = some (.rti) ∧
    decodeTableWord 8 0x02 = some (.kil 0x02#8) ∧
    decodeTableWord 8 0xF2 = some (.kil 0xF2#8) ∧
    decodeTableWord 8 0x03 = some (.und 0x03#8) ∧
    decodeTableWord 8 0xEB = some (.und 0xEB#8) := by decide

/-! ### The machine of the vectors: one program page, code at 0x8000, every register as after power-on -/

/-- The registers that a vector gives, with the values they have where it gives none. -/
structure Regs where
  a : Byte := 0x00
  x : Byte := 0x00
  y : Byte := 0x00
  sp : Byte := 0xFD
  p : Byte := 0x34
  pc : Addr := 0x8000
  cyc : Nat := 0
  deriving DecidableEq, Repr

/-- The machine with the given program bytes from 0x8000 on, registers and RAM. -/
def machine (program : List Byte) (r : Regs) (ram : Memory) : State :=
  { State.reset with
    a := r.a, x := r.x, y := r.y, sp := r.sp, p := r.p, pc := r.pc, cyc := r.cyc, ram := ram
    cart := { Cartridge.blank with prgRom := Memory.ofBytes program } }

/-- The registers and the RAM after a step that goes on. -/
def after : Result → Option (Regs × Memory)
  | .next t => some (⟨t.a, t.x, t.y, t.sp, t.p, t.pc, t.cyc⟩, t.ram)
  | .fault _ => none
  | .refused _ => none

/-- One Processor step of the program. -/
def run (program : List Byte) (r : Regs) (ram : Memory) : Option (Regs × Memory) :=
  after (processorStep (machine program r ram))

/-! ### One step of each instruction (95_test_vectors.md) -/

/-- Vector L5. -/
theorem test_lda_abx_crossed : run [0xBD#8, 0xF0#8, 0x02#8] { x := 0x20#8 } [(0x310, 0x99#8)] =
    some ({ a := 0x99#8, x := 0x20#8, p := 0xB4#8, pc := 0x8003#16, cyc := 5 }, [(0x310, 0x99#8)]) := by decide

/-- Vector L8. -/
theorem test_lda_izx_pointer_wraps : run [0xA1#8, 0xFE#8] { x := 0x01#8 } [(0x000, 0x02#8), (0x0FF, 0x34#8), (0x100, 0x07#8), (0x234, 0xC3#8)] =
    some ({ a := 0xC3#8, x := 0x01#8, p := 0xB4#8, pc := 0x8002#16, cyc := 6 }, [(0x000, 0x02#8), (0x0FF, 0x34#8), (0x100, 0x07#8), (0x234, 0xC3#8)]) := by decide

/-- Vector L10. -/
theorem test_ldx_zpy_wraps : run [0xB6#8, 0x10#8] { y := 0xF8#8 } [(0x008, 0x80#8)] =
    some ({ x := 0x80#8, y := 0xF8#8, p := 0xB4#8, pc := 0x8002#16, cyc := 4 }, [(0x008, 0x80#8)]) := by decide

/-- Vector L11. -/
theorem test_ldx_aby_crossed : run [0xBE#8, 0xF0#8, 0x02#8] { y := 0x10#8 } [(0x300, 0x05#8)] =
    some ({ x := 0x05#8, y := 0x10#8, pc := 0x8003#16, cyc := 5 }, [(0x300, 0x05#8)]) := by decide

/-- Vector L12. -/
theorem test_ldy_imm_zero : run [0xA0#8, 0x00#8] { y := 0x09#8 } [] =
    some ({ p := 0x36#8, pc := 0x8002#16, cyc := 2 }, []) := by decide

/-- Vector L13. -/
theorem test_ldy_abx : run [0xBC#8, 0x00#8, 0x02#8] { x := 0xFF#8 } [(0x2FF, 0xFE#8)] =
    some ({ x := 0xFF#8, y := 0xFE#8, p := 0xB4#8, pc := 0x8003#16, cyc := 4 }, [(0x2FF, 0xFE#8)]) := by decide

/-- Vector L15. -/
theorem test_sta_abx_no_penalty : run [0x9D#8, 0xF0#8, 0x02#8] { a := 0x42#8, x := 0x20#8 } [] =
    some ({ a := 0x42#8, x := 0x20#8, pc := 0x8003#16, cyc := 5 }, [(0x310, 0x42#8)]) := by decide

/-- Vector L18. -/
theorem test_sta_izy : run [0x91#8, 0x20#8] { a := 0x42#8, y := 0xFF#8 } [(0x020, 0x01#8), (0x021, 0x03#8)] =
    some ({ a := 0x42#8, y := 0xFF#8, pc := 0x8002#16, cyc := 6 }, [(0x020, 0x01#8), (0x021, 0x03#8), (0x400, 0x42#8)]) := by decide

/-- Vector L21. -/
theorem test_stx_zpy_wraps : run [0x96#8, 0x10#8] { x := 0x33#8, y := 0xF0#8 } [] =
    some ({ x := 0x33#8, y := 0xF0#8, pc := 0x8002#16, cyc := 4 }, [(0x000, 0x33#8)]) := by decide

/-- Vector L22. -/
theorem test_sty_zpx_wraps : run [0x94#8, 0xF0#8] { x := 0x20#8, y := 0x44#8 } [] =
    some ({ x := 0x20#8, y := 0x44#8, pc := 0x8002#16, cyc := 4 }, [(0x010, 0x44#8)]) := by decide

/-- Vector L23. -/
theorem test_tax : run [0xAA#8] { x := 0x11#8 } [] =
    some ({ p := 0x36#8, pc := 0x8001#16, cyc := 2 }, []) := by decide

/-- Vector L24. -/
theorem test_tay : run [0xA8#8] { a := 0x80#8 } [] =
    some ({ a := 0x80#8, y := 0x80#8, p := 0xB4#8, pc := 0x8001#16, cyc := 2 }, []) := by decide

/-- Vector L25. -/
theorem test_txa : run [0x8A#8] { a := 0x80#8, x := 0x7F#8, p := 0xB4#8 } [] =
    some ({ a := 0x7F#8, x := 0x7F#8, pc := 0x8001#16, cyc := 2 }, []) := by decide

/-- Vector L26. -/
theorem test_tya : run [0x98#8] { a := 0x01#8 } [] =
    some ({ p := 0x36#8, pc := 0x8001#16, cyc := 2 }, []) := by decide

/-- Vector L27. -/
theorem test_tsx : run [0xBA#8] {} [] =
    some ({ x := 0xFD#8, p := 0xB4#8, pc := 0x8001#16, cyc := 2 }, []) := by decide

/-- Vector L28. -/
theorem test_txs_sets_no_flag : run [0x9A#8] {} [] =
    some ({ sp := 0x00#8, pc := 0x8001#16, cyc := 2 }, []) := by decide

/-- Vector G2. -/
theorem test_ora_izy_crossed : run [0x11#8, 0x10#8] { a := 0x01#8, y := 0x01#8 } [(0x010, 0xFF#8), (0x011, 0x02#8), (0x300, 0x02#8)] =
    some ({ a := 0x03#8, y := 0x01#8, pc := 0x8002#16, cyc := 6 }, [(0x010, 0xFF#8), (0x011, 0x02#8), (0x300, 0x02#8)]) := by decide

/-- Vector S9. -/
theorem test_ora_imm : run [0x09#8, 0x80#8] { a := 0x01#8, p := 0x36#8 } [] =
    some ({ a := 0x81#8, p := 0xB4#8, pc := 0x8002#16, cyc := 2 }, []) := by decide

/-- Vector G3. -/
theorem test_and_imm : run [0x29#8, 0x0F#8] { a := 0xF0#8 } [] =
    some ({ p := 0x36#8, pc := 0x8002#16, cyc := 2 }, []) := by decide

/-- Vector G6. -/
theorem test_eor_imm : run [0x49#8, 0xFF#8] { a := 0x7F#8 } [] =
    some ({ a := 0x80#8, p := 0xB4#8, pc := 0x8002#16, cyc := 2 }, []) := by decide

/-- Vector A2. -/
theorem test_adc_signed_overflow : run [0x69#8, 0x50#8] { a := 0x50#8 } [] =
    some ({ a := 0xA0#8, p := 0xF4#8, pc := 0x8002#16, cyc := 2 }, []) := by decide

/-- Vector A9. -/
theorem test_adc_carry_in_and_out : run [0x69#8, 0x00#8] { a := 0xFF#8, p := 0x35#8 } [] =
    some ({ p := 0x37#8, pc := 0x8002#16, cyc := 2 }, []) := by decide

/-- Vector B12. -/
theorem test_sbc_signed_overflow : run [0xE9#8, 0x01#8] { a := 0x80#8, p := 0x35#8 } [] =
    some ({ a := 0x7F#8, p := 0x75#8, pc := 0x8002#16, cyc := 2 }, []) := by decide

/-- Vector B10. -/
theorem test_sbc_borrow_in : run [0xE9#8, 0x00#8] {} [] =
    some ({ a := 0xFF#8, p := 0xB4#8, pc := 0x8002#16, cyc := 2 }, []) := by decide

/-- Vector C6. -/
theorem test_cmp_less : run [0xC9#8, 0x80#8] { a := 0x7F#8, p := 0x74#8 } [] =
    some ({ a := 0x7F#8, p := 0xF4#8, pc := 0x8002#16, cyc := 2 }, []) := by decide

/-- Vector C1. -/
theorem test_cmp_equal : run [0xC9#8, 0x40#8] { a := 0x40#8 } [] =
    some ({ a := 0x40#8, p := 0x37#8, pc := 0x8002#16, cyc := 2 }, []) := by decide

/-- Vector C7. -/
theorem test_cpx_equal : run [0xE4#8, 0x10#8] { x := 0x10#8 } [(0x010, 0x10#8)] =
    some ({ x := 0x10#8, p := 0x37#8, pc := 0x8002#16, cyc := 3 }, [(0x010, 0x10#8)]) := by decide

/-- Vector C8. -/
theorem test_cpy_less : run [0xC0#8, 0x01#8] {} [] =
    some ({ p := 0xB4#8, pc := 0x8002#16, cyc := 2 }, []) := by decide

/-- Vector C9. -/
theorem test_bit_flags_from_operand : run [0x24#8, 0x10#8] { a := 0x3F#8 } [(0x010, 0xC0#8)] =
    some ({ a := 0x3F#8, p := 0xF6#8, pc := 0x8002#16, cyc := 3 }, [(0x010, 0xC0#8)]) := by decide

/-- Vector C10. -/
theorem test_bit_clears : run [0x24#8, 0x10#8] { a := 0x01#8, p := 0xF6#8 } [(0x010, 0x01#8)] =
    some ({ a := 0x01#8, pc := 0x8002#16, cyc := 3 }, [(0x010, 0x01#8)]) := by decide

/-- Vector C12. -/
theorem test_inc_wraps : run [0xE6#8, 0x10#8] {} [(0x010, 0xFF#8)] =
    some ({ p := 0x36#8, pc := 0x8002#16, cyc := 5 }, []) := by decide

/-- Vector C17. -/
theorem test_dec_abx : run [0xDE#8, 0xF0#8, 0x02#8] { x := 0x10#8 } [(0x300, 0x80#8)] =
    some ({ x := 0x10#8, pc := 0x8003#16, cyc := 7 }, [(0x300, 0x7F#8)]) := by decide

/-- Vector C18. -/
theorem test_inx_wraps : run [0xE8#8] { x := 0xFF#8 } [] =
    some ({ p := 0x36#8, pc := 0x8001#16, cyc := 2 }, []) := by decide

/-- Vector C19. -/
theorem test_iny : run [0xC8#8] { y := 0x7F#8 } [] =
    some ({ y := 0x80#8, p := 0xB4#8, pc := 0x8001#16, cyc := 2 }, []) := by decide

/-- Vector C20. -/
theorem test_dex_wraps : run [0xCA#8] {} [] =
    some ({ x := 0xFF#8, p := 0xB4#8, pc := 0x8001#16, cyc := 2 }, []) := by decide

/-- Vector C21. -/
theorem test_dey : run [0x88#8] { y := 0x01#8 } [] =
    some ({ p := 0x36#8, pc := 0x8001#16, cyc := 2 }, []) := by decide

/-- Vector H2. -/
theorem test_asl_acc : run [0x0A#8] { a := 0x40#8, p := 0x35#8 } [] =
    some ({ a := 0x80#8, p := 0xB4#8, pc := 0x8001#16, cyc := 2 }, []) := by decide

/-- Vector H12. -/
theorem test_asl_zp : run [0x06#8, 0x10#8] { a := 0x55#8 } [(0x010, 0x81#8)] =
    some ({ a := 0x55#8, p := 0x35#8, pc := 0x8002#16, cyc := 5 }, [(0x010, 0x02#8)]) := by decide

/-- Vector H4. -/
theorem test_lsr_acc : run [0x4A#8] { a := 0x01#8, p := 0xB4#8 } [] =
    some ({ p := 0x37#8, pc := 0x8001#16, cyc := 2 }, []) := by decide

/-- Vector H13. -/
theorem test_lsr_zpx : run [0x56#8, 0x10#8] { x := 0x01#8 } [(0x011, 0x02#8)] =
    some ({ x := 0x01#8, pc := 0x8002#16, cyc := 6 }, [(0x011, 0x01#8)]) := by decide

/-- Vector H6. -/
theorem test_rol_acc : run [0x2A#8] { a := 0x80#8, p := 0x35#8 } [] =
    some ({ a := 0x01#8, p := 0x35#8, pc := 0x8001#16, cyc := 2 }, []) := by decide

/-- Vector H14. -/
theorem test_rol_abs : run [0x2E#8, 0x00#8, 0x02#8] { p := 0x35#8 } [(0x200, 0x55#8)] =
    some ({ p := 0xB4#8, pc := 0x8003#16, cyc := 6 }, [(0x200, 0xAB#8)]) := by decide

/-- Vector H9. -/
theorem test_ror_acc : run [0x6A#8] { a := 0x01#8, p := 0x35#8 } [] =
    some ({ a := 0x80#8, p := 0xB5#8, pc := 0x8001#16, cyc := 2 }, []) := by decide

/-- Vector H15. -/
theorem test_ror_abx : run [0x7E#8, 0xFF#8, 0x02#8] { x := 0x01#8 } [(0x300, 0x01#8)] =
    some ({ x := 0x01#8, p := 0x37#8, pc := 0x8003#16, cyc := 7 }, []) := by decide

/-- Vector J1. -/
theorem test_jmp_abs : run [0x4C#8, 0x34#8, 0x12#8] {} [] =
    some ({ pc := 0x1234#16, cyc := 3 }, []) := by decide

/-- Vector J3. -/
theorem test_jmp_ind_same_page : run [0x6C#8, 0xFF#8, 0x02#8] {} [(0x200, 0x56#8), (0x2FF, 0x78#8), (0x300, 0x99#8)] =
    some ({ pc := 0x5678#16, cyc := 5 }, [(0x200, 0x56#8), (0x2FF, 0x78#8), (0x300, 0x99#8)]) := by decide

/-- Vector J4. -/
theorem test_jsr : run [0x20#8, 0x00#8, 0x90#8] {} [] =
    some ({ sp := 0xFB#8, pc := 0x9000#16, cyc := 6 }, [(0x1FC, 0x02#8), (0x1FD, 0x80#8)]) := by decide

/-- Vector J6. -/
theorem test_jsr_stack_wraps : run [0x20#8, 0x00#8, 0x90#8] { sp := 0x00#8 } [] =
    some ({ sp := 0xFE#8, pc := 0x9000#16, cyc := 6 }, [(0x100, 0x80#8), (0x1FF, 0x02#8)]) := by decide

/-- Vector J7. -/
theorem test_rts : run [0x60#8] { sp := 0xFB#8 } [(0x1FC, 0x02#8), (0x1FD, 0x80#8)] =
    some ({ pc := 0x8003#16, cyc := 6 }, [(0x1FC, 0x02#8), (0x1FD, 0x80#8)]) := by decide

/-- Vector J8. -/
theorem test_rts_wraps : run [0x60#8] { sp := 0xFB#8 } [(0x1FC, 0xFF#8), (0x1FD, 0xFF#8)] =
    some ({ pc := 0x0000#16, cyc := 6 }, [(0x1FC, 0xFF#8), (0x1FD, 0xFF#8)]) := by decide

/-- From the condition table of 2.6. -/
theorem test_bpl_taken : run [0x10#8, 0x02#8] {} [] =
    some ({ pc := 0x8004#16, cyc := 3 }, []) := by decide

/-- From the condition table of 2.6. -/
theorem test_bpl_not_taken : run [0x10#8, 0x02#8] { p := 0xB4#8 } [] =
    some ({ p := 0xB4#8, pc := 0x8002#16, cyc := 2 }, []) := by decide

/-- From the condition table of 2.6. -/
theorem test_bmi_taken : run [0x30#8, 0x02#8] { p := 0xB4#8 } [] =
    some ({ p := 0xB4#8, pc := 0x8004#16, cyc := 3 }, []) := by decide

/-- From the condition table of 2.6. -/
theorem test_bmi_not_taken : run [0x30#8, 0x02#8] {} [] =
    some ({ pc := 0x8002#16, cyc := 2 }, []) := by decide

/-- From the condition table of 2.6. -/
theorem test_bvc_taken : run [0x50#8, 0x02#8] {} [] =
    some ({ pc := 0x8004#16, cyc := 3 }, []) := by decide

/-- From the condition table of 2.6. -/
theorem test_bvc_not_taken : run [0x50#8, 0x02#8] { p := 0x74#8 } [] =
    some ({ p := 0x74#8, pc := 0x8002#16, cyc := 2 }, []) := by decide

/-- From the condition table of 2.6. -/
theorem test_bvs_taken : run [0x70#8, 0x02#8] { p := 0x74#8 } [] =
    some ({ p := 0x74#8, pc := 0x8004#16, cyc := 3 }, []) := by decide

/-- From the condition table of 2.6. -/
theorem test_bvs_not_taken : run [0x70#8, 0x02#8] {} [] =
    some ({ pc := 0x8002#16, cyc := 2 }, []) := by decide

/-- From the condition table of 2.6. -/
theorem test_bcc_taken : run [0x90#8, 0x02#8] {} [] =
    some ({ pc := 0x8004#16, cyc := 3 }, []) := by decide

/-- From the condition table of 2.6. -/
theorem test_bcc_not_taken : run [0x90#8, 0x02#8] { p := 0x35#8 } [] =
    some ({ p := 0x35#8, pc := 0x8002#16, cyc := 2 }, []) := by decide

/-- From the condition table of 2.6. -/
theorem test_bcs_taken : run [0xB0#8, 0x02#8] { p := 0x35#8 } [] =
    some ({ p := 0x35#8, pc := 0x8004#16, cyc := 3 }, []) := by decide

/-- From the condition table of 2.6. -/
theorem test_bcs_not_taken : run [0xB0#8, 0x02#8] {} [] =
    some ({ pc := 0x8002#16, cyc := 2 }, []) := by decide

/-- From the condition table of 2.6. -/
theorem test_bne_taken : run [0xD0#8, 0x02#8] {} [] =
    some ({ pc := 0x8004#16, cyc := 3 }, []) := by decide

/-- From the condition table of 2.6. -/
theorem test_bne_not_taken : run [0xD0#8, 0x02#8] { p := 0x36#8 } [] =
    some ({ p := 0x36#8, pc := 0x8002#16, cyc := 2 }, []) := by decide

/-- Vector J14. -/
theorem test_beq_back_crosses : run [0xF0#8, 0x80#8] { p := 0x36#8 } [] =
    some ({ p := 0x36#8, pc := 0x7F82#16, cyc := 4 }, []) := by decide

/-- From the condition table of 2.6. -/
theorem test_beq_not_taken : run [0xF0#8, 0x02#8] {} [] =
    some ({ pc := 0x8002#16, cyc := 2 }, []) := by decide

/-- Vector K2. -/
theorem test_pha : run [0x48#8] { a := 0x42#8, sp := 0x00#8 } [] =
    some ({ a := 0x42#8, sp := 0xFF#8, pc := 0x8001#16, cyc := 3 }, [(0x100, 0x42#8)]) := by decide

/-- Vector K4. -/
theorem test_php : run [0x08#8] { p := 0x20#8 } [] =
    some ({ sp := 0xFC#8, p := 0x20#8, pc := 0x8001#16, cyc := 3 }, [(0x1FD, 0x30#8)]) := by decide

/-- Vector K8. -/
theorem test_pla : run [0x68#8] { sp := 0xFF#8 } [(0x100, 0x7E#8)] =
    some ({ a := 0x7E#8, sp := 0x00#8, pc := 0x8001#16, cyc := 4 }, [(0x100, 0x7E#8)]) := by decide

/-- Vector K11. -/
theorem test_plp : run [0x28#8] { sp := 0xFC#8 } [(0x1FD, 0xCF#8)] =
    some ({ p := 0xEF#8, pc := 0x8001#16, cyc := 4 }, [(0x1FD, 0xCF#8)]) := by decide

/-- Vector K12. -/
theorem test_clc : run [0x18#8] { p := 0x35#8 } [] =
    some ({ pc := 0x8001#16, cyc := 2 }, []) := by decide

/-- Vector K13. -/
theorem test_sec : run [0x38#8] {} [] =
    some ({ p := 0x35#8, pc := 0x8001#16, cyc := 2 }, []) := by decide

/-- Vector K14. -/
theorem test_cli : run [0x58#8] {} [] =
    some ({ p := 0x30#8, pc := 0x8001#16, cyc := 2 }, []) := by decide

/-- Vector K15. -/
theorem test_sei : run [0x78#8] { p := 0x30#8 } [] =
    some ({ pc := 0x8001#16, cyc := 2 }, []) := by decide

/-- Vector K16. -/
theorem test_cld : run [0xD8#8] { p := 0x3C#8 } [] =
    some ({ pc := 0x8001#16, cyc := 2 }, []) := by decide

/-- Vector K17. -/
theorem test_sed : run [0xF8#8] {} [] =
    some ({ p := 0x3C#8, pc := 0x8001#16, cyc := 2 }, []) := by decide

/-- Vector K18. -/
theorem test_clv : run [0xB8#8] { p := 0x74#8 } [] =
    some ({ pc := 0x8001#16, cyc := 2 }, []) := by decide

/-- Vector K19. -/
theorem test_nop : run [0xEA#8] { p := 0xF7#8 } [] =
    some ({ p := 0xF7#8, pc := 0x8001#16, cyc := 2 }, []) := by decide

/-- Vector K23. -/
theorem test_rti : run [0x40#8] { sp := 0xFA#8 } [(0x1FB, 0xC3#8), (0x1FC, 0x34#8), (0x1FD, 0x12#8)] =
    some ({ p := 0xE3#8, pc := 0x1234#16, cyc := 6 }, [(0x1FB, 0xC3#8), (0x1FC, 0x34#8), (0x1FD, 0x12#8)]) := by decide

/-- Vector U4. -/
theorem test_und_reads_no_operand : run [0x03#8] { a := 0x11#8, x := 0x22#8, p := 0xF5#8 } [] =
    some ({ a := 0x11#8, x := 0x22#8, p := 0xF5#8, pc := 0x8001#16, cyc := 1 }, []) := by decide
/-- Vector K20, with the vector word 9000 in the last bytes of the page. -/
theorem test_brk : after (processorStep { machine [] { p := 0x30#8 } [] with
      cart := { Cartridge.blank with prgRom := [(0x0001, 0xFF#8), (0x3FFF, 0x90#8)] } }) =
    some ({ sp := 0xFA#8, p := 0x34#8, pc := 0x9000#16, cyc := 7 }, [(0x1FB, 0x30#8), (0x1FC, 0x02#8), (0x1FD, 0x80#8)]) := by
  decide

/-- Vector U1: the whole state but the halt flag is unchanged. -/
theorem test_kil : processorStep (machine [0x02#8] { a := 0x11#8, p := 0xF5#8 } []) =
    .next { machine [0x02#8] { a := 0x11#8, p := 0xF5#8 } [] with halted := true } := rfl

/-- Vector U6: the event and the address of the next opcode. -/
theorem test_und_event : processorStep (machine [0x80#8, 0x55#8] {} []) =
    .next { machine [0x80#8, 0x55#8] {} [] with pc := 0x8001#16, cyc := 1, events := [⟨0x8000#16, 0x80#8⟩] } := rfl

/-! ### Memory paths, picture unit, interrupts, host (95_test_vectors.md 2.9 to 2.14) -/

/-- Vectors M6 and M7. -/
theorem test_word_reads : (memRead16 0x00FF#16 (machine [] {} [(0x0FF, 0x34#8), (0x100, 0x12#8)])).1 = 0x1234#16 ∧
    (memRead16 0xFFFF#16 { machine [] {} [(0x000, 0xCD#8)] with
      cart := { Cartridge.blank with prgRom := [(0x3FFF, 0x80#8)] } }).1 = 0xCD80#16 := by decide

/-- Vectors M4 and M5. -/
theorem test_rom_writes_ignored : memWrite 0x6000#16 0x55#8 (machine [0x11#8] {} []) = machine [0x11#8] {} [] ∧
    memWrite 0x8000#16 0x55#8 (machine [0x11#8] {} []) = machine [0x11#8] {} [] := by decide

/-- Vectors Q1 to Q3. -/
theorem test_data_port_writes :
    (memWrite 0x2007#16 0x21#8 (memWrite 0x2007#16 0x0F#8 (memWrite 0x2006#16 0x00#8 (memWrite 0x2006#16 0x3F#8
      State.reset)))).ppu = { State.reset.ppu with palRam := [(0, 0x0F#8), (1, 0x21#8)], vramAddr := 0x3F02#16 } := by decide

/-- Vectors Q6 and Q7: the write toggle is shared. -/
theorem test_shared_toggle : (memWrite 0x2006#16 0x77#8 (memWrite 0x2005#16 0x11#8 { State.reset with
      ppu := { State.reset.ppu with vramAddr := 0x2040#16 } })).ppu =
    { State.reset.ppu with scrollX := 0x11#8, vramAddr := 0x2077#16 } := by decide

/-- Vectors Q13 and Q14. -/
theorem test_oam_data : (memWrite 0x2004#16 0x03#8 (memWrite 0x2004#16 0x02#8 (memWrite 0x2004#16 0x01#8 (memWrite 0x2003#16
      0xFE#8 State.reset)))).ppu =
    { State.reset.ppu with oam := [(0x00, 0x03#8), (0xFE, 0x01#8), (0xFF, 0x02#8)], oamAddr := 0x01#8 } := by decide

/-- The nametable table of 2.10, for both mirroring bits. -/
theorem test_nametables : ntIndex Cartridge.blank 0x2405 = 5 ∧ ntIndex Cartridge.blank 0x2805 = 1029 ∧
    ntIndex { Cartridge.blank with mirroring := true } 0x2405 = 1029 ∧
    ntIndex { Cartridge.blank with mirroring := true } 0x2805 = 5 ∧
    ntIndex { Cartridge.blank with fourScreen := true } 0x2C05 = 3077 := by decide

/-- Vectors V1, V3 and V5. -/
theorem test_palette : (vidWrite 0x3F10 0x2A#8 State.reset).ppu.palRam = [(0x00, 0x2A#8)] ∧
    (vidWrite 0x3F11 0x13#8 State.reset).ppu.palRam = [(0x11, 0x13#8)] ∧
    (vidWrite 0x7F00 0x09#8 State.reset).ppu.palRam = [(0x00, 0x09#8)] := by decide

/-- The set-up of 2.13 with the given mask and sprite 0. -/
def picture (mask : Byte) (sprite : Memory) : State :=
  { State.reset with
    cart := { Cartridge.blank with chrMem := [(0x10, 0x80#8)] }
    ppu := { State.reset.ppu with
      mask := mask
      ntRam := [(0x000, 0x01#8), (0x3C0, 0x03#8)]
      palRam := [(0x00, 0x0F#8), (0x0D, 0x21#8), (0x11, 0x16#8)]
      oam := sprite } }

/-- Vectors X1 to X6; the other sprites have Y byte 0 here, tile 0, which is transparent. -/
theorem test_pixel_index : pixelIndex (picture 0x0A#8 []) 0 0 = 0x3F0D ∧ pixelIndex (picture 0x0A#8 []) 1 0 = 0x3F00 ∧
    pixelIndex (picture 0x08#8 []) 0 0 = 0x3F00 ∧ pixelIndex (picture 0x00#8 []) 0 0 = 0x3F00 ∧
    pixelIndex (picture 0x1E#8 [(1, 0x01#8)]) 0 1 = 0x3F11 ∧ pixelIndex (picture 0x1E#8 [(1, 0x01#8)]) 0 0 = 0x3F0D := by
  decide

/-- The row of T1 for tick 82523, with the NMI enabled. -/
theorem test_vblank_tick : (tick { State.reset with
      ppu := { State.reset.ppu with scanline := 241, dot := 0, ctrl := 0x80#8 } }) =
    { State.reset with nmiPending := true, ppu := { State.reset.ppu with
        scanline := 241, dot := 1, ctrl := 0x80#8, vblank := true } } := by decide

/-- Vector I1. -/
theorem test_nmi_entry : after (.next (raiseInterrupt .nmi { machine [] { p := 0xB5#8, pc := 0x8123#16 } [] with
      nmiPending := true, cart := { Cartridge.blank with prgRom := [(0x3FFB, 0x90#8)] } })) =
    some ({ sp := 0xFA#8, p := 0xB5#8, pc := 0x9000#16, cyc := 7 }, [(0x1FB, 0xA5#8), (0x1FC, 0x23#8), (0x1FD, 0x81#8)]) := by
  decide

/-- Vector I7, and R322: a halted machine stays as it is. -/
theorem test_halted_step : step { State.reset with halted := true, nmiPending := true } =
    .next { State.reset with halted := true, nmiPending := true } := rfl

/-- A step from reset of a placed word (vector L2): the load, and three ticks for each of its two cycles. -/
theorem test_step_runs_placed_word : after (step (State.reset.withFetchWord 16 0x80A9)) =
    some ({ a := 0x80#8, p := 0xB4#8, pc := 0x0002#16, cyc := 2 }, [(0x000, 0xA9#8), (0x001, 0x80#8)]) := by decide +kernel

theorem test_step_advances_the_picture_unit :
    (match step (State.reset.withFetchWord 16 0x80A9) with | .next t => some (t.ppu.scanline, t.ppu.dot) | _ => none) =
      some (-1, 6) := by decide +kernel

/-! ### The hypotheses of the statements are met -/

/-- A state in the lock step, with memories that list something. -/
def demo : State :=
  { State.reset with
    ram := [(0x010, 0x42#8), (0x1FD, 0x80#8)], ppu := { State.reset.ppu with oam := [(0x00, 0x01#8)] }
    cart := { Cartridge.blank with prgRom := [(0x0000, 0xA9#8), (0x3FFF, 0x90#8)] } }

theorem demo_canonical : MemoriesCanonical demo :=
  ⟨by decide, by decide, by decide, by decide, by decide, by decide, by decide, by decide, by decide, by decide, by decide,
    by decide, by decide⟩

theorem witness_DecodeEncodeRoundTrip : WellFormed (.sta (.aby 0xFFFF#16)) ∧ WellFormed (.kil 0xF2#8) := by decide

theorem witness_EncodeDecodeRoundTrip :
    decode [0x99#8, 0xFF#8, 0xFF#8, 0x00#8] = .ok (.sta (.aby 0xFFFF#16), [0x00#8]) := rfl

theorem witness_HaltingAndUndefinedClasses :
    decode [0xF2#8, 0x00#8, 0x00#8] = .ok (.kil 0xF2#8, [0x00#8, 0x00#8]) ∧
    decode [0xFF#8, 0x00#8, 0x00#8] = .ok (.und 0xFF#8, [0x00#8, 0x00#8]) := ⟨rfl, rfl⟩

theorem witness_RamMirroring : MemoriesCanonical demo ∧ (0x1FFF#16 : Addr).toNat < 0x2000 ∧
    SameCell 0x07FF#16 0x1FFF#16 ∧ ¬ SameCell 0x07FE#16 0x1FFF#16 :=
  ⟨demo_canonical, by decide, by unfold SameCell; decide, by unfold SameCell; decide⟩

theorem witness_WordAccess : (0x0000#16 : Addr).toNat = ((0xFFFF#16 : Addr).toNat + 1) % 65536 := by decide

theorem witness_OutsideRamAndRegisters :
    (0x4000 ≤ (0x4000#16 : Addr).toNat ∧ (0x4000#16 : Addr).toNat < 0x8000 ∧ (0x4000#16 : Addr) ≠ 0x4014#16) ∧
    (0x4000 ≤ (0x7FFF#16 : Addr).toNat ∧ (0x7FFF#16 : Addr).toNat < 0x8000 ∧ (0x7FFF#16 : Addr) ≠ 0x4014#16) ∧
    (demo.cart.supported = true ∧ demo.cart.prgPages = 1 ∧ 0x8000 ≤ (0x8000#16 : Addr).toNat) ∧
    (Cartridge.supported { demo.cart with prgPages := 2 } = true ∧ 0x8000 ≤ (0xFFFF#16 : Addr).toNat) := by decide

theorem witness_ReadsWithSideEffects :
    (memRead 0x3FFF#16 State.reset).2 ≠ State.reset ∧
    (memRead 0x2002#16 { State.reset with ppu := { State.reset.ppu with w := true } }).2 ≠
      { State.reset with ppu := { State.reset.ppu with w := true } } := by decide

theorem witness_NametableMirroring : (3 < 4 ∧ 1023 < 1024) ∧ (3 < 4 ∧ 0x2FF < 1024 ∧ 3 * 1024 + 0x2FF < 0xF00) ∧
    (1 * 1024 + 1023 : Nat) = (if demo.cart.fourScreen then 3 else if demo.cart.mirroring then 3 % 2 else 3 / 2) * 1024 + 1023 := by
  decide

theorem witness_PaletteAliasing : (0x3F00 ≤ 0x3F1C ∧ 0x3F1C ≤ 0x3FFF ∧
      0x0C = if 0x3F1C % 32 ∈ [0x10, 0x14, 0x18, 0x1C] then 0x3F1C % 32 - 0x10 else 0x3F1C % 32) ∧
    (0x3F00 ≤ 0x3FFF ∧ 0x1F = if 0x3FFF % 32 ∈ [0x10, 0x14, 0x18, 0x1C] then 0x3FFF % 32 - 0x10 else 0x3FFF % 32) := by
  decide

theorem witness_CharacterMemory : 0x1FFF < 0x2000 ∧ demo.cart.chrPages = 0 ∧
    Cartridge.chrPages { demo.cart with chrPages := 1 } ≠ 0 := by decide

theorem witness_RegisterAccess :
    (InWindow 0x2000#16 ∧ (0x2000#16 : Addr).toNat % 8 = 0) ∧ (InWindow 0x3FF9#16 ∧ (0x3FF9#16 : Addr).toNat % 8 = 1) ∧
    (InWindow 0x2002#16 ∧ (0x2002#16 : Addr).toNat % 8 = 2) ∧ (InWindow 0x3FFB#16 ∧ (0x3FFB#16 : Addr).toNat % 8 = 3) ∧
    (InWindow 0x2004#16 ∧ (0x2004#16 : Addr).toNat % 8 = 4) ∧
    (InWindow 0x3FFE#16 ∧ (0x3FFE#16 : Addr).toNat % 8 ∈ [0, 1, 3, 5, 6]) := by
  unfold InWindow
  decide

theorem witness_SharedWriteToggle :
    (InWindow 0x3FFD#16 ∧ (0x3FFD#16 : Addr).toNat % 8 = 5 ∧ demo.ppu.w = false) ∧
    (InWindow 0x2006#16 ∧ (0x2006#16 : Addr).toNat % 8 = 6) ∧
    (State.setPpu { demo.ppu with w := true } demo).ppu.w = true := by
  unfold InWindow
  decide

theorem witness_DataPort : InWindow 0x2007#16 ∧ (0x2007#16 : Addr).toNat % 8 = 7 ∧
    InWindow 0x3FFF#16 ∧ (0x3FFF#16 : Addr).toNat % 8 = 7 := by
  unfold InWindow
  decide

theorem witness_OamTransfer : MemoriesCanonical demo ∧ (0x1F#8 : Byte).toNat < 0x20 ∧ 0x3F < (0x40#8 : Byte).toNat ∧
    255 < 256 ∧ (0x1FFF#16 : Addr).toNat = (0x1F#8 : Byte).toNat * 256 + 255 := ⟨demo_canonical, by decide⟩

theorem witness_VblankOverAFrame : demo.ppu.scanline = -1 ∧ demo.ppu.dot = 0 ∧ demo.ppu.vblank = false ∧
    89342 ≤ 89342 ∧ 82523 ≤ 89342 ∧ PositionLegal demo.ppu := by
  unfold PositionLegal
  decide

theorem witness_PictureOverAFrame : MemoriesCanonical demo ∧ demo.ppu.scanline = -1 ∧ demo.ppu.dot = 0 ∧
    (82522 ≤ 82522 ∧ 82522 ≤ 89342 ∧ 255 < 256 ∧ 239 < 240) ∧ 82521 < 82522 := ⟨demo_canonical, by decide⟩

theorem witness_RenderingDisabled : demo.ppu.mask.getLsbD 3 = false ∧ demo.ppu.mask.getLsbD 4 = false := by decide

/-- Sprite 0 hidden by its Y byte, sprite 1 opaque at (8, 1). -/
def sprites : State := picture 0x10#8 [(0, 0xEF#8), (5, 0x01#8), (7, 0x08#8)]

/-- A sprite behind an opaque background pixel at (0, 1). -/
def behindScene : State :=
  { picture 0x1E#8 [(1, 0x01#8), (2, 0x20#8)] with cart := { Cartridge.blank with chrMem := [(0x10, 0x80#8), (0x11, 0x80#8)] } }

theorem witness_SpriteSelection : (1 < 240 ∧ 239 ≤ (sprites.ppu.oam.get (4 * 0)).toNat ∧
      0 ≤ (sprites.ppu.oam.get (4 * 1)).toNat ∧ spritePixelOf sprites 8 0 1 = none) ∧
    (spritePixelOf sprites 8 1 1 = some ⟨1, 0, false⟩ ∧ (∀ j < 1, spritePixelOf sprites 8 1 j = none) ∧
      sprites.ppu.mask.getLsbD 4 = true ∧ 8 ≤ 8) ∧
    (∀ i < 64, spritePixelOf sprites 16 1 i = none) ∧
    demo.ppu.mask.getLsbD 4 = false ∧ (7 < 8 ∧ sprites.ppu.mask.getLsbD 2 = false) := by decide

/-- The background of vector X1 at the left corner, and each of the compositions: the backdrop (X2), the background (X1), the
sprite (X5); a sprite behind the background. -/
theorem witness_PixelComposition :
    (demo.ppu.mask.getLsbD 3 = false ∧ 7 < 8 ∧ (picture 0x08#8 []).ppu.mask.getLsbD 1 = false) ∧
    ((picture 0x0A#8 []).ppu.mask.getLsbD 3 = true ∧ (picture 0x0A#8 []).ppu.mask.getLsbD 1 = true ∧
      255 + (picture 0x0A#8 []).ppu.scrollX.toNat + ((picture 0x0A#8 []).ppu.ctrl.getLsbD 0).toNat * 256 = 0 * 256 + 255 ∧
      239 + (picture 0x0A#8 []).ppu.scrollY.toNat + ((picture 0x0A#8 []).ppu.ctrl.getLsbD 1).toNat * 240 = 0 * 240 + 239) ∧
    (bgPixel (picture 0x0A#8 []) 1 0 = (0, 3) ∧ spritePixel (picture 0x0A#8 []) 1 0 = none) ∧
    bgPixel (picture 0x0A#8 []) 0 0 = (1, 3) ∧
    spritePixel (picture 0x1E#8 [(1, 0x01#8)]) 0 1 = some ⟨1, 0, false⟩ ∧
    (bgPixel (picture 0x1E#8 [(0, 0xFF#8), (5, 0x01#8), (6, 0x20#8)]) 0 1 = (0, 3) ∧
      spritePixel (picture 0x1E#8 [(0, 0xFF#8), (5, 0x01#8), (6, 0x20#8)]) 0 1 = some ⟨1, 0, true⟩) ∧
    (bgPixel behindScene 0 1 = (1, 3) ∧ spritePixel behindScene 0 1 = some ⟨1, 0, true⟩) := by decide

/-- Two states that differ in the cycle counter, RAM, the VRAM address and the position. -/
theorem witness_PixelPurity : ∃ s t : State, s ≠ t ∧ t.ppu.ctrl = s.ppu.ctrl ∧ t.ppu.mask = s.ppu.mask ∧
    t.ppu.scrollX = s.ppu.scrollX ∧ t.ppu.scrollY = s.ppu.scrollY ∧ t.ppu.oam = s.ppu.oam ∧ t.ppu.ntRam = s.ppu.ntRam ∧
    t.ppu.palRam = s.ppu.palRam ∧ t.cart.chrMem = s.cart.chrMem ∧ t.cart.mirroring = s.cart.mirroring ∧
    t.cart.fourScreen = s.cart.fourScreen ∧ t.config.paletteArgb = s.config.paletteArgb :=
  ⟨demo, { demo with cyc := 9, ram := [], ppu := { demo.ppu with vramAddr := 0x2000#16, dot := 5 } }, by decide⟩

theorem witness_EffectiveAddresses : (Mem.izx 0xFF#8).mode ∈ [.zp, .zpx, .zpy, .abs, .izx] := by decide

/-- The store to the OAM transfer trigger, and another. -/
theorem witness_Stores :
    (513 = if effAddr (.abs 0x4014#16) demo = 0x4014#16 then demo.config.oamDmaCycles else 0) ∧
    (0 = if effAddr (.zp 0x10#8) demo = 0x4014#16 then demo.config.oamDmaCycles else 0) := by decide

theorem witness_AddWithCarry :
    0x42 = demo.a.toNat + (srcValue (.mem (.zp 0x10#8)) demo).toNat + (getFlag .carry demo.p).toNat := by decide

theorem witness_SubtractWithBorrow : (1 = 1 - (getFlag .carry demo.p).toNat) ∧ (0 = 1 - (getFlag .carry 0x35#8).toNat) := by
  decide

theorem witness_OverflowIsSigned : (0 : Int) = (getFlag .carry 0x34#8).toNat ∧ (1 : Int) = (getFlag .carry 0x35#8).toNat := by
  decide

theorem witness_ComparesAndBitTest : (0x42#8 : Byte) = srcValue (.mem (.zp 0x10#8)) demo := by decide

theorem witness_IncrementMemory : (0x4014#16 = effAddr (.abs 0x4014#16) demo ∧
      513 = if (0x4014#16 : Addr) = 0x4014#16 then demo.config.oamDmaCycles else 0) ∧
    (0x0010#16 = effAddr (.zp 0x10#8) demo ∧ 0 = if (0x0010#16 : Addr) = 0x4014#16 then demo.config.oamDmaCycles else 0) := by
  decide

theorem witness_ShiftsAndRotates : 0 = (getFlag .carry demo.p).toNat ∧ 0x0010#16 = effAddr (.zp 0x10#8) demo ∧
    0x42#8 = readValue 0x0010#16 demo ∧ 0 = if (0x0010#16 : Addr) = 0x4014#16 then demo.config.oamDmaCycles else 0 := by
  decide

/-- The pointer at the end of a page. -/
theorem witness_Jumps : (0x0200#16 : Addr).toNat = (0x02FF#16 : Addr).toNat / 256 * 256 + ((0x02FF#16 : Addr).toNat + 1) % 256 := by
  decide

/-- A subroutine that pushed and popped a byte: its residue lies below the stack pointer. -/
theorem witness_CallThenReturn : MemoriesCanonical demo ∧ ∃ called before : State, exec (.jsr 0x9000#16) demo = .next called ∧
    before.sp = called.sp ∧ readValue (stackAddr called.sp) before ≠ readValue (stackAddr called.sp) called ∧
    readValue (stackAddr (called.sp + 1#8)) before = readValue (stackAddr (called.sp + 1#8)) called ∧
    readValue (stackAddr (called.sp + 2#8)) before = readValue (stackAddr (called.sp + 2#8)) called :=
  ⟨demo_canonical, { (push16 0x0002#16 demo) with pc := 0x9000#16, cyc := 6 },
    (pop (push 0xEE#8 { (push16 0x0002#16 demo) with pc := 0x9005#16, a := 0x55#8 })).2, rfl, by decide⟩

theorem witness_Branches : ((Instr.bne 0xF3#8, true) : Instr × Bool) ∈
    [(.bpl 0xF3#8, !getFlag .negative demo.p), (.bne 0xF3#8, !getFlag .zero demo.p)] := by decide

theorem witness_StackPrimitives : MemoriesCanonical demo ∧
    (0x2369#16 : Addr).toNat = (0x23#8 : Byte).toNat * 256 + (0x69#8 : Byte).toNat := ⟨demo_canonical, by decide⟩

theorem witness_FlagInstructions : ((Instr.clv, Flag.overflow, false) : Instr × Flag × Bool) ∈
    [(.clv, .overflow, false), (.nop, .carry, getFlag .carry demo.p)] := by decide

theorem witness_InterruptEntry : (0xFFFA#16 : Addr) = (match InterruptKind.nmi with | .nmi => 0xFFFA#16 | .irq => 0xFFFE#16) ∧
    (0xFFFE#16 : Addr) = (match InterruptKind.irq with | .nmi => 0xFFFA#16 | .irq => 0xFFFE#16) := ⟨rfl, rfl⟩

/-- A handler that pushed and popped a byte. -/
theorem witness_InterruptThenReturn : MemoriesCanonical demo ∧ ∃ entered before : State, entered = raiseInterrupt .nmi demo ∧
    before.sp = entered.sp ∧ readValue (stackAddr entered.sp) before ≠ readValue (stackAddr entered.sp) entered ∧
    ∀ b ∈ [entered.sp + 1#8, entered.sp + 2#8, entered.sp + 3#8],
      readValue (stackAddr b) before = readValue (stackAddr b) entered :=
  ⟨demo_canonical, raiseInterrupt .nmi demo, (pop (push 0xEE#8 { raiseInterrupt .nmi demo with a := 0x55#8 })).2, rfl, by decide⟩

/-- A running machine, its input line low, that executes LDA #$80. -/
theorem witness_LoopIteration :
    ∃ t, processorStep (machine [0xA9#8, 0x80#8] {} []) = .next t ∧ t.halted = false ∧
      (machine [0xA9#8, 0x80#8] {} []).cart.supported = true ∧ (machine [0xA9#8, 0x80#8] {} []).halted = false ∧
      (machine [0xA9#8, 0x80#8] {} []).inputs = [] ∧ (machine [0xA9#8, 0x80#8] {} []).nmiPending = false :=
  ⟨{ machine [0xA9#8, 0x80#8] {} [] with a := 0x80#8, p := 0xB4#8, pc := 0x8002#16, cyc := 2 }, rfl, rfl, rfl, rfl, rfl, rfl⟩

/-- A pending NMI; an unmasked IRQ; a request to stop; a halted machine with no input waiting; a halting opcode. -/
theorem witness_LoopIteration_others :
    (State.nmiPending { demo with nmiPending := true } = true) ∧
    (getFlag .interruptDisable (State.p { demo with p := 0x30#8 }) = false) ∧
    ({ demo with inputs := [.sample true true, .sample false false] }.inputs = Input.sample true true :: [.sample false false]) ∧
    (State.halted { demo with halted := true } = true ∧ demo.inputs = []) ∧
    (∃ t, processorStep (machine [0x02#8] {} []) = .next t ∧ t.halted = true) := by
  refine ⟨rfl, by decide, rfl, ⟨rfl, rfl⟩, { machine [0x02#8] {} [] with halted := true }, rfl, rfl⟩

/-- LDA #$80 at 0x8000: the three reads change nothing. -/
theorem witness_StepRunsDecodedInstruction :
    decode [(memRead 0x8000#16 (machine [0xA9#8, 0x80#8] {} [])).1, (memRead 0x8001#16 (machine [0xA9#8, 0x80#8] {} [])).1,
      (memRead 0x8002#16 (machine [0xA9#8, 0x80#8] {} [])).1] = .ok (.lda (.imm 0x80#8), [0x00#8]) ∧
    (memRead 0x8000#16 (machine [0xA9#8, 0x80#8] {} [])).2 = machine [0xA9#8, 0x80#8] {} [] ∧
    (memRead 0x8001#16 (machine [0xA9#8, 0x80#8] {} [])).2 = machine [0xA9#8, 0x80#8] {} [] ∧
    (∃ t, exec (.lda (.imm 0x80#8)) (machine [0xA9#8, 0x80#8] {} []) = .next t) ∧
    ¬ InWindow 0x8000#16 ∧ ¬ InWindow 0x8001#16 ∧ ¬ InWindow 0x8002#16 :=
  ⟨rfl, rfl, rfl, ⟨_, rfl⟩, by unfold InWindow; decide, by unfold InWindow; decide, by unfold InWindow; decide⟩

theorem witness_HostCalls : ∀ c : HostCall, { demo with inputs := [.call c] }.inputs = Input.call c :: [] ∧
    demo.cart.supported = true ∧ demo.halted = false := fun _ => ⟨rfl, by decide, rfl⟩

theorem witness_ContainerAndCartridge_refused : Cartridge.mapperId { demo.cart with mapperId := 0x01#8 } ≠ 0x00#8 ∧
    Cartridge.prgPages { demo.cart with prgPages := 0 } = 0 := by decide

/-- One program page of 0xEA, no character page, no trainer. -/
theorem witness_ContainerAndCartridge : (0x00#8 : Byte) &&& 0xF0#8 = 0x00#8 ∧ (0x01#8 : Byte) >>> 4 = 0x00#8 ∧
    (0x01#8 : Byte) ≠ 0x00#8 ∧ (List.replicate 8 (0x00#8 : Byte)).length = 8 ∧
    ([] : List Byte).length = (if (0x01#8 : Byte).getLsbD 2 then 512 else 0) ∧
    (List.replicate 16384 (0xEA#8 : Byte)).length = (0x01#8 : Byte).toNat * 16384 ∧
    ([] : List Byte).length = (0x00#8 : Byte).toNat * 8192 :=
  ⟨by decide, by decide, by decide, List.length_replicate, by decide, by rw [List.length_replicate]; decide, by decide⟩

theorem witness_WhatNoInstructionChanges : ∃ t, exec (.sta (.abs 0x2000#16)) demo = .next t ∧ demo.cart.chrPages = 0 ∧
    Cartridge.chrPages { demo.cart with chrPages := 1 } ≠ 0 := ⟨_, rfl, rfl, by decide⟩

theorem witness_CycleCounterIsUnread : (∃ t, exec (.inc (.zp 0x10#8)) demo = .next t) ∧
    ((∀ rest : List Input, demo.inputs ≠ .call .powerOn :: rest) ∧ ∃ t, step demo = .next t) ∧
    ({ demo with inputs := [.call .powerOn] }.inputs = Input.call .powerOn :: []) ∧
    step { demo with cart := { Cartridge.blank with prgPages := 0 } } = .refused .unsupportedCartridge :=
  ⟨⟨_, rfl⟩, ⟨fun _ h => (by cases h), ⟨_, rfl⟩⟩, rfl, rfl⟩

theorem witness_DecimalFlagHasNoEffect : (∃ t, exec .php demo = .next t) ∧ (∃ t, exec (.adc (.zp 0x10#8 |> .mem)) demo = .next t) ∧
    ¬ SameCell 0x0010#16 (stackAddr 0xFD#8) := ⟨⟨_, rfl⟩, ⟨_, rfl⟩, by unfold SameCell; decide⟩

theorem witness_StepKeeps : MemoriesCanonical demo ∧ LockStep demo ∧ (PositionLegal demo.ppu ∧ VblankOnlyInBlank demo) ∧
    UnusedBitSet demo ∧ (∃ t, step demo = .next t) ∧ demo.inputs = [] :=
  ⟨demo_canonical, by unfold LockStep; decide, by unfold PositionLegal VblankOnlyInBlank; decide, by unfold UnusedBitSet; decide,
    ⟨_, rfl⟩, rfl⟩

end Sys2Proof.Tests
end

section
/-! PROOFS. The two address spaces (20_memory.md): internal RAM on the main path, the palette on the video path, and
what of the cartridge a step can change. -/

namespace Sys2Proof.Proofs

open Sys2Proof.Machine

/-! ### Internal RAM (R64) -/

theorem memRead_ram {a : Addr} (h : a.toNat < 0x2000) (s : State) : memRead a s = (s.ram.get (a.toNat % 0x800), s) := by
  simp [memRead, readValue, readEffect, route_ram h]

theorem not_inWindow_of_ram {a : Addr} (h : a.toNat < 0x2000) : ¬ InWindow a := fun hw => absurd h (Nat.not_lt.2 hw.1)

theorem ne_trigger_of_ram {a : Addr} (h : a.toNat < 0x2000) : a ≠ 0x4014#16 := by
  rintro rfl
  exact absurd h (by decide)

/-- A write is a store with no read before it. -/
theorem memWrite_stored (a : Addr) (v : Byte) (s : State) : Stored a v s s (memWrite a v s) :=
  stored_of (.inl rfl) ⟨rfl, rfl, rfl⟩

/-- Settles O6: a write to RAM is a store outside the register window and not at the transfer trigger, and `Stored` says
what that does to every address. -/
theorem ramMirroring : Obligations.RamMirroring := by
  intro a b v s hs ha
  obtain ⟨-, -, -, -, frame, stored⟩ := memWrite_stored a v s
  obtain ⟨hppu, hcart, -, hother⟩ := frame (not_inWindow_of_ram ha) (ne_trigger_of_ram ha)
  refine ⟨memRead_ram ha s, fun hb => ?_, hother b, hppu, hcart⟩
  have hv : readValue b (memWrite a v s) = v := stored hs b hb
  simp only [memRead, hv, readEffect_outside (not_inWindow_of_ram hb.1)]

/-! ### The palette (R84, R85) -/

/-- The model's mask test picks out the four aliased cells of R85. -/
theorem palIndex_eq (a : Nat) :
    palIndex a = if a % 32 ∈ [0x10, 0x14, 0x18, 0x1C] then a % 32 - 0x10 else a % 32 := by
  have cells : ∀ p < 32, (if p &&& 0x13 = 0x10 then p &&& 0x0F else p) =
      if p ∈ [0x10, 0x14, 0x18, 0x1C] then p - 0x10 else p := by decide
  exact cells (a % 32) (Nat.mod_lt _ (by decide))

theorem videoRoute_palette (c : Cartridge) {a : Nat} (h : 0x3F00 ≤ a) (h' : a ≤ 0x3FFF) :
    videoRoute c a = .palette (palIndex a) := by
  have hm : a % 0x4000 = a := Nat.mod_eq_of_lt (by omega)
  have h1 : ¬ a < 0x2000 := by omega
  have h2 : ¬ a < 0x3000 := by omega
  have h3 : ¬ a < 0x3F00 := by omega
  simp only [videoRoute, hm, if_neg h1, if_neg h2, if_neg h3]

/-- Settles O11: reads and writes of the range go to the palette cell that `palIndex_eq` names. -/
theorem paletteAliasing : Obligations.PaletteAliasing := by
  rintro s a v h h' k rfl
  have hr : videoRoute s.cart a = .palette _ := videoRoute_palette s.cart h h'
  rw [palIndex_eq] at hr
  exact ⟨by simp only [vidRead, hr], by simp only [vidWrite, hr]⟩

/-! ### The cartridge (R96) -/

/-- The cartridge of `t` is that of `s` but for character RAM. -/
def RomKept (s t : State) : Prop :=
  t.cart = { s.cart with chrMem := t.cart.chrMem } ∧ (s.cart.chrPages ≠ 0 → t.cart.chrMem = s.cart.chrMem)

section Cart

variable {s t : State}

theorem RomKept.of_cart_eq (h : t.cart = s.cart) : RomKept s t := by
  unfold RomKept
  rw [h]
  exact ⟨rfl, fun _ => rfl⟩

theorem RomKept.of_kept (h : Kept s t) : RomKept s t := ⟨h.cart, h.rom⟩

/-- What follows may change anything but the cartridge. -/
theorem RomKept.congr_right {r : State} (h : RomKept s t) (e : r.cart = t.cart) : RomKept s r := by
  unfold RomKept
  rw [e]
  exact h

theorem advance_cart (n : Nat) (s : State) : (advance n s).cart = s.cart := by rw [advance_eq]

theorem followTicks_cart (s t : State) : (followTicks s t).cart = t.cart := by
  unfold followTicks
  split
  · rfl
  · exact advance_cart _ t

theorem exec_romKept {i : Instr} (h : exec i s = .next t) : RomKept s t := by
  by_cases hi : documented i = true
  · obtain ⟨r, hr, hk⟩ := exec_kept i hi s
    cases hr.symm.trans h
    exact .of_kept hk
  · cases i
    case kil op =>
      cases h
      exact .of_cart_eq rfl
    case und op =>
      cases h
      exact .of_cart_eq rfl
    all_goals exact absurd rfl hi

theorem processorStep_romKept (h : processorStep s = .next t) : RomKept s t := by
  have hf : (fetch s).2.cart = s.cart := by rw [fetch_eq]; rfl
  have he : RomKept (fetch s).2 t := exec_romKept h
  unfold RomKept at he
  rwa [hf] at he

theorem raiseInterrupt_romKept (k : InterruptKind) (s : State) : RomKept s (raiseInterrupt k s) :=
  have hk : Kept _ (raiseInterrupt k s) := (raiseInterrupt_kept k s).1
  ⟨hk.cart, hk.rom⟩

/-- Power-on loads character memory again only if it is RAM (R340). -/
theorem powerOn_romKept (s : State) : RomKept s (powerOn s) := by
  cases hw : s.cart.chrWritable
  · exact .of_cart_eq (by simp [powerOn, hw])
  · have hp : s.cart.chrPages = 0 := by simpa [Cartridge.chrWritable] using hw
    exact ⟨by simp [powerOn, hw], fun hn => absurd hp hn⟩

theorem hostCall_romKept {c : HostCall} (h : hostCall c s = .next t) : RomKept s t := by
  by_cases ha : c.isAccess = true
  · obtain ⟨r, hr, hk⟩ := hostAccess_kept ha s
    cases hr.symm.trans h
    exact .of_kept hk
  · cases c
    case powerOn =>
      cases h
      exact powerOn_romKept s
    case reset =>
      cases h
      exact .of_cart_eq (by rw [resetCall_eq])
    case step =>
      simp only [hostCall] at h
      split at h
      · cases h
        exact .of_cart_eq rfl
      · exact processorStep_romKept h
    case advance n =>
      cases h
      exact .of_cart_eq (advance_cart n s)
    all_goals exact absurd rfl ha

end Cart

/-- Settles O54: each thing a step can be, by `step_cases`, keeps the cartridge but for character RAM, and neither the
input list nor the ticks are part of it. -/
theorem romIsImmutable : Obligations.RomIsImmutable := by
  intro s t h
  show RomKept s t
  obtain ⟨-, ⟨c, l, -, hc⟩ | ⟨l, rfl⟩ | ⟨l, k, -, rfl⟩ | ⟨l, r, -, hr, rfl⟩⟩ := step_cases h
  · exact hostCall_romKept (s := s.setInputs l) hc
  · exact .of_cart_eq rfl
  · exact (raiseInterrupt_romKept k (s.setInputs l)).congr_right (followTicks_cart _ _)
  · exact (processorStep_romKept (s := s.setInputs l) hr).congr_right (followTicks_cart _ _)

end Sys2Proof.Proofs
end

section
/-! PROOFS. Loads, stores, register transfers and register steps (40_load_store_transfer.md, 41_arithmetic_logic.md): what
a step of each shape leaves unchanged, and the instructions of that shape. -/

namespace Sys2Proof.Proofs

open Sys2Proof.Machine

/-! ### The registers and the flags a step writes -/

/-- `t` is `s` moved on by `n` bytes and `c` cycles, with A, X, Y, SP and P written and nothing else. -/
def RegistersStep (n c : Nat) (s t : State) : Prop :=
  t = { s with pc := s.pc + BitVec.ofNat 16 n, cyc := s.cyc + c, a := t.a, x := t.x, y := t.y, sp := t.sp, p := t.p }

theorem znOf_setZN (v p : Byte) : ZNOf v (setZN v p) := by
  constructor
  · simp only [getFlag_setZN]
    rfl
  · simp only [getFlag_setZN, if_true]

theorem flagsKeptBut_setZN (v p : Byte) : FlagsKeptBut [.zero, .negative] p (setZN v p) := by
  intro f hf
  simp only [List.mem_cons, List.not_mem_nil, or_false, not_or] at hf
  obtain ⟨hz, hn⟩ := hf
  rw [getFlag_setZN, if_neg hn, if_neg hz]

theorem toNat_increment (v p : Byte) : (increment v p).1.toNat = (v.toNat + 1) % 256 := BitVec.toNat_add v 1#8

theorem toNat_decrement (v p : Byte) : (decrement v p).1.toNat = (v.toNat + 255) % 256 := by
  rw [Nat.add_comm]
  exact BitVec.toNat_sub v 1#8

theorem movedOn_of {n c : Nat} {s t : State} (hpc : t.pc = s.pc + BitVec.ofNat 16 n) (hcyc : t.cyc = s.cyc + c)
    (hh : HiddenKept s t) : MovedOn n c s t := by
  refine ⟨?_, hcyc, hh⟩
  rw [hpc, BitVec.toNat_add, BitVec.toNat_ofNat, Nat.add_mod_mod]

/-! ### A step that reads its operand and writes registers (R112, R113) -/

/-- Moving PC on before the operand is read makes no difference to the read. -/
theorem readStep_eq (i : Instr) (o : Src) (f : Byte → State → State) (s : State) :
    readStep i o f s =
      .next (spend i (crossingPenalty o s) (f (srcValue o s) ((toNext i s).setPpu (srcEffect o s).ppu))) := by
  simp only [readStep, toNext, crossingPenalty_setPc, srcValue_setPc, srcEffect_setPc]

theorem operandRead_movedOn {n c : Nat} {o : Src} {s t : State}
    (h : RegistersStep n c (s.setPpu (srcEffect o s).ppu) t) : OperandRead o s t ∧ MovedOn n c s t := by
  unfold RegistersStep at h
  rw [h]
  exact ⟨operandRead_of rfl rfl rfl, movedOn_of rfl rfl ⟨rfl, rfl, rfl, rfl, rfl⟩⟩

/-- Settles O23: each load is a `readStep` that leaves the operand in its register and sets Zero and Negative from it;
`operandRead_movedOn` says what it leaves unchanged. -/
theorem loads : Obligations.Loads := by
  refine ⟨fun b w => ⟨rfl, rfl, rfl⟩, fun o s => ⟨?lda, ?ldx, ?ldy⟩⟩
  case lda =>
    refine ⟨_, readStep_eq (.lda o) o (fun m t => (t.setA m).setP (setZN m t.p)) s, rfl, ?_⟩
    exact ⟨znOf_setZN _ _, flagsKeptBut_setZN _ _, rfl, rfl, rfl, operandRead_movedOn rfl⟩
  case ldx =>
    refine ⟨_, readStep_eq (.ldx o) o (fun m t => (t.setX m).setP (setZN m t.p)) s, rfl, ?_⟩
    exact ⟨znOf_setZN _ _, flagsKeptBut_setZN _ _, rfl, rfl, rfl, operandRead_movedOn rfl⟩
  case ldy =>
    refine ⟨_, readStep_eq (.ldy o) o (fun m t => (t.setY m).setP (setZN m t.p)) s, rfl, ?_⟩
    exact ⟨znOf_setZN _ _, flagsKeptBut_setZN _ _, rfl, rfl, rfl, operandRead_movedOn rfl⟩

/-! ### A step that stores a byte (R102, R112) -/

/-- Only a write to the OAM transfer trigger costs cycles of its own. -/
theorem writeExtra_eq (a : Addr) (s : State) :
    writeExtra a s = if a = 0x4014#16 then s.config.oamDmaCycles else 0 := by
  by_cases ha : a = 0x4014#16
  · subst ha
    rfl
  · rw [if_neg ha]
    rcases route_cases a with ⟨-, hr⟩ | ⟨-, hr⟩ | ⟨htrigger, -⟩ | ⟨-, -, -, hr⟩ | ⟨-, -, hr⟩ | ⟨-, hr⟩
    case inr.inr.inl => exact absurd htrigger ha
    all_goals simp only [writeExtra, hr]

theorem storeStep_spec (i : Instr) (m : Mem) (v : Byte) (s : State) :
    ∃ t, storeStep i m v s = .next t ∧ Stored (effAddr m s) v s s t ∧ DataRegistersKept s t ∧ t.p = s.p ∧
      MovedOn (instrLength i) (baseCycles i + if effAddr m s = 0x4014#16 then s.config.oamDmaCycles else 0) s t := by
  have hs : storeStep i m v s =
      .next (spend i (writeExtra (effAddr m s) (toNext i s)) (memWrite (effAddr m s) v (toNext i s))) := by
    simp only [storeStep, toNext, effAddr_setPc]
  have stored : SameStorage (memWrite (effAddr m s) v s) (memWrite (effAddr m s) v (toNext i s)) :=
    memWrite_same (s := s) (t := toNext i s) ⟨rfl, rfl, rfl⟩ _ v
  refine ⟨_, hs, stored_of (.inl rfl) stored, ?_⟩
  rw [memWrite_eq, writeExtra_eq]
  exact ⟨⟨rfl, rfl, rfl, rfl⟩, rfl, movedOn_of rfl rfl ⟨rfl, rfl, rfl, rfl, rfl⟩⟩

/-- Settles O24: each store is a `storeStep` of its register. -/
theorem stores : Obligations.Stores := by
  refine ⟨fun b w => ⟨rfl, rfl, rfl⟩, ?_⟩
  rintro m s extra rfl
  exact ⟨storeStep_spec (.sta m) m s.a s, storeStep_spec (.stx m) m s.x s, storeStep_spec (.sty m) m s.y s⟩

/-! ### A step that writes registers alone -/

theorem storageKept_movedOn {n c : Nat} {s t : State} (h : RegistersStep n c s t) : StorageKept s t ∧ MovedOn n c s t := by
  unfold RegistersStep at h
  rw [h]
  exact ⟨storageKept_of ⟨rfl, rfl, rfl⟩, movedOn_of rfl rfl ⟨rfl, rfl, rfl, rfl, rfl⟩⟩

/-- Settles O25: each instruction writes one register and, but for TXS, Zero and Negative from the same byte, which INX,
INY, DEX and DEY compute; `storageKept_movedOn` says what it leaves unchanged. -/
theorem transfersAndRegisterSteps : Obligations.TransfersAndRegisterSteps := by
  refine ⟨⟨rfl, fun s => ⟨?tax, ?tay, ?txa, ?tya, ?tsx, ?txs⟩⟩, ⟨rfl, fun s => ⟨?inx, ?iny, ?dex, ?dey⟩⟩⟩
  case tax | tay | txa | tya | tsx =>
    exact ⟨_, rfl, rfl, znOf_setZN _ _, flagsKeptBut_setZN _ _, rfl, rfl, rfl, storageKept_movedOn rfl⟩
  case txs => exact ⟨_, rfl, rfl, rfl, rfl, rfl, rfl, storageKept_movedOn rfl⟩
  case inx | iny =>
    exact ⟨_, rfl, toNat_increment _ s.p, znOf_setZN _ _, flagsKeptBut_setZN _ _, rfl, rfl, rfl, storageKept_movedOn rfl⟩
  case dex | dey =>
    exact ⟨_, rfl, toNat_decrement _ s.p, znOf_setZN _ _, flagsKeptBut_setZN _ _, rfl, rfl, rfl, storageKept_movedOn rfl⟩

end Sys2Proof.Proofs
end

section
/-! PROOFS. Logic, addition, subtraction, compares and bit test (41_arithmetic_logic.md): what each flag computation
leaves in P, and the instructions that read an operand and keep A or P from it. -/

namespace Sys2Proof.Proofs

open Sys2Proof.Machine

/-! ### Logic (R171, R172, R174) -/

theorem logicStep_spec (i : Instr) (o : Src) (f : Byte → Byte → Byte) (s : State) :
    ∃ t, logicStep i o f s = .next t ∧ t.a = f s.a (srcValue o s) ∧ ZNOf t.a t.p ∧
      FlagsKeptBut [.zero, .negative] s.p t.p ∧ t.x = s.x ∧ t.y = s.y ∧ t.sp = s.sp ∧ OperandRead o s t ∧
      MovedOn (instrLength i) (baseCycles i + crossingPenalty o s) s t := by
  refine ⟨_, readStep_eq i o (fun m t => (t.setA (f t.a m)).setP (setZN (f t.a m) t.p)) s, rfl, ?_⟩
  exact ⟨znOf_setZN _ _, flagsKeptBut_setZN _ _, rfl, rfl, rfl, operandRead_movedOn rfl⟩

/-- Settles O26: each of the three is a `logicStep`. -/
theorem logical : Obligations.Logical := by
  refine ⟨fun b w => ⟨rfl, rfl, rfl⟩, fun o s => ⟨?ora, ?and, ?eor⟩⟩
  case ora => exact logicStep_spec (.ora o) o (fun a m => a ||| m) s
  case and => exact logicStep_spec (.and o) o (fun a m => a &&& m) s
  case eor => exact logicStep_spec (.eor o) o (fun a m => a ^^^ m) s

/-! ### Addition (R175) -/

section Sum

variable (a m p : Byte)

theorem toNat_addWithCarry :
    (addWithCarry a m p).1.toNat = (a.toNat + m.toNat + (getFlag .carry p).toNat) % 256 :=
  BitVec.toNat_ofNat _ _

theorem carry_addWithCarry :
    getFlag .carry (addWithCarry a m p).2 = decide (255 < a.toNat + m.toNat + (getFlag .carry p).toNat) := by
  simp [addWithCarry, carryIn]

theorem overflow_addWithCarry :
    getFlag .overflow (addWithCarry a m p).2 = ((~~~(a ^^^ m)) &&& (a ^^^ (addWithCarry a m p).1)).getLsbD 7 := by
  simp only [addWithCarry, getFlag_setZN, getFlag_setFlag, reduceCtorEq, if_true, if_false]

theorem znOf_addWithCarry : ZNOf (addWithCarry a m p).1 (addWithCarry a m p).2 := znOf_setZN _ _

theorem flagsKeptBut_addWithCarry :
    FlagsKeptBut [.carry, .overflow, .zero, .negative] p (addWithCarry a m p).2 := by
  intro f hf
  simp only [List.mem_cons, List.not_mem_nil, or_false, not_or] at hf
  obtain ⟨hc, hv, hz, hn⟩ := hf
  exact getFlag_addWithCarry a m p hc hv hz hn

/-! ### Subtraction: addition of the complement, read as a borrow (R176) -/

theorem xor_ff_eq_not : m ^^^ 0xFF#8 = ~~~m := BitVec.xor_allOnes

theorem toNat_xor_ff : (m ^^^ 0xFF#8).toNat = 255 - m.toNat := by rw [xor_ff_eq_not, BitVec.toNat_not]

theorem toNat_subWithBorrow :
    (subWithBorrow a m p).1.toNat = (a.toNat + 256 - m.toNat - (1 - (getFlag .carry p).toNat)) % 256 := by
  have hc : (getFlag .carry p).toNat ≤ 1 := Bool.toNat_le _
  rw [subWithBorrow, toNat_addWithCarry, toNat_xor_ff]
  omega

theorem carry_subWithBorrow :
    getFlag .carry (subWithBorrow a m p).2 = decide (m.toNat + (1 - (getFlag .carry p).toNat) ≤ a.toNat) := by
  have hc : (getFlag .carry p).toNat ≤ 1 := Bool.toNat_le _
  rw [subWithBorrow, carry_addWithCarry, toNat_xor_ff, decide_eq_decide]
  omega

theorem overflow_subWithBorrow :
    getFlag .overflow (subWithBorrow a m p).2 = ((a ^^^ m) &&& (a ^^^ (subWithBorrow a m p).1)).getLsbD 7 := by
  have hnot : ~~~(a ^^^ (m ^^^ 0xFF#8)) = a ^^^ m := by
    rw [xor_ff_eq_not, BitVec.not_xor_right, BitVec.not_not]
  rw [subWithBorrow, overflow_addWithCarry, hnot]

end Sum

/-! ### ADC and SBC -/

theorem sumStep_spec (i : Instr) (o : Src) (f : Byte → Byte → Byte → Byte × Byte) (s : State) :
    ∃ t, sumStep i o f s = .next t ∧ t.a = (f s.a (srcValue o s) s.p).1 ∧ t.p = (f s.a (srcValue o s) s.p).2 ∧
      t.x = s.x ∧ t.y = s.y ∧ t.sp = s.sp ∧ OperandRead o s t ∧
      MovedOn (instrLength i) (baseCycles i + crossingPenalty o s) s t :=
  ⟨_, readStep_eq i o (fun m t => (t.setA (f t.a m t.p).1).setP (f t.a m t.p).2) s, rfl, rfl, rfl, rfl, rfl,
    operandRead_movedOn rfl⟩

/-- Settles O27: ADC is the `sumStep` of `Machine.addWithCarry`, whose short name this theorem, being protected, leaves
as it is. -/
protected theorem addWithCarry : Obligations.AddWithCarry := by
  refine ⟨fun b w => rfl, ?_⟩
  rintro o s sum rfl
  obtain ⟨t, ht, ha, hp, kept⟩ := sumStep_spec (.adc o) o Machine.addWithCarry s
  refine ⟨t, ht, ?_⟩
  rw [ha, hp]
  exact ⟨toNat_addWithCarry _ _ _, carry_addWithCarry _ _ _, overflow_addWithCarry _ _ _, znOf_addWithCarry _ _ _,
    flagsKeptBut_addWithCarry _ _ _, kept⟩

/-- Settles O28: SBC is the `sumStep` of `subWithBorrow`, an addition of the complement. -/
theorem subtractWithBorrow : Obligations.SubtractWithBorrow := by
  refine ⟨fun b w => rfl, ?_⟩
  rintro o s borrow rfl
  obtain ⟨t, ht, ha, hp, kept⟩ := sumStep_spec (.sbc o) o subWithBorrow s
  refine ⟨t, ht, ?_⟩
  rw [ha, hp]
  exact ⟨toNat_subWithBorrow _ _ _, carry_subWithBorrow _ _ _, overflow_subWithBorrow _ _ _, znOf_addWithCarry _ _ _,
    flagsKeptBut_addWithCarry _ _ _, kept⟩

/-! ### Compares and bit test (R177 to R180) -/

theorem flagsKeptBut_compare (r m p : Byte) : FlagsKeptBut [.carry, .zero, .negative] p (compare r m p) := by
  intro f hf
  simp only [List.mem_cons, List.not_mem_nil, or_false, not_or] at hf
  obtain ⟨hc, hz, hn⟩ := hf
  rw [getFlag_compare, if_neg hn, if_neg hz, if_neg hc]

theorem flagsKeptBut_bitTest (a m p : Byte) : FlagsKeptBut [.zero, .negative, .overflow] p (bitTest a m p) := by
  intro f hf
  simp only [List.mem_cons, List.not_mem_nil, or_false, not_or] at hf
  obtain ⟨hz, hn, hv⟩ := hf
  rw [getFlag_bitTest, if_neg hv, if_neg hn, if_neg hz]

/-- A compare of a register that neither PC nor the operand's read effect changes (`hr`). -/
theorem compareStep_spec (i : Instr) (o : Src) (r : State → Byte) (s : State)
    (hr : r ((toNext i s).setPpu (srcEffect o s).ppu) = r s) :
    ∃ t, readStep i o (fun m t => t.setP (compare (r t) m t.p)) s = .next t ∧
      getFlag .carry t.p = decide ((srcValue o s).toNat ≤ (r s).toNat) ∧ ZNOf (r s - srcValue o s) t.p ∧
      FlagsKeptBut [.carry, .zero, .negative] s.p t.p ∧ DataRegistersKept s t ∧ OperandRead o s t ∧
      MovedOn (instrLength i) (baseCycles i + crossingPenalty o s) s t := by
  refine ⟨_, readStep_eq i o (fun m t => t.setP (compare (r t) m t.p)) s, ?_⟩
  rw [hr]
  exact ⟨getFlag_compare .carry _ _ _, znOf_setZN _ _, flagsKeptBut_compare _ _ _, ⟨rfl, rfl, rfl, rfl⟩,
    operandRead_movedOn rfl⟩

/-- Settles O30: CMP, CPX and CPY compare A, X and Y by `compareStep_spec`; BIT leaves `bitTest` in P and writes no
other register. -/
theorem comparesAndBitTest : Obligations.ComparesAndBitTest := by
  refine ⟨⟨fun b w => ⟨rfl, rfl, rfl⟩, fun o s => ⟨?cmp, ?cpx, ?cpy⟩⟩, ⟨fun b w => rfl, ?bit⟩⟩
  case cmp => exact compareStep_spec (.cmp o) o State.a s rfl
  case cpx => exact compareStep_spec (.cpx o) o State.x s rfl
  case cpy => exact compareStep_spec (.cpy o) o State.y s rfl
  case bit =>
    rintro m s v rfl
    refine ⟨_, readStep_eq (.bit m) (.mem m) (fun v t => t.setP (bitTest t.a v t.p)) s, ?_⟩
    exact ⟨getFlag_bitTest .zero _ _ _, getFlag_bitTest .negative _ _ _, getFlag_bitTest .overflow _ _ _,
      flagsKeptBut_bitTest _ _ _, ⟨rfl, rfl, rfl, rfl⟩, operandRead_movedOn rfl⟩

end Sys2Proof.Proofs
end

section
/-! PROOFS. Subroutine call and return (43_control_flow.md): each as an update of the state. -/

namespace Sys2Proof.Proofs

open Sys2Proof.Machine

/-! ### The stack, in the terms of the main path (R222, R223) -/

theorem readValue_stackAddr (b : Byte) (s : State) : readValue (stackAddr b) s = s.ram.get (256 + b.toNat) := by
  simp only [readValue, route_stackAddr]

theorem pop16_eq_readValue (s : State) :
    pop16 s = (joinBytes (readValue (stackAddr (s.sp + 2#8)) s) (readValue (stackAddr (s.sp + 1#8)) s),
      s.setSp (s.sp + 2#8)) := by
  rw [pop16_eq, readValue_stackAddr, readValue_stackAddr]

theorem push16_sp (w : Addr) (s : State) : (push16 w s).sp = s.sp - 2#8 := by
  rw [push16_eq]
  rfl

/-! ### JSR and RTS (R201, R202) -/

/-- The word pushed is the address of the call's own last byte. -/
theorem exec_jsr (w : Addr) (s : State) :
    exec (.jsr w) s = .next (((push16 (s.pc + 2#16) s).setPc w).addCycles 6) := by
  have last : s.pc + 3#16 - 1#16 = s.pc + 2#16 := by bv_omega
  calc exec (.jsr w) s = .next (((push16 (s.pc + 3#16 - 1#16) (toNext (.jsr w) s)).setPc w).addCycles 6) := rfl
    _ = _ := by
      rw [last, push16_eq, push16_eq]
      rfl

theorem exec_rts (s : State) :
    exec .rts s = .next (((s.setSp (s.sp + 2#8)).setPc
      (joinBytes (readValue (stackAddr (s.sp + 2#8)) s) (readValue (stackAddr (s.sp + 1#8)) s) + 1#16)).addCycles 6) := by
  calc exec .rts s = .next (((pop16 (toNext .rts s)).2.setPc ((pop16 (toNext .rts s)).1 + 1#16)).addCycles 6) := rfl
    _ = _ := by
      rw [pop16_eq_readValue]
      simp only [toNext, readValue_setPc]
      rfl

/-- Settles O34: JSR is a push of a word, by `exec_jsr`, and `push16_stacked` says what that does to every byte; RTS
writes SP, PC and the cycle counter alone, by `exec_rts`. -/
theorem subroutineCalls : Obligations.SubroutineCalls := by
  refine ⟨fun w => rfl, rfl, fun w s => ⟨?jsr, ?rts⟩⟩
  case jsr =>
    have word : (highByte (s.pc + 2#16)).toNat * 256 + (lowByte (s.pc + 2#16)).toNat = (s.pc.toNat + 2) % 65536 := by
      rw [← toNat_joinBytes, joinBytes_high_low]
      exact BitVec.toNat_add _ _
    have sp : (push16 (s.pc + 2#16) s).sp.toNat = (s.sp.toNat + 254) % 256 := by
      rw [push16_sp, Nat.add_comm]
      exact BitVec.toNat_sub _ _
    refine ⟨_, _, _, exec_jsr w s, word, Stacked.congr (push16_stacked _ s) ⟨rfl, rfl, rfl⟩, sp, rfl, ?_⟩
    rw [push16_eq]
    exact ⟨rfl, rfl, rfl, rfl, rfl, rfl, rfl, rfl, rfl, rfl⟩
  case rts =>
    refine ⟨_, exec_rts s, ?_, BitVec.toNat_add _ _, rfl, rfl, rfl, rfl, rfl, storageKept_of ⟨rfl, rfl, rfl⟩,
      ⟨rfl, rfl, rfl, rfl, rfl⟩⟩
    rw [← toNat_joinBytes]
    exact BitVec.toNat_add _ _

end Sys2Proof.Proofs
end

section
/-! PROOFS. The stack primitives, the flag instructions and RTI (44_stack_flags_system.md). -/

namespace Sys2Proof.Proofs

open Sys2Proof.Machine

/-! ### What a push stores and a pop reads (R220 to R223) -/

theorem toNat_stackAddr (b : Byte) : (stackAddr b).toNat = 0x100 + b.toNat := toNat_joinBytes 0x01#8 b

theorem eq_joinBytes {hi lo : Byte} {w : Addr} (h : w.toNat = hi.toNat * 256 + lo.toNat) : w = joinBytes hi lo :=
  BitVec.eq_of_toNat_eq (h.trans (toNat_joinBytes hi lo).symm)

theorem push_sp (v : Byte) (s : State) : (push v s).sp = s.sp - 1#8 := rfl

theorem pop_eq_readValue (s : State) : pop s = (readValue (stackAddr (s.sp + 1#8)) s, s.setSp (s.sp + 1#8)) := by
  rw [pop_eq, readValue_stackAddr]

theorem readValue_setSp (a : Addr) (sp : Byte) (s : State) : readValue a (s.setSp sp) = readValue a s :=
  readValue_congr ⟨rfl, rfl, rfl⟩ a

theorem sameCell_stackAddr_self (b : Byte) : SameCell (stackAddr b) (stackAddr b) := by
  have h : (stackAddr b).toNat < 0x2000 := by
    rw [toNat_stackAddr]
    omega
  exact ⟨h, h, rfl⟩

/-- A byte `Stacked` lists is what its stack address reads. -/
theorem readValue_of_stacked {cells : List (Addr × Byte)} {s t : State} (h : Stacked cells s t)
    (hs : MemoriesCanonical s) {b v : Byte} (hc : (stackAddr b, v) ∈ cells) : readValue (stackAddr b) t = v := by
  obtain ⟨-, -, -, -, stored⟩ := h
  exact stored hs _ hc _ (sameCell_stackAddr_self b)

/-! ### Popping what was pushed (R347) -/

section Popping

variable {s : State} (hs : MemoriesCanonical s)

include hs

theorem pop_push (v : Byte) : pop (push v s) = (v, (push v s).setSp s.sp) := by
  have hv : readValue (stackAddr s.sp) (push v s) = v := readValue_of_stacked (push_stacked v s) hs (by simp)
  rw [pop_eq_readValue, push_sp, BitVec.sub_add_cancel, hv]

theorem pop16_push16 (w : Addr) : pop16 (push16 w s) = (w, (push16 w s).setSp s.sp) := by
  have stacked := push16_stacked w s
  have hhi : readValue (stackAddr s.sp) (push16 w s) = highByte w := readValue_of_stacked stacked hs (by simp)
  have hlo : readValue (stackAddr (s.sp - 1#8)) (push16 w s) = lowByte w := readValue_of_stacked stacked hs (by simp)
  have h1 : s.sp - 2#8 + 1#8 = s.sp - 1#8 := by bv_omega
  rw [pop16_eq_readValue, push16_sp, h1, BitVec.sub_add_cancel, hhi, hlo, joinBytes_high_low]

/-- The word popped after a push of a word and of a byte straddles the two. -/
theorem pop16_push_push16 (v : Byte) (w : Addr) :
    pop16 (push v (push16 w s)) = (joinBytes (lowByte w) v, (push v (push16 w s)).setSp (s.sp - 1#8)) := by
  have stacked := push3_stacked w v s
  have hlo : readValue (stackAddr (s.sp - 1#8)) (push v (push16 w s)) = lowByte w :=
    readValue_of_stacked stacked hs (by simp)
  have hv : readValue (stackAddr (s.sp - 2#8)) (push v (push16 w s)) = v := readValue_of_stacked stacked hs (by simp)
  have h2 : s.sp - 2#8 - 1#8 + 2#8 = s.sp - 1#8 := by bv_omega
  rw [pop16_eq_readValue, push_sp, push16_sp, h2, BitVec.sub_add_cancel, hlo, hv]

/-- The byte left after that pop is the word's high byte. -/
theorem pop_pop16_push_push16 (v : Byte) (w : Addr) :
    pop (pop16 (push v (push16 w s))).2 = (highByte w, (push v (push16 w s)).setSp s.sp) := by
  have hhi : readValue (stackAddr s.sp) (push v (push16 w s)) = highByte w :=
    readValue_of_stacked (push3_stacked w v s) hs (by simp)
  rw [pop16_push_push16 hs, pop_eq_readValue, State.setSp_sp, BitVec.sub_add_cancel, readValue_setSp, hhi]
  rfl

end Popping

/-- Settles O37: `push_stacked` and `push16_stacked` say what a push does to every byte, `pop_eq_readValue` and
`pop16_eq_readValue` what a pop is; the lemmas of the section above compose the two. -/
theorem stackPrimitives : Obligations.StackPrimitives := by
  refine ⟨⟨toNat_stackAddr, fun v hi lo w s hw => ?each⟩, fun v hi lo w s hs hw => ?composed⟩
  all_goals
    obtain rfl : w = joinBytes hi lo := eq_joinBytes hw
  case each =>
    have sp1 : (push v s).sp.toNat = (s.sp.toNat + 255) % 256 := by
      rw [push_sp, Nat.add_comm]
      exact BitVec.toNat_sub _ _
    have sp2 : (push16 (joinBytes hi lo) s).sp.toNat = (s.sp.toNat + 254) % 256 := by
      rw [push16_sp, Nat.add_comm]
      exact BitVec.toNat_sub _ _
    have stacked := push16_stacked (joinBytes hi lo) s
    rw [highByte_joinBytes, lowByte_joinBytes] at stacked
    refine ⟨push_stacked v s, sp1, pop_eq_readValue s, stacked, sp2, ?_⟩
    rw [pop16_eq_readValue]
    exact ⟨toNat_joinBytes _ _, rfl⟩
  case composed =>
    rw [pop_push hs, pop16_push16 hs, pop_pop16_push_push16 hs, pop16_push_push16 hs, highByte_joinBytes,
      lowByte_joinBytes]
    exact ⟨rfl, rfl, rfl, rfl, toNat_joinBytes lo v, rfl, rfl⟩

/-! ### The flag instructions and NOP (R228 to R235) -/

theorem flagsKeptBut_setFlag (f : Flag) (b : Bool) (p : Byte) : FlagsKeptBut [f] p (setFlag f b p) := by
  intro g hg
  rw [getFlag_setFlag, if_neg (List.ne_of_not_mem_cons hg)]

theorem flagStep_spec (i : Instr) (f : Flag) (b : Bool) (s : State) :
    ∃ t, plainStep i (fun t => t.setP (setFlag f b t.p)) s = .next t ∧ getFlag f t.p = b ∧
      FlagsKeptBut [f] s.p t.p ∧ DataRegistersKept s t ∧ StorageKept s t ∧
      MovedOn (instrLength i) (baseCycles i) s t := by
  have hb : getFlag f (setFlag f b s.p) = b := by rw [getFlag_setFlag, if_pos rfl]
  exact ⟨_, rfl, hb, flagsKeptBut_setFlag f b s.p, ⟨rfl, rfl, rfl, rfl⟩, storageKept_movedOn rfl⟩

/-- Settles O39: each flag instruction is the step of `flagStep_spec`, and NOP writes no register but PC. -/
theorem flagInstructions : Obligations.FlagInstructions := by
  refine ⟨rfl, fun s i f b h => ?_⟩
  simp only [List.mem_cons, List.not_mem_nil, or_false, Prod.mk.injEq] at h
  rcases h with ⟨rfl, rfl, rfl⟩ | ⟨rfl, rfl, rfl⟩ | ⟨rfl, rfl, rfl⟩ | ⟨rfl, rfl, rfl⟩ | ⟨rfl, rfl, rfl⟩ |
    ⟨rfl, rfl, rfl⟩ | ⟨rfl, rfl, rfl⟩ | ⟨rfl, rfl, rfl⟩
  · exact flagStep_spec .clc .carry false s
  · exact flagStep_spec .sec .carry true s
  · exact flagStep_spec .cli .interruptDisable false s
  · exact flagStep_spec .sei .interruptDisable true s
  · exact flagStep_spec .cld .decimal false s
  · exact flagStep_spec .sed .decimal true s
  · exact flagStep_spec .clv .overflow false s
  · exact ⟨_, rfl, rfl, fun _ _ => rfl, ⟨rfl, rfl, rfl, rfl⟩, storageKept_movedOn rfl⟩

/-! ### RTI (R237) -/

theorem exec_rti (s : State) :
    exec .rti s = .next ((((s.setSp (s.sp + 3#8)).setP (pulledStatus (readValue (stackAddr (s.sp + 1#8)) s))).setPc
      (joinBytes (readValue (stackAddr (s.sp + 3#8)) s) (readValue (stackAddr (s.sp + 2#8)) s))).addCycles 6) := by
  calc exec .rti s = .next ((returnFromInterrupt (toNext .rti s)).addCycles 6) := rfl
    _ = _ := by
      rw [returnFromInterrupt_eq, readValue_stackAddr, readValue_stackAddr, readValue_stackAddr]
      rfl

/-- Settles O41: RTI writes SP, P, PC and the cycle counter alone, by `exec_rti`. This theorem, being protected, leaves
`Machine.returnFromInterrupt` its short name. -/
protected theorem returnFromInterrupt : Obligations.ReturnFromInterrupt :=
  ⟨rfl, fun s => ⟨_, exec_rti s, rfl, toNat_joinBytes _ _, BitVec.toNat_add _ _, rfl, rfl, rfl, rfl,
    storageKept_of ⟨rfl, rfl, rfl⟩, ⟨rfl, rfl, rfl, rfl, rfl⟩⟩⟩

end Sys2Proof.Proofs
end

section
/-! PROOFS. What a pixel reads of the state, and what a tick leaves unchanged (48_picture_unit.md R251, R284). -/

namespace Sys2Proof.Proofs

open Sys2Proof.Machine

/-! ### What a pixel reads (R284) -/

/-- `s` and `t` agree on R284's list. -/
structure SamePixelInputs (s t : State) : Prop where
  ctrl : t.ppu.ctrl = s.ppu.ctrl
  mask : t.ppu.mask = s.ppu.mask
  scrollX : t.ppu.scrollX = s.ppu.scrollX
  scrollY : t.ppu.scrollY = s.ppu.scrollY
  oam : t.ppu.oam = s.ppu.oam
  ntRam : t.ppu.ntRam = s.ppu.ntRam
  palRam : t.ppu.palRam = s.ppu.palRam
  chrMem : t.cart.chrMem = s.cart.chrMem
  mirroring : t.cart.mirroring = s.cart.mirroring
  fourScreen : t.cart.fourScreen = s.cart.fourScreen
  paletteArgb : t.config.paletteArgb = s.config.paletteArgb

/-- Of the cartridge, routing reads the mirroring parameters alone (R79, R82). -/
theorem videoRoute_congr {c d : Cartridge} (hm : d.mirroring = c.mirroring) (hf : d.fourScreen = c.fourScreen)
    (n : Nat) : videoRoute d n = videoRoute c n := by
  simp only [videoRoute, ntIndex, ntPhys, hm, hf]

namespace SamePixelInputs

variable {s t : State} (h : SamePixelInputs s t)

include h

theorem vidRead_eq (n : Nat) : vidRead t n = vidRead s n := by
  simp only [vidRead, videoRoute_congr h.mirroring h.fourScreen, h.chrMem, h.ntRam, h.palRam]

theorem tileColour_eq (pa c : Nat) : tileColour t pa c = tileColour s pa c := by
  simp only [tileColour, h.vidRead_eq]

theorem bgPixel_eq (x y : Nat) : bgPixel t x y = bgPixel s x y := by
  simp only [bgPixel, h.mask, h.ctrl, h.scrollX, h.scrollY, h.vidRead_eq, h.tileColour_eq]

theorem spritePixelOf_eq (x y i : Nat) : spritePixelOf t x y i = spritePixelOf s x y i := by
  simp only [spritePixelOf, h.ctrl, h.oam, h.tileColour_eq]

theorem spritePixel_eq (x y : Nat) : spritePixel t x y = spritePixel s x y := by
  have hof : spritePixelOf t x y = spritePixelOf s x y := funext (h.spritePixelOf_eq x y)
  simp only [spritePixel, h.mask, hof]

theorem pixelIndex_eq (x y : Nat) : pixelIndex t x y = pixelIndex s x y := by
  simp only [pixelIndex, h.bgPixel_eq, h.spritePixel_eq]

theorem pixel_eq (x y : Nat) : pixel t x y = pixel s x y := by
  simp only [pixel, paletteColour, h.paletteArgb, h.pixelIndex_eq, h.vidRead_eq]

end SamePixelInputs

/-! ### What ticks leave unchanged (R251) -/

/-- `advance_eq` and `advance_ppu` together: all that ticks change. -/
theorem advance_frame (n : Nat) (s : State) :
    advance n s = { s with
      nmiPending := (advance n s).nmiPending
      ppu := { s.ppu with
        scanline := (advance n s).ppu.scanline, dot := (advance n s).ppu.dot, frame := (advance n s).ppu.frame
        vblank := (advance n s).ppu.vblank, back := (advance n s).ppu.back, front := (advance n s).ppu.front } } := by
  rw [← advance_ppu]
  exact advance_eq n s

/-- Settles O21: each part of the pixel function, from the video read up, reads R284's list alone, and `advance_frame`
says what ticks change. -/
theorem pixelPurity : Obligations.PixelPurity := by
  refine ⟨fun s t x y ctrl mask scrollX scrollY oam ntRam palRam chrMem mirroring fourScreen paletteArgb => ?pixel, ?ticks⟩
  case pixel =>
    have h : SamePixelInputs s t :=
      { ctrl, mask, scrollX, scrollY, oam, ntRam, palRam, chrMem, mirroring, fourScreen, paletteArgb }
    exact h.pixel_eq x y
  case ticks =>
    rintro n s _ rfl
    exact advance_frame n s

end Sys2Proof.Proofs
end

section
/-! PROOFS. The decoder and the encoder (30_encoding.md R110, R111, R130 to R134): what every entry of the grid says of
its opcode byte, and that each line of R130's table by mnemonic names the grid's entries. -/

namespace Sys2Proof.Proofs

open Sys2Proof.Machine

/-! ### An entry on its operand bytes (R110) -/

/-- The instruction an entry makes of two operand bytes, of which it takes as many as its format has. -/
def entryInstr : Entry → Byte → Byte → Instr
  | .f1 i, _, _ => i
  | .f2 mk, lo, _ => mk lo
  | .f3 mk, lo, hi => mk (joinBytes hi lo)

/-- The operand bytes an entry takes. -/
def entryOperands : Entry → Byte → Byte → List Byte
  | .f1 _, _, _ => []
  | .f2 _, lo, _ => [lo]
  | .f3 _, lo, hi => addrBytes (joinBytes hi lo)

theorem addrBytes_joinBytes (hi lo : Byte) : addrBytes (joinBytes hi lo) = [lo, hi] := by
  rw [addrBytes, lowByte_joinBytes, highByte_joinBytes]

/-- With two operand bytes at hand every opcode byte decodes (R111). -/
theorem decode_cons_cons_cons (op lo hi : Byte) (rest : List Byte) :
    decode (op :: lo :: hi :: rest) =
      .ok (entryInstr (entryOf op) lo hi, (op :: lo :: hi :: rest).drop (opLength op)) := by
  unfold opLength
  cases h : entryOf op with
  | f1 i => exact decode_f1 h _
  | f2 mk => exact decode_f2 h _ _
  | f3 mk => exact decode_f3 h _ _ _

/-- What the decoder reads is its entry on some operand bytes, and those are the bytes read. -/
theorem decode_cases {bytes rest : List Byte} {i : Instr} (h : decode bytes = .ok (i, rest)) :
    ∃ op lo hi, i = entryInstr (entryOf op) lo hi ∧ bytes = op :: entryOperands (entryOf op) lo hi ++ rest := by
  cases bytes with
  | nil => cases h
  | cons op tail =>
    cases e : entryOf op with
    | f1 i =>
      rw [decode_f1 e] at h
      cases h
      exact ⟨op, 0, 0, by rw [e]; rfl, by rw [e]; rfl⟩
    | f2 mk =>
      match tail with
      | [] => simp [decode, e] at h
      | lo :: _ =>
        rw [decode_f2 e] at h
        cases h
        exact ⟨op, lo, 0, by rw [e]; rfl, by rw [e]; rfl⟩
    | f3 mk =>
      match tail with
      | [] => simp [decode, e] at h
      | [_] => simp [decode, e] at h
      | lo :: hi :: _ =>
        rw [decode_f3 e] at h
        cases h
        exact ⟨op, lo, hi, by rw [e]; rfl, by rw [e, entryOperands, addrBytes_joinBytes]; rfl⟩

/-! ### Every entry of the grid (R130) -/

/-- The entry of `op` makes well-formed instructions of one mnemonic, and the encoder gives the bytes they are read
from, as many as their length. -/
def EntryOk (op : Byte) (e : Entry) : Prop :=
  ∀ lo hi : Byte, WellFormed (entryInstr e lo hi) ∧ encode (entryInstr e lo hi) = op :: entryOperands e lo hi ∧
    instrLength (entryInstr e lo hi) = (op :: entryOperands e lo hi).length ∧
    (entryInstr e lo hi).mnemonic = (entryInstr e 0 0).mnemonic

/-- By evaluation, entry by entry and row by row. -/
theorem entry_ok (op : Byte) : EntryOk op (entryOf op) := by
  apply entryOf_of_rows (P := EntryOk) <;>
  · iterate 16 refine And.intro (fun _ _ => ⟨rfl, rfl, rfl, rfl⟩) ?_
    exact trivial

/-- Settles O2: what is read is an entry on its operand bytes, and `entry_ok` says what the encoder makes of it. -/
theorem encodeDecodeRoundTrip : Obligations.EncodeDecodeRoundTrip := by
  intro bytes rest i h
  obtain ⟨op, lo, hi, rfl, rfl⟩ := decode_cases h
  obtain ⟨wf, enc, -⟩ := entry_ok op lo hi
  exact ⟨wf, by rw [enc]⟩

theorem opLength_eq (op lo hi : Byte) : opLength op = (op :: entryOperands (entryOf op) lo hi).length := by
  unfold opLength
  cases entryOf op <;> rfl

/-- Settles O3: the length and the mnemonic are those of the opcode byte's entry. -/
theorem decodingIsTotalAndContextFree : Obligations.DecodingIsTotalAndContextFree := by
  intro op
  have bounds : 1 ≤ opLength op ∧ opLength op ≤ 3 := by
    unfold opLength
    cases entryOf op <;> simp
  refine ⟨opLength op, (entryInstr (entryOf op) 0 0).mnemonic, bounds.1, bounds.2, fun lo hi rest => ?_⟩
  obtain ⟨-, -, len, name⟩ := entry_ok op lo hi
  exact ⟨_, decode_cons_cons_cons op lo hi rest, len.trans (opLength_eq op lo hi).symm, name⟩

/-! ### The lines of R130's table by mnemonic -/

/-- The entry that reads a memory operand of the mode of `m`. -/
def entryAt (mk : Mem → Instr) : Mem → Entry
  | .zp _ => atZp mk | .zpx _ => atZpx mk | .zpy _ => atZpy mk | .abs _ => atAbs mk
  | .abx _ => atAbx mk | .aby _ => atAby mk | .izx _ => atIzx mk | .izy _ => atIzy mk

/-- The line has an opcode byte for each of the modes and for no other, and there the grid has the mnemonic's entry. -/
def LineOnGrid (t : MemOpcodes) (modes : List MemMode) (mk : Mem → Instr) : Prop :=
  ∀ m : Mem, (t.opcode m).map entryOf = if modes.contains m.mode then some (entryAt mk m) else none

theorem decode_entryAt {op : Byte} {mk : Mem → Instr} {m : Mem} (h : entryOf op = entryAt mk m) (rest : List Byte) :
    decode (op :: m.operandBytes ++ rest) = .ok (mk m, rest) := by
  cases m with
  | zp b | zpx b | zpy b | izx b | izy b => exact decode_f2 h b rest
  | abs w | abx w | aby w =>
    have hd := decode_f3 h (lowByte w) (highByte w) rest
    rwa [joinBytes_high_low] at hd

theorem LineOnGrid.decode {t : MemOpcodes} {modes : List MemMode} {mk : Mem → Instr} (h : LineOnGrid t modes mk)
    {m : Mem} (hm : modes.contains m.mode = true) (rest : List Byte) :
    ∃ op, t.opcode m = some op ∧ decode (op :: m.operandBytes ++ rest) = .ok (mk m, rest) := by
  have hmode := h m
  rw [if_pos hm, Option.map_eq_some_iff] at hmode
  obtain ⟨op, hop, he⟩ := hmode
  exact ⟨op, hop, decode_entryAt he rest⟩

theorem encode_eq {i : Instr} {op : Byte} (h : opcodeOf i = some op) : encode i = op :: i.operandBytes := by
  simp only [encode, h]

section Lines

variable {t : MemOpcodes} {modes : List MemMode} {rest : List Byte}

theorem decode_encode_mem {mk : Mem → Instr} {m : Mem} (line : LineOnGrid t modes mk)
    (hop : opcodeOf (mk m) = t.opcode m) (hb : (mk m).operandBytes = m.operandBytes)
    (hm : modes.contains m.mode = true) : decode (encode (mk m) ++ rest) = .ok (mk m, rest) := by
  obtain ⟨op, hline, hd⟩ := line.decode hm rest
  rw [encode_eq (hop.trans hline), hb, hd]

theorem decode_encode_src {mk : Src → Instr} {immOp : Byte} {o : Src} (imm : entryOf immOp = atImm mk)
    (line : LineOnGrid t modes (onSrc mk)) (hop : opcodeOf (mk o) = srcOpcode immOp t o)
    (hb : (mk o).operandBytes = o.operandBytes) (ho : o.ok modes = true) :
    decode (encode (mk o) ++ rest) = .ok (mk o, rest) := by
  cases o with
  | imm b =>
    rw [encode_eq hop, hb]
    exact decode_f2 imm b rest
  | mem m => exact decode_encode_mem (mk := onSrc mk) line hop hb ho

theorem decode_encode_dst {mk : Dst → Instr} {accOp : Byte} {d : Dst} (acc : entryOf accOp = .f1 (mk .acc))
    (line : LineOnGrid t modes (onDst mk)) (hop : opcodeOf (mk d) = dstOpcode accOp t d)
    (hb : (mk d).operandBytes = d.operandBytes) (hd : d.ok modes = true) :
    decode (encode (mk d) ++ rest) = .ok (mk d, rest) := by
  cases d with
  | acc =>
    rw [encode_eq hop, hb]
    exact decode_f1 acc rest
  | mem m => exact decode_encode_mem (mk := onDst mk) line hop hb hd

theorem decode_encode_addr {mk : Addr → Instr} {op : Byte} {w : Addr} (he : entryOf op = .f3 mk)
    (hop : opcodeOf (mk w) = some op) (hb : (mk w).operandBytes = addrBytes w) :
    decode (encode (mk w) ++ rest) = .ok (mk w, rest) := by
  have hd := decode_f3 he (lowByte w) (highByte w) rest
  rw [joinBytes_high_low] at hd
  rw [encode_eq hop, hb]
  exact hd

end Lines

/-! ### The halting and the undefined opcodes (R132, R133) -/

/-- A decoder that reads one byte of a one-byte list reads it of any list. -/
theorem decode_cons_of_singleton {op : Byte} {i : Instr} (h : decode [op] = .ok (i, [])) (rest : List Byte) :
    decode (op :: rest) = .ok (i, rest) := by
  cases e : entryOf op with
  | f1 j =>
    rw [decode_f1 e] at h
    cases h
    exact decode_f1 e rest
  | f2 mk => simp [decode, e] at h
  | f3 mk => simp [decode, e] at h

theorem decode_kil {op : Byte} (h : op ∈ kilOpcodes) (rest : List Byte) : decode (op :: rest) = .ok (.kil op, rest) :=
  decode_cons_of_singleton ((by decide : ∀ op ∈ kilOpcodes, decode [op] = .ok (.kil op, [])) op h) rest

theorem decode_und {op : Byte} (h : op ∈ undOpcodes) (rest : List Byte) : decode (op :: rest) = .ok (.und op, rest) :=
  decode_cons_of_singleton ((by decide : ∀ op ∈ undOpcodes, decode [op] = .ok (.und op, [])) op h) rest

theorem encode_kil {op : Byte} (h : WellFormed (.kil op)) : encode (.kil op) = [op] := encode_eq (if_pos h)

theorem encode_und {op : Byte} (h : WellFormed (.und op)) : encode (.und op) = [op] := encode_eq (if_pos h)

/-- Settles O1: a mnemonic with operand forms has a line of R130's table, which `LineOnGrid` holds against the grid; every
other instruction has one opcode byte. -/
theorem decodeEncodeRoundTrip : Obligations.DecodeEncodeRoundTrip := by
  intro i rest h
  cases i
  case lda | ldx | ldy | ora | and | eor | adc | sbc | cmp | cpx | cpy =>
    exact decode_encode_src rfl (fun m => by cases m <;> rfl) rfl rfl h
  case sta | stx | sty | bit | inc | dec =>
    exact decode_encode_mem (fun m => by cases m <;> rfl) rfl rfl h
  case asl | lsr | rol | ror =>
    exact decode_encode_dst rfl (fun m => by cases m <;> rfl) rfl rfl h
  case jmp g =>
    cases g with
    | abs w => exact decode_encode_addr (mk := fun w => .jmp (.abs w)) rfl rfl rfl
    | ind w => exact decode_encode_addr (mk := fun w => .jmp (.ind w)) rfl rfl rfl
  case jsr w => exact decode_encode_addr (mk := .jsr) rfl rfl rfl
  case kil op =>
    rw [encode_kil h]
    exact decode_kil (List.contains_iff_mem.1 h) rest
  case und op =>
    rw [encode_und h]
    exact decode_und (List.contains_iff_mem.1 h) rest
  all_goals rfl

/-- Settles O4: a halting or undefined instruction that was read is well formed and encodes to its own byte, by
`encodeDecodeRoundTrip`; conversely the bytes of both lists decode to such instructions. -/
theorem haltingAndUndefinedClasses : Obligations.HaltingAndUndefinedClasses := by
  refine ⟨rfl, by decide, fun op b1 b2 rest rest' i h => ?_⟩
  obtain ⟨wf, enc⟩ := encodeDecodeRoundTrip _ _ _ h
  have kil : ∀ k, i = .kil k → k = op := by
    rintro k rfl
    rw [encode_kil wf] at enc
    exact (List.cons.inj enc).1
  have und : ∀ k, i = .und k → k = op := by
    rintro k rfl
    rw [encode_und wf] at enc
    exact (List.cons.inj enc).1
  refine ⟨⟨?_, fun hop => ?_⟩, ⟨?_, fun hop => ?_⟩, kil, und⟩
  · rintro ⟨k, rfl⟩
    obtain rfl := kil k rfl
    exact List.contains_iff_mem.1 wf
  · rw [decode_kil hop] at h
    cases h
    exact ⟨op, rfl⟩
  · rintro ⟨k, rfl⟩
    obtain rfl := und k rfl
    exact List.contains_iff_mem.1 wf
  · rw [decode_und hop] at h
    cases h
    exact ⟨op, rfl⟩

/-- Settles O5: by evaluation of the decoder on each word. -/
theorem specWordsDecode : Obligations.SpecWordsDecode :=
  ⟨rfl, rfl, rfl, rfl, rfl, rfl, rfl, rfl, rfl, rfl, rfl, rfl, rfl⟩

end Sys2Proof.Proofs
end

section
/-! PROOFS. The invariants of a run (10_state.md R25, R35, 48_picture_unit.md R254, R259): what an instruction can do, and
the predicates that every step keeps. -/

namespace Sys2Proof.Proofs

open Sys2Proof.Machine

/-! ### What an instruction can do -/

/-- An instruction keeps what `Kept` says, or sets the halt flag, or emits an event (R245, R246). -/
theorem exec_cases {i : Instr} {s t : State} (h : exec i s = .next t) :
    Kept s t ∨ (∃ op, i = .kil op ∧ t = s.setHalted true) ∨
      ∃ op, i = .und op ∧ t = ((s.setPc (s.pc + 1#16)).emit ⟨s.pc, op⟩).addCycles 1 := by
  by_cases hi : documented i = true
  · obtain ⟨r, hr, hk⟩ := exec_kept i hi s
    cases hr.symm.trans h
    exact .inl hk
  · cases i
    case kil op =>
      cases h
      exact .inr (.inl ⟨op, rfl, rfl⟩)
    case und op =>
      cases (execUnd_eq op s).symm.trans h
      exact .inr (.inr ⟨op, rfl, rfl⟩)
    all_goals exact absurd rfl hi

/-- Settles O51: by `exec_cases`; `Kept` is the statement's list. -/
theorem whatNoInstructionChanges : Obligations.WhatNoInstructionChanges := by
  intro i s t h
  rcases exec_cases h with hk | ⟨op, rfl, rfl⟩ | ⟨op, rfl, rfl⟩
  · obtain ⟨scanline, dot, frame, back, front, vblank⟩ := hk.position
    exact ⟨scanline, dot, frame, back, front, vblank, hk.nmi, hk.config, hk.inputs, hk.cart, hk.rom,
      fun ht => .inl (hk.halted.symm.trans ht), .inl hk.events⟩
  · exact ⟨rfl, rfl, rfl, rfl, rfl, id, rfl, rfl, rfl, rfl, fun _ => rfl, fun _ => .inr ⟨op, rfl⟩, .inl rfl⟩
  · exact ⟨rfl, rfl, rfl, rfl, rfl, id, rfl, rfl, rfl, rfl, fun _ => rfl, .inl, .inr ⟨op, rfl⟩⟩

/-! ### Predicates that every step keeps -/

/-- The predicate is kept by what instructions keep, by ticks and by power-on, and looks at P, the storage and the
parameters alone. -/
structure StepInvariant (I : State → Prop) : Prop where
  kept : ∀ {s t : State}, Kept s t → I s → I t
  congr : ∀ {s t : State}, I s → t.p = s.p → SameStorage s t → t.config = s.config → I t
  ticks : ∀ (n : Nat) {s : State}, I s → I (advance n s)
  powerOn : ∀ {s : State}, I s → I (powerOn s)

namespace StepInvariant

variable {I : State → Prop} (hI : StepInvariant I) {s t : State}

include hI

theorem of_exec {i : Instr} (hs : I s) (h : exec i s = .next t) : I t := by
  rcases exec_cases h with hk | ⟨op, rfl, rfl⟩ | ⟨op, rfl, rfl⟩
  · exact hI.kept hk hs
  · exact hI.congr hs rfl ⟨rfl, rfl, rfl⟩ rfl
  · exact hI.congr hs rfl ⟨rfl, rfl, rfl⟩ rfl

theorem of_processorStep (hs : I s) (h : processorStep s = .next t) : I t :=
  hI.of_exec (hI.kept (fetch_kept s) hs) h

theorem of_raiseInterrupt (k : InterruptKind) (hs : I s) : I (raiseInterrupt k s) :=
  hI.kept (raiseInterrupt_kept k s).1 (hI.congr hs rfl ⟨rfl, rfl, rfl⟩ rfl)

theorem of_followTicks (ht : I t) : I (followTicks s t) := by
  unfold followTicks
  split
  · exact ht
  · exact hI.ticks _ ht

theorem of_hostCall {c : HostCall} (hs : I s) (h : hostCall c s = .next t) : I t := by
  by_cases ha : c.isAccess = true
  · obtain ⟨r, hr, hk⟩ := hostAccess_kept ha s
    cases hr.symm.trans h
    exact hI.kept hk hs
  · cases c
    case powerOn =>
      cases h
      exact hI.powerOn hs
    case reset =>
      cases h
      rw [resetCall_eq]
      exact hI.congr hs rfl ⟨rfl, rfl, rfl⟩ rfl
    case step =>
      simp only [hostCall] at h
      split at h
      · cases h
        exact hs
      · exact hI.of_processorStep hs h
    case advance n =>
      cases h
      exact hI.ticks n hs
    all_goals exact absurd rfl ha

theorem of_step (hs : I s) (h : step s = .next t) : I t := by
  have hl : ∀ l, I (s.setInputs l) := fun l => hI.congr hs rfl ⟨rfl, rfl, rfl⟩ rfl
  obtain ⟨-, ⟨c, l, -, hc⟩ | ⟨l, rfl⟩ | ⟨l, k, -, rfl⟩ | ⟨l, r, -, hr, rfl⟩⟩ := step_cases h
  · exact hI.of_hostCall (hl l) hc
  · exact hl l
  · exact hI.of_followTicks (hI.of_raiseInterrupt k (hl l))
  · exact hI.of_followTicks (hI.of_processorStep (hl l) hr)

end StepInvariant

theorem memoriesCanonical_invariant : StepInvariant MemoriesCanonical where
  kept := Kept.canonical
  congr hs _ hst hc := by
    obtain ⟨hram, hppu, hcart⟩ := hst
    unfold MemoriesCanonical
    rw [hram, hppu, hcart, hc]
    exact hs
  ticks n _ hs := advance_canonical n hs
  powerOn hs := powerOn_canonical hs

/-- Settles O55: the canonical form is a `StepInvariant`. -/
theorem stepKeepsMemoriesCanonical : Obligations.StepKeepsMemoriesCanonical :=
  fun _ _ hs h => memoriesCanonical_invariant.of_step hs h

theorem unusedBitSet_invariant : StepInvariant UnusedBitSet where
  kept := Kept.unused
  congr hs hp _ _ := by
    unfold UnusedBitSet
    rw [hp]
    exact hs
  ticks n s hs := by
    rw [advance_eq]
    exact hs
  powerOn _ := (rfl : getFlag .unused 0x34#8 = true)

/-- Settles O58: the Unused bit is a `StepInvariant`. -/
theorem stepKeepsUnusedBit : Obligations.StepKeepsUnusedBit :=
  fun _ _ hs h => unusedBitSet_invariant.of_step hs h

theorem vblankRule_invariant : StepInvariant (fun s => PositionLegal s.ppu ∧ VblankOnlyInBlank s) where
  kept hk hs := by
    obtain ⟨scanline, dot, -, -, -, vblank⟩ := hk.position
    obtain ⟨hl, hv⟩ := hs
    unfold PositionLegal VblankOnlyInBlank at *
    rw [scanline, dot]
    exact ⟨hl, fun hb => Bool.eq_false_iff.2 fun ht => Bool.false_ne_true ((hv hb).symm.trans (vblank ht))⟩
  congr hs _ hst _ := by
    unfold PositionLegal VblankOnlyInBlank at *
    rw [hst.2.1]
    exact hs
  ticks n _ hs := ⟨(advance_ticks n hs.1).1, advance_vblank n hs.1 hs.2⟩
  powerOn _ := ⟨⟨Int.le_refl _, (by decide : (-1 : Int) ≤ 260), Nat.zero_le _⟩, fun _ => rfl⟩

/-- Settles O57: the legal position and the vblank rule together are a `StepInvariant`. -/
theorem stepKeepsVblankRule : Obligations.StepKeepsVblankRule :=
  fun _ _ hs h => vblankRule_invariant.of_step hs h

/-! ### The lock step (R259, R321) -/

/-- The lock step is kept through what counts no cycle and leaves the position. -/
theorem lockStep_congr {s t : State} (hp : PositionKept s.ppu t.ppu) (hc : t.cyc = s.cyc) (hs : LockStep s) :
    LockStep t := by
  obtain ⟨scanline, dot, frame, -⟩ := hp
  unfold LockStep at *
  rw [scanline, dot, frame, hc]
  exact hs

/-- The ticks that follow a step catch up with the cycles it counted. -/
theorem lockStep_followTicks {s t : State} (hp : PositionKept s.ppu t.ppu) (hc : s.cyc ≤ t.cyc)
    (hh : t.halted = true → t.cyc = s.cyc) (hs : LockStep s) : LockStep (followTicks s t) := by
  unfold followTicks
  split
  next ht => exact lockStep_congr hp (hh ht) hs
  next =>
    rw [lockStep_iff] at hs
    obtain ⟨hl, hticks⟩ := hs
    obtain ⟨scanline, dot, frame, -⟩ := hp
    have hl' : PositionLegal t.ppu := by
      unfold PositionLegal
      rw [scanline, dot]
      exact hl
    have hticks' : ticksOf t.ppu = ticksOf s.ppu := by
      unfold ticksOf
      rw [scanline, dot, frame]
    have hcyc : (advance (3 * (t.cyc - s.cyc)) t).cyc = t.cyc := by rw [advance_eq]
    obtain ⟨legal, ticks⟩ := advance_ticks (3 * (t.cyc - s.cyc)) hl'
    rw [lockStep_iff, hcyc]
    exact ⟨legal, by omega⟩

/-- A Processor step moves no position, and counts no cycle where it halts the machine. -/
theorem processorStep_position {s t : State} (h : processorStep s = .next t) (hr : s.halted = false) :
    PositionKept s.ppu t.ppu ∧ s.cyc ≤ t.cyc ∧ (t.halted = true → t.cyc = s.cyc) := by
  have hf := fetch_kept s
  have hcyc : (fetch s).2.cyc = s.cyc := by
    rw [fetch_eq]
    rfl
  rcases exec_cases h with hk | ⟨op, -, rfl⟩ | ⟨op, -, rfl⟩
  · have hst := hf.trans' hk
    exact ⟨hst.position, hst.cyc, fun ht => absurd (hst.halted.symm.trans ht) (by simp [hr])⟩
  · exact ⟨hf.position, hf.cyc, fun _ => hcyc⟩
  · exact ⟨hf.position, Nat.le_add_right_of_le hf.cyc, fun ht => absurd (hf.halted.symm.trans ht) (by simp [hr])⟩

theorem lockStep_raiseInterrupt (k : InterruptKind) {s : State} (hr : s.halted = false) (hs : LockStep s) :
    LockStep (followTicks s (raiseInterrupt k s)) :=
  have hk := (raiseInterrupt_kept k s).1
  lockStep_followTicks hk.position hk.cyc (fun ht => absurd (hk.halted.symm.trans ht) (by simp [hr])) hs

/-- An access by the host counts no cycle (log entry 8). -/
theorem hostAccess_cyc {c : HostCall} (ha : c.isAccess = true) {s t : State} (h : hostCall c s = .next t) :
    t.cyc = s.cyc := by
  have write (a : Addr) (v : Byte) (s : State) : (memWrite a v s).cyc = s.cyc := by rw [memWrite_eq]
  have read (a : Addr) (s : State) : (readEffect a s).cyc = s.cyc := by
    rw [readEffect_eq]
    rfl
  cases c <;> cases ha <;> cases h
  case readByte a => exact read a s
  case readWord a => exact (read _ _).trans (read a s)
  case writeByte a v => exact write a v s
  case writeWord a v => exact (write _ _ _).trans (write a _ s)

theorem lockStep_hostCall {c : HostCall} {s t : State} (h : hostCall c s = .next t) (hstep : c ≠ .step)
    (hadvance : ∀ n, c ≠ .advance n) (hs : LockStep s) : LockStep t := by
  by_cases ha : c.isAccess = true
  · obtain ⟨r, hr, hk⟩ := hostAccess_kept ha s
    cases hr.symm.trans h
    exact lockStep_congr hk.position (hostAccess_cyc ha h) hs
  · cases c
    case powerOn =>
      cases h
      show (-1 : Int) = ((3 * 0 % 89342 / 341 : Nat) : Int) - 1 ∧ 0 = 3 * 0 % 89342 % 341 ∧ 0 = 3 * 0 / 89342
      decide
    case reset =>
      cases h
      rw [resetCall_eq]
      exact hs
    case step => exact absurd rfl hstep
    case advance n => exact absurd rfl (hadvance n)
    all_goals exact absurd rfl ha

/-- Settles O56: each thing a step can be, by `step_cases`, leaves the position and counts no cycle, or is followed by
three ticks for each cycle. -/
theorem stepKeepsLockStep : Obligations.StepKeepsLockStep := by
  intro s t hs h hstep hadvance
  obtain ⟨-, ⟨c, l, hi, hc⟩ | ⟨l, rfl⟩ | ⟨l, k, hr, rfl⟩ | ⟨l, r, hr, hp, rfl⟩⟩ := step_cases h
  · exact lockStep_hostCall (s := s.setInputs l) hc (fun e => hstep l (e ▸ hi)) (fun n e => hadvance n l (e ▸ hi)) hs
  · exact hs
  · exact lockStep_raiseInterrupt k (s := s.setInputs l) hr hs
  · obtain ⟨position, cyc, halted⟩ := processorStep_position hp hr
    exact lockStep_followTicks position cyc halted (s := s.setInputs l) hs

/-- Settles O59: every memory of the start state is empty, and its position is that of no tick. -/
theorem resetMeetsInvariants : Obligations.ResetMeetsInvariants := by
  have config : ConfigCanonical State.reset.cart State.reset.config :=
    ⟨Memory.wf_nil, Memory.wf_nil, Memory.wf_nil, Memory.wf_nil, Memory.wf_nil⟩
  refine ⟨⟨Memory.wf_nil, Memory.wf_nil, Memory.wf_nil, Memory.wf_nil, Pixels.wf_nil, Pixels.wf_nil, Memory.wf_nil,
    Memory.wf_nil, config⟩, ⟨rfl, rfl, rfl⟩, ⟨Int.le_refl _, by decide, Nat.zero_le _⟩, fun _ => rfl, rfl, rfl⟩

end Sys2Proof.Proofs
end

section
/-! PROOFS. Byte and word accesses outside RAM (20_memory.md): the stub, the unmapped range and the cartridge, the reads
that change the state, the nametables and character memory. -/

namespace Sys2Proof.Proofs

open Sys2Proof.Machine

/-! ### Word accesses (R61, R62) -/

theorem lowByte_eq_ofNat (w : Addr) : lowByte w = BitVec.ofNat 8 w.toNat :=
  BitVec.eq_of_toNat_eq (by rw [toNat_lowByte, BitVec.toNat_ofNat])

theorem highByte_eq_ofNat (w : Addr) : highByte w = BitVec.ofNat 8 (w.toNat / 256) := by
  have hw := w.isLt
  refine BitVec.eq_of_toNat_eq ?_
  rw [toNat_highByte, BitVec.toNat_ofNat, Nat.mod_eq_of_lt (by omega)]

theorem eq_add_one {a next : Addr} (h : next.toNat = (a.toNat + 1) % 65536) : next = a + 1#16 :=
  BitVec.eq_of_toNat_eq (h.trans (BitVec.toNat_add a 1#16).symm)

/-- Settles O7: both word accesses are compositions of two byte accesses. -/
theorem wordAccess : Obligations.WordAccess := by
  intro a next v s hnext
  obtain rfl := eq_add_one hnext
  refine ⟨toNat_joinBytes _ _, rfl, ?_⟩
  rw [← lowByte_eq_ofNat, ← highByte_eq_ofNat]
  rfl

/-! ### Where no RAM and no register answers (R66, R68, R71 to R73) -/

theorem not_inWindow_of_le {a : Addr} (h : 0x4000 ≤ a.toNat) : ¬ InWindow a := fun hw => by
  have := hw.2
  omega

theorem readValue_below_rom {a : Addr} (h : 0x4000 ≤ a.toNat) (h' : a.toNat < 0x8000) (s : State) :
    readValue a s = 0x00#8 := by
  rcases route_cases a with ⟨hlt, -⟩ | ⟨hw, -⟩ | ⟨-, hr⟩ | ⟨-, -, -, hr⟩ | ⟨-, -, hr⟩ | ⟨-, hr⟩
  · omega
  · exact absurd hw (not_inWindow_of_le h)
  all_goals simp only [readValue, hr, Cartridge.read, if_pos h']

theorem memRead_rom {a : Addr} (h : 0x8000 ≤ a.toNat) (s : State) :
    memRead a s = (s.cart.prgRom.get (s.cart.mapper.map s.cart.prgPages a), s) := by
  have hw : ¬ InWindow a := not_inWindow_of_le (by omega)
  have hr : route a = .cartridge := route_cartridge (by omega)
  simp only [memRead, readEffect_outside hw, readValue, hr, Cartridge.read, if_neg (Nat.not_lt.2 h)]

theorem memWrite_ignored {a : Addr} (h : 0x4000 ≤ a.toNat) (ht : a ≠ 0x4014#16) (v : Byte) (s : State) :
    memWrite a v s = s := by
  refine memWrite_other (fun k hk => ?_) (not_inWindow_of_le h) ht v s
  rcases route_cases a with ⟨hlt, -⟩ | ⟨-, hr⟩ | ⟨-, hr⟩ | ⟨-, -, -, hr⟩ | ⟨-, -, hr⟩ | ⟨-, hr⟩
  · omega
  all_goals cases hr.symm.trans hk

theorem mapper_map (m : Mapper) (pages : Nat) (a : Addr) :
    m.map pages a = if a.toNat < 0x8000 then 0 else if pages = 1 then a.toNat % 0x4000 else a.toNat % 0x8000 := by
  cases m
  rfl

/-- Settles O8: below 0x8000 the three targets read 0x00, above it `mapper_map` names the cell. -/
theorem outsideRamAndRegisters : Obligations.OutsideRamAndRegisters := by
  refine ⟨fun a v s h => ⟨fun h' => ?_, fun ht => memWrite_ignored h ht v s⟩, fun a s _ => ⟨fun h hp => ?_, fun h hp => ?_,
    fun h => ?_⟩⟩
  · rw [memRead, readValue_below_rom h h', readEffect_outside (not_inWindow_of_le h)]
  · rw [memRead_rom h, mapper_map, if_neg (Nat.not_lt.2 h), if_pos hp]
  · rw [memRead_rom h, mapper_map, if_neg (Nat.not_lt.2 h), if_neg (by omega)]
  · rw [mapper_map, if_pos h]

/-! ### The register window (R65, R87) -/

theorem memRead_window {a : Addr} (h : InWindow a) (s : State) :
    memRead a s = (regValue (regOf a) s, regReadEffect (regOf a) s) := by
  simp only [memRead, readValue, readEffect, route_window h.1 h.2]

theorem memWrite_window {a : Addr} (h : InWindow a) (v : Byte) (s : State) : memWrite a v s = regWrite (regOf a) v s := by
  simp only [memWrite, route_window h.1 h.2]

/-- The register at each place of the window (R260). -/
theorem regOf_eq (a : Addr) : regOf a =
    [PpuReg.ctrl, .mask, .status, .oamAddr, .oamData, .scroll, .addr, .data].getD (a.toNat % 8) .data := by
  have h : a.toNat % 8 < 8 := Nat.mod_lt _ (by decide)
  unfold regOf
  generalize a.toNat % 8 = n at h
  interval_cases n <;> rfl

/-- Settles O9: outside the window a read has no side effect, and inside it `regReadEffect` lists the registers that have
one. -/
theorem readsWithSideEffects : Obligations.ReadsWithSideEffects := by
  intro a s hne
  have hw : InWindow a := by
    by_contra hw
    exact hne (readEffect_outside hw s)
  refine ⟨hw, ?_⟩
  by_contra hreg
  rw [memRead_window hw, regOf_eq] at hne
  have h : a.toNat % 8 < 8 := Nat.mod_lt _ (by decide)
  generalize a.toNat % 8 = n at h hreg hne
  match n, h with
  | 0, _ | 1, _ | 3, _ | 4, _ | 5, _ | 6, _ => exact hne rfl
  | 2, _ | 7, _ => exact hreg (by decide)

/-! ### The video path (R79 to R83, R86) -/

theorem videoRoute_chr (c : Cartridge) {a : Nat} (h : a < 0x2000) : videoRoute c a = .chr a := by
  have hm : a % 0x4000 = a := Nat.mod_eq_of_lt (by omega)
  simp only [videoRoute, hm, if_pos h]

theorem ntIndex_eq (c : Cartridge) (table : Nat) {off : Nat} (h : off < 1024) :
    ntIndex c (0x2000 + table * 1024 + off) = ntPhys c table * 1024 + off := by
  have e1 : (0x2000 + table * 1024 + off - 0x2000) / 1024 = table := by omega
  have e2 : (0x2000 + table * 1024 + off - 0x2000) % 1024 = off := by omega
  rw [ntIndex, e1, e2]

theorem videoRoute_nametable (c : Cartridge) {table off : Nat} (ht : table < 4) (ho : off < 1024) :
    videoRoute c (0x2000 + table * 1024 + off) = .nametable (ntPhys c table * 1024 + off) := by
  have hm : (0x2000 + table * 1024 + off) % 0x4000 = 0x2000 + table * 1024 + off := Nat.mod_eq_of_lt (by omega)
  simp only [videoRoute, hm, if_neg (by omega : ¬ 0x2000 + table * 1024 + off < 0x2000),
    if_pos (by omega : 0x2000 + table * 1024 + off < 0x3000), ntIndex_eq c table ho]

/-- The nametables' mirror ends at the palette (R83). -/
theorem videoRoute_nametable_mirror (c : Cartridge) {table off : Nat} (ho : off < 1024)
    (h : table * 1024 + off < 0xF00) :
    videoRoute c (0x3000 + table * 1024 + off) = .nametable (ntPhys c table * 1024 + off) := by
  have hm : (0x3000 + table * 1024 + off) % 0x4000 = 0x3000 + table * 1024 + off := Nat.mod_eq_of_lt (by omega)
  have hs : 0x3000 + table * 1024 + off - 0x1000 = 0x2000 + table * 1024 + off := by omega
  simp only [videoRoute, hm, if_neg (by omega : ¬ 0x3000 + table * 1024 + off < 0x2000),
    if_neg (by omega : ¬ 0x3000 + table * 1024 + off < 0x3000),
    if_pos (by omega : 0x3000 + table * 1024 + off < 0x3F00), hs, ntIndex_eq c table ho]

/-- Settles O10: both ranges are routed to the cell of the physical nametable. -/
theorem nametableMirroring : Obligations.NametableMirroring := by
  rintro s table off v ht ho k rfl
  have direct : videoRoute s.cart (0x2000 + table * 1024 + off) = .nametable _ := videoRoute_nametable s.cart ht ho
  have mirror (h : table * 1024 + off < 0xF00) : videoRoute s.cart (0x3000 + table * 1024 + off) = .nametable _ :=
    videoRoute_nametable_mirror s.cart ho h
  unfold vidRead vidWrite
  refine ⟨by rw [direct]; rfl, by rw [direct]; rfl, fun h => ?_⟩
  exact ⟨by rw [mirror h]; rfl, by rw [mirror h]; rfl⟩

theorem videoRoute_mod (c : Cartridge) (a : Nat) : videoRoute c (a % 0x4000) = videoRoute c a := by
  simp only [videoRoute, Nat.mod_mod]

theorem vidRead_mod (s : State) (a : Nat) : vidRead s (a % 0x4000) = vidRead s a := by
  simp only [vidRead, videoRoute_mod]

theorem vidWrite_mod (a : Nat) (v : Byte) (s : State) : vidWrite (a % 0x4000) v s = vidWrite a v s := by
  simp only [vidWrite, videoRoute_mod]

/-- Settles O12: below 0x2000 a video address is routed to character memory, and routing looks at 14 bits. -/
theorem characterMemory : Obligations.CharacterMemory := by
  intro s a v
  refine ⟨fun h => ?_, fun h hp => ?_, fun h hp => ?_, (vidRead_mod s a).symm, (vidWrite_mod a v s).symm⟩
  · simp only [vidRead, videoRoute_chr _ h]
  · have hw : s.cart.chrWritable = true := beq_iff_eq.2 hp
    simp only [vidWrite, videoRoute_chr _ h, if_pos hw]
    rfl
  · have hw : ¬ s.cart.chrWritable = true := fun hw => hp (beq_iff_eq.1 hw)
    simp only [vidWrite, videoRoute_chr _ h, if_neg hw]

end Sys2Proof.Proofs
end

section
/-! PROOFS. The picture unit's registers (48_picture_unit.md R260 to R273) and the bulk OAM transfer (R283). -/

namespace Sys2Proof.Proofs

open Sys2Proof.Machine

/-! ### Control, mask, status, OAM address and OAM data (R261 to R267, R272) -/

theorem regOf_of_mod {a : Addr} {n : Nat} (h : a.toNat % 8 = n) : regOf a =
    [PpuReg.ctrl, .mask, .status, .oamAddr, .oamData, .scroll, .addr, .data].getD n .data := by
  rw [regOf_eq, h]

theorem toNat_statusByte (u : Ppu) : (statusByte u).toNat = u.vblank.toNat * 128 := by
  unfold statusByte
  cases u.vblank <;> rfl

/-- Settles O13: each access in the window is the access of the register at that place. -/
theorem registerAccess : Obligations.RegisterAccess := by
  refine ⟨fun a v s hw => ?_, fun a s hw h => ?_, fun a v s hw h => ?_⟩
  · rw [memWrite_window hw, memRead_window hw]
    refine ⟨fun h => by rw [regOf_of_mod h]; rfl, fun h => by rw [regOf_of_mod h]; rfl, fun h => by rw [regOf_of_mod h]; rfl,
      fun h => by rw [regOf_of_mod h]; rfl, fun h => ?_⟩
    simp only [List.mem_cons, List.not_mem_nil, or_false] at h
    rcases h with h | h | h | h | h <;> rw [regOf_of_mod h] <;> rfl
  · rw [memRead_window hw, regOf_of_mod h]
    exact ⟨toNat_statusByte s.ppu, rfl⟩
  · rw [memWrite_window hw, memRead_window hw, regOf_of_mod h]
    exact ⟨rfl, _, rfl, BitVec.toNat_add _ _, rfl⟩

/-! ### Scroll and address (R268, R269) -/

/-- Settles O14: the toggle decides which half the access writes. -/
theorem sharedWriteToggle : Obligations.SharedWriteToggle := by
  intro a v s hw
  rw [memWrite_window hw]
  refine ⟨fun h ht => ?_, fun h ht => ?_, fun h => ?_⟩
  · rw [regOf_of_mod h]
    exact if_neg (by rw [ht]; decide)
  · rw [regOf_of_mod h]
    exact if_pos ht
  · rw [regOf_of_mod h]
    cases ht : s.ppu.w
    · refine ⟨joinBytes v (lowByte s.ppu.vramAddr), if_neg (by rw [ht]; decide), fun _ => ?_, nofun⟩
      rw [toNat_joinBytes, toNat_lowByte]
    · refine ⟨joinBytes (highByte s.ppu.vramAddr) v, if_pos ht, nofun, fun _ => ?_⟩
      rw [toNat_joinBytes, toNat_highByte]

/-! ### The data register (R270, R271, R273) -/

theorem toNat_vramStep (u : Ppu) : (vramStep u).toNat = if u.ctrl.getLsbD 2 then 32 else 1 := by
  unfold vramStep
  split <;> rfl

/-- A write on the video path leaves the VRAM address and the control register. -/
theorem vidWrite_bump (a : Nat) (v : Byte) (s : State) :
    (vidWrite a v s).ppu.vramAddr = s.ppu.vramAddr ∧ (vidWrite a v s).ppu.ctrl = s.ppu.ctrl := by
  unfold vidWrite
  split
  · split <;> exact ⟨rfl, rfl⟩
  · exact ⟨rfl, rfl⟩
  · exact ⟨rfl, rfl⟩

/-- Settles O15: the access is the video path's at the VRAM address, and the address moves on by `vramStep`. -/
theorem dataPort : Obligations.DataPort := by
  intro a v s hw h
  refine ⟨s.ppu.vramAddr + vramStep s.ppu, ?_, ?_, ?_⟩
  · rw [BitVec.toNat_add, toNat_vramStep]
  · rw [memRead_window hw, regOf_of_mod h, vidRead_mod]
    rfl
  · rintro _ rfl
    obtain ⟨hva, hctrl⟩ := vidWrite_bump s.ppu.vramAddr.toNat v s
    have hstep : vramStep (vidWrite s.ppu.vramAddr.toNat v s).ppu = vramStep s.ppu := by
      unfold vramStep
      rw [hctrl]
    have hnext : s.ppu.vramAddr + vramStep s.ppu = (vidWrite s.ppu.vramAddr.toNat v s).ppu.vramAddr +
        vramStep (vidWrite s.ppu.vramAddr.toNat v s).ppu := by rw [hva, hstep]
    rw [memWrite_window hw, regOf_of_mod h, vidWrite_mod, hnext]
    rfl

/-! ### The bulk OAM transfer (R283) -/

/-- The state after the first `i` bytes of the transfer. -/
def oamTransferred (v : Byte) (s : State) (i : Nat) : State := (List.range i).foldl (oamTransferByte v) s

/-- The address of byte `i` of page `v`. -/
def pageAddr (v : Byte) (i : Nat) : Addr := joinBytes v (BitVec.ofNat 8 i)

theorem oamTransferred_succ (v : Byte) (s : State) (i : Nat) :
    oamTransferred v s (i + 1) = oamTransferByte v (oamTransferred v s i) i := by
  simp only [oamTransferred, List.range_succ, List.foldl_append, List.foldl_cons, List.foldl_nil]

theorem toNat_pageAddr (v : Byte) {i : Nat} (h : i < 256) : (pageAddr v i).toNat = v.toNat * 256 + i := by
  rw [pageAddr, toNat_joinBytes, BitVec.toNat_ofNat, Nat.mod_eq_of_lt h]

theorem readEffect_oamAddr (a : Addr) (s : State) : (readEffect a s).ppu.oamAddr = s.ppu.oamAddr := by
  obtain ⟨vb, w, va, -, e⟩ := readEffect_cases a s
  rw [e]
  rfl

theorem oamTransferred_oamAddr (v : Byte) (s : State) (i : Nat) :
    (oamTransferred v s i).ppu.oamAddr = s.ppu.oamAddr := by
  induction i with
  | zero => rfl
  | succ i ih =>
    rw [oamTransferred_succ, ← ih]
    exact readEffect_oamAddr _ _

/-- Byte `i` is a read with its side effect, and a store at the next OAM cell. -/
theorem oamTransferred_step (v : Byte) (s : State) (i : Nat) :
    oamTransferred v s (i + 1) =
      (memRead (pageAddr v i) (oamTransferred v s i)).2.setPpu
        { (memRead (pageAddr v i) (oamTransferred v s i)).2.ppu with
          oam := (memRead (pageAddr v i) (oamTransferred v s i)).2.ppu.oam.put ((s.ppu.oamAddr.toNat + i) % 256)
            (memRead (pageAddr v i) (oamTransferred v s i)).1 } := by
  have ha : (readEffect (pageAddr v i) (oamTransferred v s i)).ppu.oamAddr = s.ppu.oamAddr := by
    rw [readEffect_oamAddr, oamTransferred_oamAddr]
  rw [oamTransferred_succ, ← ha]
  rfl

/-- From a page outside the register window: OAM alone changes, and the cells stored so far hold the bytes of the page. -/
theorem oamTransferred_outside {v : Byte} {s : State} (hs : MemoriesCanonical s) (hv : ∀ i < 256, ¬ InWindow (pageAddr v i))
    {i : Nat} (hi : i ≤ 256) :
    oamTransferred v s i = s.setPpu { s.ppu with oam := (oamTransferred v s i).ppu.oam } ∧
      Memory.wf 256 (oamTransferred v s i).ppu.oam ∧
      ∀ j < i, (oamTransferred v s i).ppu.oam.get ((s.ppu.oamAddr.toNat + j) % 256) = readValue (pageAddr v j) s := by
  induction i with
  | zero => exact ⟨rfl, hs.2.1, fun j hj => absurd hj (Nat.not_lt_zero j)⟩
  | succ i ih =>
    obtain ⟨hform, hwf, hget⟩ := ih (Nat.le_of_succ_le hi)
    have hout := hv i hi
    have hread : readValue (pageAddr v i) (oamTransferred v s i) = readValue (pageAddr v i) s := by
      rw [hform]
      exact readValue_outside hout rfl rfl
    have hstep := oamTransferred_step v s i
    simp only [memRead, readEffect_outside hout, hread] at hstep
    rw [hstep]
    refine ⟨?_, Memory.put_wf hwf (Nat.mod_lt _ (by decide)), fun j hj => ?_⟩
    · rw [hform]
      rfl
    · rcases Nat.lt_succ_iff_lt_or_eq.1 hj with hlt | rfl
      · exact (Memory.get_put_other (by omega)).trans (hget j hlt)
      · exact Memory.get_put_same hwf

/-- Settles O16: `oamTransferred` is the chain of states, and from a page outside the window `oamTransferred_outside` says
what it has done. This theorem, being protected, leaves `Machine.oamTransfer` its short name. -/
protected theorem oamTransfer : Obligations.OamTransfer := by
  intro v s hs
  have hwrite : memWrite 0x4014#16 v s = oamTransferred v s 256 := rfl
  refine ⟨⟨oamTransferred v s, rfl, hwrite.symm, fun i hi => ⟨pageAddr v i, toNat_pageAddr v hi, oamTransferred_step v s i⟩⟩,
    fun hv => ?_⟩
  have hout : ∀ i < 256, ¬ InWindow (pageAddr v i) := fun i hi hw => by
    obtain ⟨h1, h2⟩ := hw
    rw [toNat_pageAddr v hi] at h1 h2
    omega
  obtain ⟨hform, -, hget⟩ := oamTransferred_outside hs hout (Nat.le_refl 256)
  rw [hwrite]
  refine ⟨fun src i hi hsrc => ?_, hform⟩
  obtain rfl : src = pageAddr v i := BitVec.eq_of_toNat_eq (hsrc.trans (toNat_pageAddr v hi).symm)
  exact hget i hi

end Sys2Proof.Proofs
end

section
/-! PROOFS. The ticks of a frame (48_picture_unit.md R251 to R258): where `n` ticks from the frame's start lead, and the
events on the way. -/

namespace Sys2Proof.Proofs

open Sys2Proof.Machine

/-! ### The position after n ticks (R251, R252) -/

/-- The picture unit stands at (-1, 0), where a frame starts. -/
def AtFrameStart (s : State) : Prop := s.ppu.scanline = -1 ∧ s.ppu.dot = 0

theorem advance_succ (n : Nat) (s : State) : advance (n + 1) s = tick (advance n s) := by
  induction n generalizing s with
  | zero => rfl
  | succ n ih => exact ih (tick s)

/-- Within a frame the number of ticks since its start is the position. -/
theorem advance_position {s : State} (h : AtFrameStart s) (n : Nat) :
    PositionLegal (advance n s).ppu ∧ ((advance n s).ppu.frame : Int) * 89342 + ((advance n s).ppu.scanline + 1) * 341 +
      (advance n s).ppu.dot = s.ppu.frame * 89342 + n := by
  obtain ⟨hline, hdot⟩ := h
  have hl : PositionLegal s.ppu := by
    unfold PositionLegal
    omega
  obtain ⟨legal, ticks⟩ := advance_ticks n hl
  unfold ticksOf at ticks
  exact ⟨legal, by omega⟩

/-- At which ticks of a frame the position is the one of an event. -/
theorem advance_events {s : State} (h : AtFrameStart s) {n : Nat} (hn : n ≤ 89342) :
    (((advance n s).ppu.scanline = -1 ∧ (advance n s).ppu.dot = 0) ↔ (n = 0 ∨ n = 89342)) ∧
    (((advance n s).ppu.scanline = 241 ∧ (advance n s).ppu.dot = 0) ↔ n = 82522) ∧
    (((advance n s).ppu.scanline = 241 ∧ (advance n s).ppu.dot = 1) ↔ n = 82523) := by
  obtain ⟨⟨h1, h2, h3⟩, hticks⟩ := advance_position h n
  omega

theorem advance_ctrl (n : Nat) (s : State) : (advance n s).ppu.ctrl = s.ppu.ctrl := by rw [advance_ppu]

/-! ### The vblank flag and the NMI request (R253 to R255) -/

theorem vblank_over_frame {s : State} (h : AtFrameStart s) (hv : s.ppu.vblank = false) {n : Nat} (hn : n ≤ 89342) :
    (advance n s).ppu.vblank = decide (82523 ≤ n ∧ n < 89342) := by
  induction n with
  | zero => exact hv
  | succ n ih =>
    obtain ⟨clear, -, set⟩ := advance_events h hn
    rw [advance_succ] at clear set ⊢
    rw [(tick_shape (advance n s)).vblank, ih (by omega)]
    simp only [clear, set]
    by_cases h1 : n + 1 = 82523
    · simp [h1]
    · by_cases h2 : n + 1 = 89342
      · simp [h2]
      · simp only [h1, h2, Nat.add_eq_zero_iff, Nat.one_ne_zero, and_false, or_false, if_false, decide_eq_decide]
        omega

theorem nmi_over_frame {s : State} (h : AtFrameStart s) {n : Nat} (hn : n ≤ 89342) :
    (advance n s).nmiPending = (s.nmiPending || (s.ppu.ctrl.getLsbD 7 && decide (82523 ≤ n))) := by
  induction n with
  | zero => simp [advance]
  | succ n ih =>
    obtain ⟨-, -, set⟩ := advance_events h hn
    rw [advance_succ] at set ⊢
    rw [(tick_shape (advance n s)).nmi, ih (by omega), advance_ctrl]
    simp only [set]
    by_cases h1 : n + 1 = 82523
    · obtain rfl : n = 82522 := by omega
      simp
    · have h2 : (82523 ≤ n) ↔ (82523 ≤ n + 1) := by omega
      simp only [h1, if_false, h2]

/-- Settles O17: `advance_events` places the three events of a frame, and a frame is 89342 ticks of `ticksOf`. -/
theorem vblankOverAFrame : Obligations.VblankOverAFrame := by
  refine ⟨fun s n hline hdot hv hn => ⟨vblank_over_frame ⟨hline, hdot⟩ hv hn, nmi_over_frame ⟨hline, hdot⟩ hn⟩, fun s hl => ?_⟩
  obtain ⟨⟨h1, h2, h3⟩, ticks⟩ := advance_ticks 89342 hl
  obtain ⟨g1, g2, g3⟩ := hl
  unfold ticksOf at ticks
  omega

/-! ### The picture (R256, R258) -/

theorem vblankSet_eq (s : State) : ∃ b n, vblankSet s = (s.setPpu { s.ppu with vblank := b }).setNmi n := by
  unfold vblankSet
  split
  · exact ⟨true, _, rfl⟩
  · exact ⟨s.ppu.vblank, _, rfl⟩

theorem vblankClear_eq (s : State) : ∃ b, vblankClear s = s.setPpu { s.ppu with vblank := b } := by
  unfold vblankClear
  split
  · exact ⟨false, rfl⟩
  · exact ⟨s.ppu.vblank, rfl⟩

theorem publish_eq (s : State) : ∃ front, publish s = s.setPpu { s.ppu with front := front } := by
  unfold publish
  split
  · exact ⟨s.ppu.back, rfl⟩
  · exact ⟨s.ppu.front, rfl⟩

/-- Before it draws, a tick changes the position, the vblank flag, the front buffer and the NMI latch. -/
theorem events_eq (s : State) : ∃ b front n, publish (vblankClear (vblankSet s)) =
    (s.setPpu { s.ppu with vblank := b, front := front }).setNmi n := by
  obtain ⟨b1, n, e1⟩ := vblankSet_eq s
  obtain ⟨b2, e2⟩ := vblankClear_eq (vblankSet s)
  obtain ⟨front, e3⟩ := publish_eq (vblankClear (vblankSet s))
  exact ⟨b2, front, n, by rw [e3, e2, e1]; rfl⟩

theorem drawPixel_back (s : State) : (drawPixel s).ppu.back =
    if 0 ≤ s.ppu.scanline ∧ s.ppu.scanline ≤ 239 ∧ s.ppu.dot ≤ 255 then
      s.ppu.back.put (pixelKey s.ppu.dot s.ppu.scanline.toNat) (pixel s s.ppu.dot s.ppu.scanline.toNat)
    else s.ppu.back := by
  simp only [drawPixel, State.setPpu_ppu]
  split <;> rfl

/-- What a tick draws is the pixel function of the state before it. -/
theorem tick_back (s : State) : (tick s).ppu.back =
    if 0 ≤ (tick s).ppu.scanline ∧ (tick s).ppu.scanline ≤ 239 ∧ (tick s).ppu.dot ≤ 255 then
      s.ppu.back.put (pixelKey (tick s).ppu.dot (tick s).ppu.scanline.toNat)
        (pixel s (tick s).ppu.dot (tick s).ppu.scanline.toNat)
    else s.ppu.back := by
  obtain ⟨hline, hdot, -⟩ := tick_position s
  obtain ⟨b, front, n, e⟩ := events_eq (s.setPpu (advancePosition s.ppu))
  have same : SamePixelInputs s (publish (vblankClear (vblankSet (s.setPpu (advancePosition s.ppu))))) := by
    rw [e, advancePosition_rest]
    exact ⟨rfl, rfl, rfl, rfl, rfl, rfl, rfl, rfl, rfl, rfl, rfl⟩
  have back : (advancePosition s.ppu).back = s.ppu.back := by rw [advancePosition_rest]
  rw [hline, hdot, tick, drawPixel_back, same.pixel_eq, e]
  simp only [State.setNmi_ppu, State.setPpu_ppu, back]

theorem samePixelInputs_advance (n : Nat) (s : State) : SamePixelInputs s (advance n s) := by
  rw [advance_frame]
  exact ⟨rfl, rfl, rfl, rfl, rfl, rfl, rfl, rfl, rfl, rfl, rfl⟩

theorem pixelKey_inj {x y x' y' : Nat} (h : pixelKey x y = pixelKey x' y') (hx : x < 256) (hx' : x' < 256) :
    x = x' ∧ y = y' := by
  unfold pixelKey at h
  omega

/-- Pixel `(x, y)` is drawn by tick `(y + 1) * 341 + x` and stays in the back buffer to the end of the frame. -/
theorem back_over_frame {s : State} (hs : MemoriesCanonical s) (h : AtFrameStart s) {x y n : Nat} (hx : x < 256)
    (hy : y < 240) (hdrawn : (y + 1) * 341 + x ≤ n) (hn : n ≤ 89342) :
    (advance n s).ppu.back.get (pixelKey x y) = pixel s x y := by
  induction n with
  | zero => omega
  | succ n ih =>
    obtain ⟨-, -, -, -, hback, -⟩ := advance_canonical n hs
    obtain ⟨⟨h1, h2, h3⟩, hticks⟩ := advance_position h (n + 1)
    rw [advance_succ] at h1 h2 h3 hticks ⊢
    rw [tick_back]
    by_cases hnow : (y + 1) * 341 + x = n + 1
    · obtain ⟨hline, rfl⟩ : (tick (advance n s)).ppu.scanline = y ∧ (tick (advance n s)).ppu.dot = x := by omega
      rw [if_pos (by omega), hline, Int.toNat_natCast, Pixels.get_put_same hback]
      exact (samePixelInputs_advance n s).pixel_eq _ _
    · have hold := ih (by omega) (by omega)
      split
      next hvisible =>
        obtain ⟨hline0, -, hdot⟩ := hvisible
        refine (Pixels.get_put_other fun hkey => ?_).trans hold
        obtain ⟨hdot', hline'⟩ := pixelKey_inj hkey hx (by omega)
        omega
      next => exact hold

theorem front_over_frame {s : State} (h : AtFrameStart s) {n : Nat} (hn : n ≤ 89342) :
    (advance n s).ppu.front = if n < 82522 then s.ppu.front else (advance 82521 s).ppu.back := by
  induction n with
  | zero => exact (if_pos (by decide)).symm
  | succ n ih =>
    obtain ⟨-, publish, -⟩ := advance_events h hn
    rw [advance_succ] at publish ⊢
    rw [(tick_shape (advance n s)).front, ih (by omega)]
    simp only [publish]
    by_cases hnow : n + 1 = 82522
    · obtain rfl : n = 82521 := by omega
      rw [if_pos hnow, if_neg (by omega)]
    · have hold : n < 82522 ↔ n + 1 < 82522 := by omega
      simp only [hnow, if_false, hold]

/-- Settles O18: what is published at (241, 0) is the back buffer of the tick before, in which every pixel is drawn. -/
theorem pictureOverAFrame : Obligations.PictureOverAFrame := by
  intro s n hs hline hdot hn
  have h : AtFrameStart s := ⟨hline, hdot⟩
  have hfront := front_over_frame h hn
  refine ⟨fun hlt => by rw [hfront, if_pos hlt], fun hle x y hx hy => ?_⟩
  rw [hfront, if_neg (Nat.not_lt.2 hle)]
  exact back_over_frame hs h hx hy (by omega) (by omega)

end Sys2Proof.Proofs
end

section
/-! PROOFS. The pixel function (48_picture_unit.md R274 to R279) in the rules' own arithmetic. -/

namespace Sys2Proof.Proofs

open Sys2Proof.Machine

/-! ### The background (R275) -/

theorem bgPixel_disabled {s : State} (h : s.ppu.mask.getLsbD 3 = false) (x y : Nat) : bgPixel s x y = (0, 0) :=
  if_pos (by rw [h]; rfl)

theorem bgPixel_clipped {s : State} {x : Nat} (hx : x < 8) (h : s.ppu.mask.getLsbD 1 = false) (y : Nat) :
    bgPixel s x y = (0, 0) := by
  cases h3 : s.ppu.mask.getLsbD 3
  · exact bgPixel_disabled h3 x y
  · exact (if_neg (by rw [h3]; decide)).trans (if_pos ⟨hx, h⟩)

theorem ite_eq_toNat_mul (b : Bool) (n : Nat) : (if b then n else 0) = b.toNat * n := by cases b <;> simp

/-- The pixel at column `cx` of the nametable's column `k` and line `cy` of the nametable's row `l`, shown. -/
theorem bgPixel_shown {s : State} {x y k l cx cy : Nat} (h3 : s.ppu.mask.getLsbD 3 = true)
    (h1 : 8 ≤ x ∨ s.ppu.mask.getLsbD 1 = true)
    (hcol : x + s.ppu.scrollX.toNat + (s.ppu.ctrl.getLsbD 0).toNat * 256 = k * 256 + cx) (hcx : cx < 256)
    (hrow : y + s.ppu.scrollY.toNat + (s.ppu.ctrl.getLsbD 1).toNat * 240 = l * 240 + cy) (hcy : cy < 240)
    {nt : Nat} (hnt : nt = 0x2000 + (l % 2 * 2 + k % 2) * 1024) :
    bgPixel s x y =
      (tileColour s ((s.ppu.ctrl.getLsbD 4).toNat * 0x1000 + (vidRead s (nt + cy / 8 * 32 + cx / 8)).toNat * 16 + cy % 8)
        (cx % 8),
       (vidRead s (nt + 960 + cy / 32 * 8 + cx / 32)).toNat / 4 ^ (cy / 16 % 2 * 2 + cx / 16 % 2) % 4) := by
  subst hnt
  have ek : (k * 256 + cx) / 256 = k := by omega
  have ec : (k * 256 + cx) % 256 = cx := by omega
  have el : (l * 240 + cy) / 240 = l := by omega
  have er : (l * 240 + cy) % 240 = cy := by omega
  have attrRow : cy / 8 / 4 = cy / 32 := Nat.div_div_eq_div_mul _ _ _
  have attrCol : cx / 8 / 4 = cx / 32 := Nat.div_div_eq_div_mul _ _ _
  have shift : cy / 8 % 4 / 2 * 4 + cx / 8 % 4 / 2 * 2 = 2 * (cy / 16 % 2 * 2 + cx / 16 % 2) := by omega
  have hclip : ¬ (x < 8 ∧ s.ppu.mask.getLsbD 1 = false) := fun ⟨hx, hf⟩ => by
    rcases h1 with h1 | h1
    · omega
    · exact Bool.false_ne_true (hf.symm.trans h1)
  simp only [bgPixel, h3, Bool.not_true, Bool.false_eq_true, if_false, if_neg hclip, ite_eq_toNat_mul, hcol, hrow, ek, ec, el,
    er, attrRow, attrCol, shift, Nat.pow_mul, Nat.reducePow]

/-! ### The composition (R274, R277, R278) -/

theorem pixel_eq_compose {s : State} {x y bc bp : Nat} (h : bgPixel s x y = (bc, bp)) :
    pixel s x y = s.config.paletteArgb.getD
      ((vidRead s (compose bc bp (spritePixel s x y))).toNat % 64) opaqueBlack := by
  rw [pixel, pixelIndex, h]
  rfl

/-- Settles O60: `bgPixel` in each of its cases, and `compose` in each of its. -/
theorem pixelComposition : Obligations.PixelComposition := by
  refine ⟨fun s x y => ⟨fun h => bgPixel_disabled h x y, fun hx h => bgPixel_clipped hx h y, ?_⟩, ?_⟩
  · rintro h3 h1 k l cx cy nt pa tile attr hcol hcx hrow hcy hnt rfl rfl rfl
    exact bgPixel_shown h3 h1 hcol hcx hrow hcy hnt
  · rintro s x y bc bp colourOf hbg rfl
    have hp := pixel_eq_compose hbg
    refine ⟨fun hsp hbc => ?_, fun hsp hbc => ?_, fun p hsp => ⟨fun hbehind hbc => ?_, fun hfront => ?_⟩⟩
    · rw [hp, hsp, compose, if_pos hbc]
    · rw [hp, hsp, compose, if_neg hbc]
    · rw [hp, hsp, compose, if_pos ⟨hbehind, hbc⟩]
    · rw [hp, hsp, compose, if_neg]
      rintro ⟨hb, hbc⟩
      rcases hfront with hf | hf
      · exact Bool.false_ne_true (hf.symm.trans hb)
      · exact hbc hf

theorem spritePixel_disabled {s : State} (h : s.ppu.mask.getLsbD 4 = false) (x y : Nat) : spritePixel s x y = none :=
  if_pos (by rw [h]; rfl)

/-- Settles O19: both layers are empty, and the palette address composed of them is that of cell 0. -/
theorem renderingDisabled : Obligations.RenderingDisabled := by
  intro s x y h3 h4
  have hroute : videoRoute s.cart 0x3F00 = .palette 0 := videoRoute_palette s.cart (by decide) (by decide)
  rw [pixel_eq_compose (bgPixel_disabled h3 x y), spritePixel_disabled h4, compose, if_pos rfl, vidRead, hroute]

/-! ### What a sprite entry shows (R276) -/

/-- The tile row, of `h`, that line `dy` of a sprite shows. -/
def spriteRow (attr : Byte) (h dy : Nat) : Nat := if attr.getLsbD 7 then h - 1 - dy else dy

/-- The bit of the tile row's bytes that column `dx` of a sprite shows. -/
def spriteBit (attr : Byte) (dx : Nat) : Nat := if attr.getLsbD 6 then dx else 7 - dx

/-- The address of a sprite's tile row. -/
def spritePattern (s : State) (h : Nat) (tile : Byte) (row : Nat) : Nat :=
  if h = 8 then (if s.ppu.ctrl.getLsbD 3 then 0x1000 else 0) + tile.toNat * 16 + row
  else tile.toNat % 2 * 0x1000 + tile.toNat / 2 * 32 + row / 8 * 16 + row % 8

/-- The two bits of a tile row as a colour. -/
def patternColour (s : State) (pa bit : Nat) : Nat :=
  ((vidRead s (pa + 8)).getLsbD bit).toNat * 2 + ((vidRead s pa).getLsbD bit).toNat

/-- The number of lines of a sprite. -/
def spriteHeight (s : State) : Nat := if s.ppu.ctrl.getLsbD 5 then 16 else 8

theorem toNat_and_fe (t : Byte) : (t &&& 0xFE#8).toNat = t.toNat / 2 * 2 := by
  revert t
  decide

theorem ite_getLsbD_zero (t : Byte) : (if t.getLsbD 0 then 0x1000 else 0) = t.toNat % 2 * 0x1000 := by
  revert t
  decide

theorem spriteHeight_cast (s : State) : (if s.ppu.ctrl.getLsbD 5 then 16 else 8 : Int) = (spriteHeight s : Int) := by
  unfold spriteHeight
  split <;> rfl

/-- Where the entry's sprite does not reach, it shows nothing. -/
theorem spritePixelOf_uncovered {s : State} {x y i : Nat}
    (h : ¬ ∃ dy dx, y = (s.ppu.oam.get (4 * i)).toNat + 1 + dy ∧ dy < spriteHeight s ∧
      x = (s.ppu.oam.get (4 * i + 3)).toNat + dx ∧ dx < 8) : spritePixelOf s x y i = none := by
  simp only [spritePixelOf, spriteHeight_cast]
  refine if_pos ?_
  by_contra hcov
  refine h ⟨y - ((s.ppu.oam.get (4 * i)).toNat + 1), x - (s.ppu.oam.get (4 * i + 3)).toNat, ?_⟩
  omega

/-- At line `dy` and column `dx` of its sprite, an entry shows the colour of its tile there, if it is opaque. -/
theorem spritePixelOf_covered {s : State} {x y i dy dx : Nat} (hy : y = (s.ppu.oam.get (4 * i)).toNat + 1 + dy)
    (hdy : dy < spriteHeight s) (hx : x = (s.ppu.oam.get (4 * i + 3)).toNat + dx) (hdx : dx < 8)
    {tile attr : Byte} (htile : tile = s.ppu.oam.get (4 * i + 1)) (hattr : attr = s.ppu.oam.get (4 * i + 2))
    {c : Nat} (hc : c = patternColour s (spritePattern s (spriteHeight s) tile (spriteRow attr (spriteHeight s) dy))
      (spriteBit attr dx)) :
    spritePixelOf s x y i = if c = 0 then none else some ⟨c, attr.toNat % 4, attr.getLsbD 5⟩ := by
  have hr : (y : Int) - (((s.ppu.oam.get (4 * i)).toNat : Int) + 1) = dy := by omega
  have hcol : (x : Int) - ((s.ppu.oam.get (4 * i + 3)).toNat : Int) = dx := by omega
  have hrow : (if attr.getLsbD 7 then (spriteHeight s : Int) - 1 - dy else dy).toNat =
      spriteRow attr (spriteHeight s) dy := by
    unfold spriteRow
    split <;> omega
  have hbit : 7 - (if attr.getLsbD 6 then 7 - (dx : Int) else dx).toNat = spriteBit attr dx := by
    unfold spriteBit
    split <;> omega
  have hlt : spriteRow attr (spriteHeight s) dy < spriteHeight s := by
    unfold spriteRow
    split <;> omega
  have hpa : (if s.ppu.ctrl.getLsbD 5 then
      (if tile.getLsbD 0 then 0x1000 else 0) + (tile &&& 0xFE#8).toNat * 16 +
        (if 8 ≤ spriteRow attr (spriteHeight s) dy then 16 else 0) + spriteRow attr (spriteHeight s) dy % 8
      else (if s.ppu.ctrl.getLsbD 3 then 0x1000 else 0) + tile.toNat * 16 + spriteRow attr (spriteHeight s) dy) =
      spritePattern s (spriteHeight s) tile (spriteRow attr (spriteHeight s) dy) := by
    generalize spriteRow attr (spriteHeight s) dy = row at hlt
    unfold spritePattern
    unfold spriteHeight at hlt ⊢
    have hrow16 : row < 16 := by split at hlt <;> omega
    rw [ite_getLsbD_zero, toNat_and_fe]
    cases s.ppu.ctrl.getLsbD 5
    · rfl
    · have half : (if 8 ≤ row then 16 else 0) = row / 8 * 16 := by split <;> omega
      simp only [if_true, half, Nat.reduceEqDiff, if_false, Nat.mul_assoc, Nat.reduceMul]
  have hin : ¬ ((dy : Int) < 0 ∨ (spriteHeight s : Int) ≤ dy ∨ (dx : Int) < 0 ∨ 8 ≤ (dx : Int)) := by omega
  simp only [spritePixelOf, spriteHeight_cast, hr, hcol, ← htile, ← hattr, if_neg hin, hrow, hpa, tileColour, hbit]
  rw [hc]
  rfl

/-- What an entry shows, and when: R276's list. -/
theorem spritePixelOf_eq_some_iff {s : State} {x y i : Nat} {p : SpritePixel} {tile attr : Byte}
    (htile : tile = s.ppu.oam.get (4 * i + 1)) (hattr : attr = s.ppu.oam.get (4 * i + 2)) :
    spritePixelOf s x y i = some p ↔ ∃ dy dx,
      y = (s.ppu.oam.get (4 * i)).toNat + 1 + dy ∧ dy < spriteHeight s ∧
      x = (s.ppu.oam.get (4 * i + 3)).toNat + dx ∧ dx < 8 ∧
      p.colour = patternColour s (spritePattern s (spriteHeight s) tile (spriteRow attr (spriteHeight s) dy))
        (spriteBit attr dx) ∧ p.colour ≠ 0 ∧ p.palette = attr.toNat % 4 ∧ p.behind = attr.getLsbD 5 := by
  constructor
  · intro h
    by_cases hcov : ∃ dy dx, y = (s.ppu.oam.get (4 * i)).toNat + 1 + dy ∧ dy < spriteHeight s ∧
        x = (s.ppu.oam.get (4 * i + 3)).toNat + dx ∧ dx < 8
    · obtain ⟨dy, dx, hy, hdy, hx, hdx⟩ := hcov
      rw [spritePixelOf_covered hy hdy hx hdx htile hattr rfl] at h
      split at h <;> cases h
      exact ⟨dy, dx, hy, hdy, hx, hdx, rfl, ‹_›, rfl, rfl⟩
    · rw [spritePixelOf_uncovered hcov] at h
      cases h
  · rintro ⟨dy, dx, hy, hdy, hx, hdx, hcolour, hopaque, hpalette, hbehind⟩
    rw [spritePixelOf_covered hy hdy hx hdx htile hattr hcolour, if_neg hopaque, ← hpalette, ← hbehind]

/-! ### Which sprite pixel wins (R276) -/

theorem spritePixel_shown {s : State} {x : Nat} (h4 : s.ppu.mask.getLsbD 4 = true)
    (h2 : 8 ≤ x ∨ s.ppu.mask.getLsbD 2 = true) (y : Nat) :
    spritePixel s x y = (List.range 64).findSome? (spritePixelOf s x y) := by
  have hclip : ¬ (x < 8 ∧ s.ppu.mask.getLsbD 2 = false) := fun ⟨hx, hf⟩ => by
    rcases h2 with h2 | h2
    · omega
    · exact Bool.false_ne_true (hf.symm.trans h2)
  exact (if_neg (by rw [h4]; decide)).trans (if_neg hclip)

theorem spritePixel_clipped {s : State} {x : Nat} (hx : x < 8) (h2 : s.ppu.mask.getLsbD 2 = false) (y : Nat) :
    spritePixel s x y = none := by
  cases h4 : s.ppu.mask.getLsbD 4
  · exact spritePixel_disabled h4 x y
  · exact (if_neg (by rw [h4]; decide)).trans (if_pos ⟨hx, h2⟩)

/-- A search of a range finds the first index at which there is something. -/
theorem findSome?_range {α : Type} {f : Nat → Option α} {n i : Nat} {p : α} (hi : i < n) (hp : f i = some p)
    (hfirst : ∀ j < i, f j = none) : (List.range n).findSome? f = some p := by
  obtain ⟨m, rfl⟩ : ∃ m, n = i + (m + 1) := ⟨n - i - 1, by omega⟩
  have hnone : (List.range i).findSome? f = none :=
    List.findSome?_eq_none_iff.2 fun j hj => hfirst j (List.mem_range.1 hj)
  rw [List.range_add, List.findSome?_append, hnone, List.range_succ_eq_map]
  simp only [List.map_cons, Nat.add_zero, List.findSome?_cons, hp]
  rfl

theorem spritePixel_none {s : State} {x y : Nat} (h : ∀ i < 64, spritePixelOf s x y i = none) : spritePixel s x y = none := by
  unfold spritePixel
  split
  · rfl
  · split
    · rfl
    · exact List.findSome?_eq_none_iff.2 fun j hj => h j (List.mem_range.1 hj)

/-- Settles O20: `spritePixelOf_eq_some_iff` is the first part; a sprite's lines begin below its Y byte, and the search in
OAM order finds the first opaque pixel. -/
theorem spriteSelection : Obligations.SpriteSelection := by
  refine ⟨?_, fun s x y => ?_⟩
  · rintro s x y i h p rfl
    rw [spritePixelOf_eq_some_iff rfl rfl]
    constructor
    · rintro ⟨dy, dx, hy, hdy, hx, hdx, hp⟩
      exact ⟨dy, dx, _, _, _, _, _, hy, hdy, hx, hdx, rfl, rfl, rfl, rfl, rfl, hp⟩
    · rintro ⟨dy, dx, _, _, _, _, _, hy, hdy, hx, hdx, rfl, rfl, rfl, rfl, rfl, hp⟩
      exact ⟨dy, dx, hy, hdy, hx, hdx, hp⟩
  · have above (i : Nat) (h : y ≤ (s.ppu.oam.get (4 * i)).toNat) : spritePixelOf s x y i = none :=
      spritePixelOf_uncovered fun ⟨dy, dx, hy, _⟩ => by omega
    refine ⟨above, fun hy i hi => above i (by omega), fun i p hi hp hfirst h4 h2 => ?_, spritePixel_none,
      fun h4 => spritePixel_disabled h4 x y, fun hx h2 => spritePixel_clipped hx h2 y⟩
    rw [spritePixel_shown h4 h2]
    exact findSome?_range hi hp hfirst

end Sys2Proof.Proofs
end

section
/-! PROOFS. Effective addresses (30_encoding.md R117 to R127), the reading of the V flag (41_arithmetic_logic.md R187), and
the instructions that modify memory (R181, R182, 42_shift_rotate.md R190 to R194). -/

namespace Sys2Proof.Proofs

open Sys2Proof.Machine

/-! ### Effective addresses (R117 to R127) -/

theorem toNat_zeroPage (b : Byte) : (zeroPage b).toNat = b.toNat := by
  rw [zeroPage, toNat_joinBytes]
  exact Nat.zero_add _

theorem readValue_zeroPage (b : Byte) (s : State) : readValue (zeroPage b) s = s.ram.get b.toNat := by
  simp only [readValue, route_zeroPage]

/-- The second byte of a pointer in the zero page wraps within the page (D15). -/
theorem toNat_zeroPagePointer (z : Byte) (s : State) : (zeroPagePointer z s).toNat =
    (s.ram.get ((z.toNat + 1) % 256)).toNat * 256 + (s.ram.get z.toNat).toNat := by
  rw [zeroPagePointer, toNat_joinBytes, readValue_zeroPage, readValue_zeroPage, BitVec.toNat_add]
  rfl

theorem toNat_add_index (w : Addr) (i : Byte) : (w + i.setWidth 16).toNat = (w.toNat + i.toNat) % 65536 := by
  have hi : i.toNat % 2 ^ 16 = i.toNat := Nat.mod_eq_of_lt (Nat.lt_trans i.isLt (by decide))
  rw [BitVec.toNat_add, BitVec.toNat_setWidth, hi]

/-- A page crossing is a change of the high byte (R127). -/
theorem crossed_iff (m : Mem) (s : State) :
    crossed m s = true ↔ (effAddr m s).toNat / 256 ≠ (baseAddr m s).toNat / 256 := by
  rw [crossed, bne_iff_ne, ne_eq, ← BitVec.toNat_inj, toNat_highByte, toNat_highByte]

/-- Settles O22: each clause is the sum of `effAddr` for its mode, in plain arithmetic. -/
theorem effectiveAddresses : Obligations.EffectiveAddresses := by
  intro b w s
  have wrap (i : Byte) : (zeroPage (b + i)).toNat = (b.toNat + i.toNat) % 256 := by
    rw [toNat_zeroPage, BitVec.toNat_add]
  have izx : (zeroPagePointer (b + s.x) s).toNat = (s.ram.get ((b.toNat + s.x.toNat + 1) % 256)).toNat * 256 +
      (s.ram.get ((b.toNat + s.x.toNat) % 256)).toNat := by
    rw [toNat_zeroPagePointer, BitVec.toNat_add, Nat.mod_add_mod]
  have page : (zeroPagePointer b s).toNat / 256 = (s.ram.get ((b.toNat + 1) % 256)).toNat := by
    rw [toNat_zeroPagePointer]
    omega
  have izy : (effAddr (.izy b) s).toNat = ((s.ram.get ((b.toNat + 1) % 256)).toNat * 256 + (s.ram.get b.toNat).toNat +
      s.y.toNat) % 65536 := by
    rw [← toNat_zeroPagePointer]
    exact toNat_add_index _ _
  refine ⟨toNat_zeroPage b, wrap s.x, wrap s.y, rfl, toNat_add_index w s.x, toNat_add_index w s.y, izx, izy, ?_, ?_, ?_, ?_, rfl⟩
  · simp only [crossingPenalty, crossed_iff]
    rfl
  · simp only [crossingPenalty, crossed_iff]
    rfl
  · rw [← page]
    simp only [crossingPenalty, crossed_iff]
    rfl
  · intro m hm
    cases m
    case abx | aby | izy => exact absurd hm (by simp [Mem.mode])
    all_goals rfl

/-! ### Overflow as a signed result out of range (R187) -/

theorem getLsbD_seven (v : Byte) : v.getLsbD 7 = decide (128 ≤ v.toNat) := BitVec.msb_eq_decide v

theorem toInt_byte (v : Byte) : v.toInt = if v.toNat < 128 then (v.toNat : Int) else v.toNat - 256 := by
  rw [BitVec.toInt_eq_toNat_cond]
  have h : 2 * v.toNat < 2 ^ 8 ↔ v.toNat < 128 := by omega
  simp only [h]
  rfl

/-- The sign formula: both operands have one sign, and the result has the other. -/
theorem sign_formula_iff (a m r : Byte) : ((~~~(a ^^^ m)) &&& (a ^^^ r)).getLsbD 7 = true ↔
    (128 ≤ a.toNat ↔ 128 ≤ m.toNat) ∧ ¬ (128 ≤ a.toNat ↔ 128 ≤ r.toNat) := by
  have bits : ((~~~(a ^^^ m)) &&& (a ^^^ r)).getLsbD 7 =
      (!(a.getLsbD 7 ^^ m.getLsbD 7) && (a.getLsbD 7 ^^ r.getLsbD 7)) := by simp
  rw [bits, getLsbD_seven, getLsbD_seven, getLsbD_seven]
  by_cases h : 128 ≤ a.toNat <;> simp [h]

theorem overflow_addWithCarry_iff (a m p : Byte) : getFlag .overflow (addWithCarry a m p).2 = true ↔
    a.toInt + m.toInt + (getFlag .carry p).toNat < -128 ∨ 127 < a.toInt + m.toInt + (getFlag .carry p).toNat := by
  have ha := a.isLt
  have hm := m.isLt
  have hc : (getFlag .carry p).toNat ≤ 1 := Bool.toNat_le _
  have hr := toNat_addWithCarry a m p
  rw [overflow_addWithCarry, sign_formula_iff, toInt_byte, toInt_byte]
  split <;> split <;> omega

/-- A complement is a negation less one. -/
theorem toInt_xor_ff (m : Byte) : (m ^^^ 0xFF#8).toInt = -m.toInt - 1 := by
  have hm := m.isLt
  rw [toInt_byte, toInt_byte, toNat_xor_ff]
  split <;> split <;> omega

/-- Settles O29: the sign formula of an addition by cases on the signs; a subtraction is the addition of the
complement. -/
theorem overflowIsSigned : Obligations.OverflowIsSigned := by
  rintro a m p _ rfl
  refine ⟨overflow_addWithCarry_iff a m p, ?_⟩
  rw [subWithBorrow, overflow_addWithCarry_iff, toInt_xor_ff]
  omega

/-! ### Modifying memory (R102, R181, R182) -/

theorem modifyMemStep_spec (i : Instr) (m : Mem) (f : Byte → Byte → Byte × Byte) (s : State) :
    ∃ t, modifyMemStep i m f s = .next t ∧
      Stored (effAddr m s) (f (readValue (effAddr m s) s) s.p).1 (readEffect (effAddr m s) s) s t ∧
      t.p = (f (readValue (effAddr m s) s) s.p).2 ∧ DataRegistersKept s t ∧
      MovedOn (instrLength i) (baseCycles i + if effAddr m s = 0x4014#16 then s.config.oamDmaCycles else 0) s t := by
  have hs : modifyMemStep i m f s = .next (spend i (writeExtra (effAddr m s) (toNext i s))
      ((memWrite (effAddr m s) (f (readValue (effAddr m s) s) s.p).1 (readEffect (effAddr m s) (toNext i s))).setP
        (f (readValue (effAddr m s) s) s.p).2)) := by
    simp only [modifyMemStep, toNext, effAddr_setPc, readValue_setPc, State.setPc_p]
  have read : SameStorage (readEffect (effAddr m s) s) (readEffect (effAddr m s) (toNext i s)) :=
    readEffect_same (s := s) (t := toNext i s) ⟨rfl, rfl, rfl⟩ _
  have stored := memWrite_same read (effAddr m s) (f (readValue (effAddr m s) s) s.p).1
  refine ⟨_, hs, stored_of (.inr ⟨rfl, rfl, rfl⟩) stored, rfl, ?_⟩
  rw [memWrite_eq, readEffect_eq, writeExtra_eq]
  exact ⟨⟨rfl, rfl, rfl, rfl⟩, movedOn_of rfl rfl ⟨rfl, rfl, rfl, rfl, rfl⟩⟩

/-- Settles O31: INC and DEC are `modifyMemStep` of `increment` and `decrement`. -/
theorem incrementMemory : Obligations.IncrementMemory := by
  refine ⟨fun b w => ⟨rfl, rfl⟩, ?_⟩
  rintro m s _ _ rfl rfl
  obtain ⟨t, ht, hstored, hp, kept⟩ := modifyMemStep_spec (.inc m) m increment s
  obtain ⟨t', ht', hstored', hp', kept'⟩ := modifyMemStep_spec (.dec m) m decrement s
  refine ⟨⟨_, t, ht, toNat_increment _ s.p, hstored, ?_⟩, ⟨_, t', ht', toNat_decrement _ s.p, hstored', ?_⟩⟩
  · rw [hp]
    exact ⟨znOf_setZN _ _, flagsKeptBut_setZN _ _, kept⟩
  · rw [hp']
    exact ⟨znOf_setZN _ _, flagsKeptBut_setZN _ _, kept'⟩

/-! ### Shifts and rotates (R190 to R194) -/

/-- The result and the flags of a shift: `q` is the pair of the byte `r` and a status byte that has the evicted bit in
Carry, Zero and Negative of the result, and every other flag of `p`. -/
def ShiftResult (p : Byte) (r : Nat) (evicted : Bool) (q : Byte × Byte) : Prop :=
  q.1.toNat = r ∧ getFlag .carry q.2 = evicted ∧ ZNOf q.1 q.2 ∧ FlagsKeptBut [.carry, .zero, .negative] p q.2

/-- Every shift sets Carry and then Zero and Negative. -/
theorem shiftResult_of {r : Nat} {v : Byte} (hr : v.toNat = r) (p : Byte) (evicted : Bool) :
    ShiftResult p r evicted (v, setZN v (setFlag .carry evicted p)) := by
  refine ⟨hr, by simp, znOf_setZN _ _, fun f hf => ?_⟩
  simp only [List.mem_cons, List.not_mem_nil, or_false, not_or] at hf
  obtain ⟨hc, hz, hn⟩ := hf
  rw [getFlag_setZN, if_neg hn, if_neg hz, getFlag_setFlag, if_neg hc]

section Shifts

variable (v p : Byte)

theorem shiftLeft_result : ShiftResult p (v.toNat * 2 % 256) (v.getLsbD 7) (shiftLeft v p) :=
  shiftResult_of (by rw [BitVec.toNat_shiftLeft, Nat.shiftLeft_eq]) p _

theorem shiftRight_result : ShiftResult p (v.toNat / 2) (v.getLsbD 0) (shiftRight v p) :=
  shiftResult_of (by rw [BitVec.toNat_ushiftRight, Nat.shiftRight_eq_div_pow]) p _

theorem toNat_shiftLeft_or (c : Bool) : ((v <<< 1) ||| BitVec.ofNat 8 c.toNat).toNat = (v.toNat * 2 + c.toNat) % 256 := by
  revert v c
  decide

theorem toNat_shiftRight_or (c : Bool) :
    ((v >>> 1) ||| (BitVec.ofNat 8 c.toNat <<< 7)).toNat = v.toNat / 2 + c.toNat * 128 := by
  revert v c
  decide

theorem rotateLeft_result :
    ShiftResult p ((v.toNat * 2 + (getFlag .carry p).toNat) % 256) (v.getLsbD 7) (rotateLeft v p) :=
  shiftResult_of (toNat_shiftLeft_or v _) p _

theorem rotateRight_result :
    ShiftResult p (v.toNat / 2 + (getFlag .carry p).toNat * 128) (v.getLsbD 0) (rotateRight v p) :=
  shiftResult_of (toNat_shiftRight_or v _) p _

end Shifts

theorem shiftAcc_spec (i : Instr) {f : Byte → Byte → Byte × Byte} {s : State} {r : Nat} {evicted : Bool}
    (h : ShiftResult s.p r evicted (f s.a s.p)) :
    ∃ t, modifyStep i .acc f s = .next t ∧ t.a.toNat = r ∧ getFlag .carry t.p = evicted ∧ ZNOf t.a t.p ∧
      FlagsKeptBut [.carry, .zero, .negative] s.p t.p ∧ t.x = s.x ∧ t.y = s.y ∧ t.sp = s.sp ∧ StorageKept s t ∧
      MovedOn (instrLength i) (baseCycles i) s t := by
  obtain ⟨hr, hc, hzn, hk⟩ := h
  exact ⟨_, rfl, hr, hc, hzn, hk, rfl, rfl, rfl, storageKept_movedOn rfl⟩

theorem shiftMem_spec (i : Instr) (m : Mem) {f : Byte → Byte → Byte × Byte} {s : State} {r : Nat} {evicted : Bool}
    (h : ShiftResult s.p r evicted (f (readValue (effAddr m s) s) s.p)) :
    ∃ (v : Byte) (t : State), modifyStep i (.mem m) f s = .next t ∧ v.toNat = r ∧ getFlag .carry t.p = evicted ∧
      Stored (effAddr m s) v (readEffect (effAddr m s) s) s t ∧ ZNOf v t.p ∧
      FlagsKeptBut [.carry, .zero, .negative] s.p t.p ∧ DataRegistersKept s t ∧
      MovedOn (instrLength i) (baseCycles i + if effAddr m s = 0x4014#16 then s.config.oamDmaCycles else 0) s t := by
  obtain ⟨hr, hc, hzn, hk⟩ := h
  obtain ⟨t, ht, hstored, hp, kept⟩ := modifyMemStep_spec i m f s
  refine ⟨_, t, ht, hr, ?_⟩
  rw [hp]
  exact ⟨hc, hstored, hzn, hk, kept⟩

/-- Settles O32: each of the four is a `modifyStep` of a `ShiftResult`. -/
theorem shiftsAndRotates : Obligations.ShiftsAndRotates := by
  refine ⟨⟨rfl, ?_⟩, ⟨fun b w => ⟨rfl, rfl, rfl, rfl⟩, ?_⟩⟩
  · rintro s _ rfl
    exact ⟨shiftAcc_spec (.asl .acc) (shiftLeft_result _ _), shiftAcc_spec (.lsr .acc) (shiftRight_result _ _),
      shiftAcc_spec (.rol .acc) (rotateLeft_result _ _), shiftAcc_spec (.ror .acc) (rotateRight_result _ _)⟩
  · rintro m s _ _ _ _ rfl rfl rfl rfl
    exact ⟨shiftMem_spec (.asl (.mem m)) m (shiftLeft_result _ _), shiftMem_spec (.lsr (.mem m)) m (shiftRight_result _ _),
      shiftMem_spec (.rol (.mem m)) m (rotateLeft_result _ _), shiftMem_spec (.ror (.mem m)) m (rotateRight_result _ _)⟩

end Sys2Proof.Proofs
end

section
/-! PROOFS. Jumps, branches, a call and its return (43_control_flow.md), the stack instructions (44_stack_flags_system.md)
and the interrupt sequence (R236, 60_exceptions.md R308 to R311). -/

namespace Sys2Proof.Proofs

open Sys2Proof.Machine

/-! ### JMP (R126, R200) -/

/-- The address of a pointer's high byte: the next one, within the pointer's page. -/
def pointerHigh (w : Addr) : Addr := joinBytes (highByte w) (lowByte w + 1#8)

theorem toNat_pointerHigh (w : Addr) : (pointerHigh w).toNat = w.toNat / 256 * 256 + (w.toNat + 1) % 256 := by
  rw [pointerHigh, toNat_joinBytes, toNat_highByte, BitVec.toNat_add, toNat_lowByte]
  exact congrArg _ (Nat.mod_add_mod _ _ _)

/-- The register window is made of whole pages. -/
theorem not_inWindow_pointerHigh {w : Addr} (h : ¬ InWindow w) : ¬ InWindow (pointerHigh w) := by
  unfold InWindow at *
  rw [toNat_pointerHigh]
  omega

theorem exec_jmp_ind (w : Addr) (s : State) : exec (.jmp (.ind w)) s = .next
    { s with
      pc := joinBytes (readValue (pointerHigh w) (readEffect w s)) (readValue w s)
      cyc := s.cyc + 5
      ppu := (readEffect (pointerHigh w) (readEffect w s)).ppu } := by
  have first : SameStorage (readEffect w s) (readEffect w (toNext (.jmp (.ind w)) s)) :=
    readEffect_same (s := s) (t := toNext (.jmp (.ind w)) s) ⟨rfl, rfl, rfl⟩ w
  have low : readValue w (toNext (.jmp (.ind w)) s) = readValue w s := readValue_setPc _ _ _
  calc exec (.jmp (.ind w)) s = .next (((readEffect (pointerHigh w) (readEffect w (toNext (.jmp (.ind w)) s))).setPc
        (joinBytes (readValue (pointerHigh w) (readEffect w (toNext (.jmp (.ind w)) s)))
          (readValue w (toNext (.jmp (.ind w)) s)))).addCycles 5) := rfl
    _ = _ := by
      rw [low, readValue_congr first, readEffect_eq (pointerHigh w), readEffect_congr first, readEffect_eq w s,
        readEffect_eq w (toNext (.jmp (.ind w)) s)]
      rfl

/-- Settles O33: `exec_jmp_ind` is the state after the two reads with PC moved. -/
theorem jumps : Obligations.Jumps := by
  refine ⟨fun w => ⟨rfl, rfl⟩, fun w high s hhigh => ⟨?abs, ?ind⟩⟩
  case abs =>
    exact ⟨_, rfl, rfl, rfl, ⟨rfl, rfl, rfl, rfl⟩, rfl, storageKept_of ⟨rfl, rfl, rfl⟩, ⟨rfl, rfl, rfl, rfl, rfl⟩⟩
  case ind =>
    obtain rfl : high = pointerHigh w := BitVec.eq_of_toNat_eq (hhigh.trans (toNat_pointerHigh w).symm)
    refine ⟨_, exec_jmp_ind w s, toNat_joinBytes _ _, rfl, ⟨rfl, rfl, rfl, rfl⟩, rfl, rfl, rfl,
      ⟨rfl, fun a ha => readValue_outside ha rfl rfl⟩, fun hw => ?_, ⟨rfl, rfl, rfl, rfl, rfl⟩⟩
    refine storageKept_of ⟨rfl, ?_, rfl⟩
    simp only [readEffect_outside hw, readEffect_outside (not_inWindow_pointerHigh hw)]

/-! ### A call and its return (R201, R202) -/

/-- Settles O35: the two bytes RTS pops are those `push16_stacked` lists, and the word popped is the address of the call's
last byte. -/
theorem callThenReturn : Obligations.CallThenReturn := by
  intro w s called before hs hcall hsp hlo hhi
  cases (exec_jsr w s).symm.trans hcall
  have stacked : Stacked _ s _ := Stacked.congr (t' := ((push16 (s.pc + 2#16) s).setPc w).addCycles 6)
    (push16_stacked (s.pc + 2#16) s) ⟨rfl, rfl, rfl⟩
  have sp : (((push16 (s.pc + 2#16) s).setPc w).addCycles 6).sp = s.sp - 2#8 := push16_sp _ _
  have sp1 : s.sp - 2#8 + 1#8 = s.sp - 1#8 := by bv_omega
  rw [sp, sp1, readValue_of_stacked (v := lowByte (s.pc + 2#16)) stacked hs (by simp)] at hlo
  rw [sp, BitVec.sub_add_cancel, readValue_of_stacked (v := highByte (s.pc + 2#16)) stacked hs (by simp)] at hhi
  rw [sp] at hsp
  refine ⟨_, exec_rts before, ?_, ?_⟩
  · rw [hsp, sp1, BitVec.sub_add_cancel, hlo, hhi, joinBytes_high_low]
    have h3 : s.pc + 2#16 + 1#16 = s.pc + 3#16 := by bv_omega
    show (s.pc + 2#16 + 1#16).toNat = _
    rw [h3]
    exact BitVec.toNat_add _ _
  · show before.sp + 2#8 = s.sp
    rw [hsp, BitVec.sub_add_cancel]

/-! ### Branches (R125, R203 to R211) -/

theorem toNat_branchTarget (next : Addr) (b : Byte) :
    ((branchTarget next b).toNat : Int) = (next.toNat + b.toInt) % 65536 := by
  have extended : ((b.signExtend 16).toNat : Int) = b.toInt % 65536 :=
    (congrArg Int.ofNat (BitVec.toNat_ofInt b.toInt)).trans (Int.toNat_of_nonneg (Int.emod_nonneg _ (by decide)))
  have sum : ((branchTarget next b).toNat : Int) = (next.toNat + (b.signExtend 16).toNat) % 65536 :=
    congrArg Int.ofNat (BitVec.toNat_add next (b.signExtend 16))
  rw [sum, extended, Int.add_emod_emod]

theorem branchStep_spec (i : Instr) (taken : Bool) (b : Byte) (s : State) (hl : instrLength i = 2)
    (hc : baseCycles i = 2) : ∃ (next : Addr) (t : State), next.toNat = (s.pc.toNat + 2) % 65536 ∧
      branchStep i taken b s = .next t ∧ (taken = false → t.pc = next ∧ t.cyc = s.cyc + 2) ∧
      (taken = true → (t.pc.toNat : Int) = (next.toNat + b.toInt) % 65536 ∧
        t.cyc = s.cyc + if t.pc.toNat / 256 = next.toNat / 256 then 3 else 4) ∧
      DataRegistersKept s t ∧ t.p = s.p ∧ StorageKept s t ∧ HiddenKept s t := by
  have hnext : (toNext i s).pc = s.pc + 2#16 := by
    rw [toNext, hl]
    rfl
  refine ⟨s.pc + 2#16, ?_⟩
  cases taken
  case false =>
    refine ⟨_, BitVec.toNat_add _ _, rfl, fun _ => ⟨hnext, ?_⟩, nofun, ⟨rfl, rfl, rfl, rfl⟩, rfl,
      storageKept_of ⟨rfl, rfl, rfl⟩, ⟨rfl, rfl, rfl, rfl, rfl⟩⟩
    show s.cyc + (baseCycles i + 0) = _
    rw [hc]
  case true =>
    refine ⟨_, BitVec.toNat_add _ _, rfl, nofun, fun _ => ⟨?_, ?_⟩, ⟨rfl, rfl, rfl, rfl⟩, rfl,
      storageKept_of ⟨rfl, rfl, rfl⟩, ⟨rfl, rfl, rfl, rfl, rfl⟩⟩
    · show ((branchTarget (toNext i s).pc b).toNat : Int) = _
      rw [hnext]
      exact toNat_branchTarget _ b
    · show s.cyc + (baseCycles i + (1 + if highByte (branchTarget (toNext i s).pc b) != highByte (toNext i s).pc then 1
        else 0)) = s.cyc + if (branchTarget (toNext i s).pc b).toNat / 256 = (s.pc + 2#16).toNat / 256 then 3 else 4
      rw [hnext, hc]
      simp only [bne_iff_ne, ne_eq, ← BitVec.toNat_inj, toNat_highByte]
      split <;> simp_all

/-- Settles O36: each branch is a `branchStep` on its flag. -/
theorem branches : Obligations.Branches := by
  refine ⟨fun b => rfl, fun b s i taken h => ?_⟩
  simp only [List.mem_cons, List.not_mem_nil, or_false, Prod.mk.injEq] at h
  rcases h with ⟨rfl, rfl⟩ | ⟨rfl, rfl⟩ | ⟨rfl, rfl⟩ | ⟨rfl, rfl⟩ | ⟨rfl, rfl⟩ | ⟨rfl, rfl⟩ | ⟨rfl, rfl⟩ | ⟨rfl, rfl⟩
  all_goals exact branchStep_spec _ _ b s rfl rfl

/-! ### PHA, PHP, PLA, PLP (R224 to R227) -/

theorem toNat_sp_sub {sp : Byte} {n k : Nat} (h : n + k = 256) (hn : n < 256) :
    (sp - BitVec.ofNat 8 n).toNat = (sp.toNat + k) % 256 := by
  rw [BitVec.toNat_sub, BitVec.toNat_ofNat, Nat.mod_eq_of_lt hn, Nat.add_comm]
  congr 2
  omega

/-- A step that pushes a byte which moving PC on does not change. -/
theorem pushStep_spec (i : Instr) (v : State → Byte) (s : State) (hv : v (toNext i s) = v s) :
    ∃ t, plainStep i (fun t => push (v t) t) s = .next t ∧ Stacked [(stackAddr s.sp, v s)] s t ∧
      t.sp.toNat = (s.sp.toNat + 255) % 256 ∧ t.a = s.a ∧ t.x = s.x ∧ t.y = s.y ∧ t.p = s.p ∧
      MovedOn (instrLength i) (baseCycles i) s t := by
  have stored : SameStorage (push (v s) s) (push (v s) (toNext i s)) := by
    rw [push_eq, push_eq]
    exact ⟨rfl, rfl, rfl⟩
  have hs : plainStep i (fun t => push (v t) t) s = .next (spend i 0 (push (v s) (toNext i s))) := by
    rw [← hv]
    rfl
  refine ⟨_, hs, Stacked.congr (push_stacked (v s) s) stored, toNat_sp_sub rfl (by decide), ?_⟩
  rw [push_eq]
  exact ⟨rfl, rfl, rfl, rfl, movedOn_of rfl rfl ⟨rfl, rfl, rfl, rfl, rfl⟩⟩

theorem pop_toNext (i : Instr) (s : State) :
    pop (toNext i s) = (readValue (stackAddr (s.sp + 1#8)) s, (toNext i s).setSp (s.sp + 1#8)) := by
  rw [pop_eq_readValue, toNext, readValue_setPc]
  rfl

/-- Settles O38: PHA and PHP are pushes; PLA and PLP write registers alone, by `pop_toNext`. -/
theorem stackInstructions : Obligations.StackInstructions := by
  refine ⟨rfl, fun s => ⟨pushStep_spec .pha State.a s rfl, pushStep_spec .php (fun t => pushedBySoftware t.p) s rfl, ?pla,
    ?plp⟩⟩
  case pla =>
    have hs : exec .pla s = .next (spend .pla 0 (((pop (toNext .pla s)).2.setA (pop (toNext .pla s)).1).setP
        (setZN (pop (toNext .pla s)).1 s.p))) := rfl
    rw [pop_toNext] at hs
    exact ⟨_, hs, rfl, znOf_setZN _ _, flagsKeptBut_setZN _ _, BitVec.toNat_add _ _, rfl, rfl, storageKept_movedOn rfl⟩
  case plp =>
    have hs : exec .plp s =
        .next (spend .plp 0 ((pop (toNext .plp s)).2.setP (pulledStatus (pop (toNext .plp s)).1))) := rfl
    rw [pop_toNext] at hs
    exact ⟨_, hs, rfl, BitVec.toNat_add _ _, rfl, rfl, rfl, storageKept_movedOn rfl⟩

/-! ### The interrupt sequence (R236, R308) -/

/-- From `s` to `t` the sequence was taken, with the return address `ret`, the pushed status `status` and the vector at
`vector`; of the NMI latch and the cycle counter it says nothing. -/
def Entered (ret : Addr) (status : Byte) (vector : Addr) (s t : State) : Prop :=
  Stacked [(stackAddr s.sp, highByte ret), (stackAddr (s.sp - 1#8), lowByte ret), (stackAddr (s.sp - 2#8), status)] s t ∧
  t.sp = s.sp - 3#8 ∧ getFlag .interruptDisable t.p = true ∧ FlagsKeptBut [.interruptDisable] s.p t.p ∧
  t.pc.toNat = (readValue (vector + 1#16) s).toNat * 256 + (readValue vector s).toNat ∧
  t.a = s.a ∧ t.x = s.x ∧ t.y = s.y ∧ t.halted = s.halted ∧ t.config = s.config ∧ t.inputs = s.inputs ∧
  t.events = s.events

theorem readValue_cartridge {a : Addr} (h : 0x4020 ≤ a.toNat) (s : State) : readValue a s = s.cart.read a := by
  simp only [readValue, route_cartridge h]

section Vector

variable (ret : Addr) (status : Byte) {vector : Addr} (h : 0x4020 ≤ vector.toNat) (h' : 0x4020 ≤ (vector + 1#16).toNat)
  (s : State)

include h h'

theorem enterInterrupt_entered : Entered ret status vector s (enterInterrupt ret status vector s) := by
  have stored : SameStorage (push status (push16 ret s)) (enterInterrupt ret status vector s) := by
    rw [enterInterrupt_eq ret status h h', push_eq, push16_eq]
    exact ⟨rfl, rfl, rfl⟩
  have disabled : getFlag .interruptDisable (setFlag .interruptDisable true s.p) = true := by
    rw [getFlag_setFlag, if_pos rfl]
  refine ⟨Stacked.congr (push3_stacked ret status s) stored, ?_⟩
  rw [enterInterrupt_eq ret status h h', readValue_cartridge h, readValue_cartridge h']
  exact ⟨rfl, disabled, flagsKeptBut_setFlag _ _ _, toNat_joinBytes _ _, rfl, rfl, rfl, rfl, rfl, rfl, rfl⟩

theorem enterInterrupt_cyc : (enterInterrupt ret status vector s).cyc = s.cyc := by
  rw [enterInterrupt_eq ret status h h']

theorem enterInterrupt_nmiPending : (enterInterrupt ret status vector s).nmiPending = s.nmiPending := by
  rw [enterInterrupt_eq ret status h h']

end Vector

/-- The NMI latch and the cycle counter are outside `Entered`. -/
theorem Entered.congr {ret : Addr} {status : Byte} {vector : Addr} {s t : State} (h : Entered ret status vector s t)
    (b : Bool) (n : Nat) : Entered ret status vector s ((t.setNmi b).addCycles n) := by
  obtain ⟨stacked, rest⟩ := h
  exact ⟨Stacked.congr stacked ⟨rfl, rfl, rfl⟩, rest⟩

theorem high_low_toNat (w : Addr) : (highByte w).toNat * 256 + (lowByte w).toNat = w.toNat := by
  rw [← toNat_joinBytes, joinBytes_high_low]

theorem toNat_sp_sub_three (sp : Byte) : (sp - 3#8).toNat = (sp.toNat + 253) % 256 := toNat_sp_sub rfl (by decide)

/-- Settles O40: BRK is the sequence with the address two bytes on. -/
theorem softwareInterrupt : Obligations.SoftwareInterrupt := by
  refine ⟨rfl, fun s => ⟨highByte (s.pc + 2#16), lowByte (s.pc + 2#16), _, rfl, ?_, ?_⟩⟩
  · rw [high_low_toNat]
    exact BitVec.toNat_add _ _
  · obtain ⟨stacked, sp, disabled, flags, pc, a, x, y, halted, config, inputs, events⟩ :=
      enterInterrupt_entered (s.pc + 2#16) (pushedBySoftware s.p) (vector := irqVector) (by decide) (by decide) s
    have cyc := enterInterrupt_cyc (s.pc + 2#16) (pushedBySoftware s.p) (vector := irqVector) (by decide) (by decide) s
    have nmi :=
      enterInterrupt_nmiPending (s.pc + 2#16) (pushedBySoftware s.p) (vector := irqVector) (by decide) (by decide) s
    exact ⟨Stacked.congr stacked ⟨rfl, rfl, rfl⟩, (congrArg BitVec.toNat sp).trans (toNat_sp_sub_three _), disabled, flags,
      pc, congrArg (· + 7) cyc, a, x, y, halted, nmi, config, inputs, events⟩

/-- The vector of each hardware interrupt (R301). -/
def vectorOf : InterruptKind → Addr
  | .nmi => nmiVector
  | .irq => irqVector

/-- The NMI latch after each entry: taking the NMI clears it. -/
def latchAfter (k : InterruptKind) (s : State) : Bool :=
  match k with
  | .nmi => false
  | .irq => s.nmiPending

theorem raiseInterrupt_entered (k : InterruptKind) (s : State) :
    Entered s.pc (pushedByHardware s.p) (vectorOf k) s (raiseInterrupt k s) ∧ (raiseInterrupt k s).cyc = s.cyc + 7 ∧
      (raiseInterrupt k s).nmiPending = latchAfter k s := by
  cases k with
  | nmi =>
    have entered := enterInterrupt_entered s.pc (pushedByHardware s.p) (vector := nmiVector) (by decide) (by decide) s
    have cyc := enterInterrupt_cyc s.pc (pushedByHardware s.p) (vector := nmiVector) (by decide) (by decide) s
    exact ⟨entered.congr false 7, congrArg (· + 7) cyc, rfl⟩
  | irq =>
    have entered := enterInterrupt_entered s.pc (pushedByHardware s.p) (vector := irqVector) (by decide) (by decide) s
    have cyc := enterInterrupt_cyc s.pc (pushedByHardware s.p) (vector := irqVector) (by decide) (by decide) s
    have nmi := enterInterrupt_nmiPending s.pc (pushedByHardware s.p) (vector := irqVector) (by decide) (by decide) s
    exact ⟨entered.congr (enterInterrupt s.pc (pushedByHardware s.p) irqVector s).nmiPending 7, congrArg (· + 7) cyc, nmi⟩

/-- Settles O43: both entries are the sequence with PC, and an NMI clears its latch. -/
theorem interruptEntry : Obligations.InterruptEntry := by
  rintro k s vector hvector
  obtain rfl : vector = vectorOf k := by
    rw [hvector]
    cases k <;> rfl
  obtain ⟨⟨stacked, sp, disabled, flags, pc, a, x, y, halted, config, inputs, events⟩, cyc, nmi⟩ :=
    raiseInterrupt_entered k s
  exact ⟨highByte s.pc, lowByte s.pc, _, rfl, high_low_toNat _, stacked,
    (congrArg BitVec.toNat sp).trans (toNat_sp_sub_three _), disabled, flags, pc, cyc, a, x, y, halted, nmi.trans (by cases k <;> rfl),
    config, inputs, events⟩

/-! ### An interrupt and its return (R309, R311) -/

/-- The status a handler's RTI loads: every flag as it was but Break and Unused. -/
theorem getFlag_pulled_pushed (f : Flag) (p : Byte) :
    getFlag f (pulledStatus (pushedByHardware p)) = (decide (f = .unused) || (decide (f ≠ .break) && getFlag f p)) := by
  by_cases h : f = .unused
  · subst h
    rw [getFlag_unused_pulledStatus]
    rfl
  · rw [getFlag_pulledStatus h, getFlag_pushedByHardware]

/-- Settles O44: the three bytes RTI pops are those `Entered` lists. -/
theorem interruptThenReturn : Obligations.InterruptThenReturn := by
  rintro k s _ before hs rfl hsp hread
  obtain ⟨⟨stacked, sp, -⟩, -⟩ := raiseInterrupt_entered k s
  have sp1 : s.sp - 3#8 + 1#8 = s.sp - 2#8 := by bv_omega
  have sp2 : s.sp - 3#8 + 2#8 = s.sp - 1#8 := by bv_omega
  rw [sp] at hsp hread
  simp only [List.forall_mem_cons, sp1, sp2, BitVec.sub_add_cancel] at hread
  obtain ⟨hstatus, hlo, hhi, -⟩ := hread
  rw [readValue_of_stacked (v := pushedByHardware s.p) stacked hs (by simp)] at hstatus
  rw [readValue_of_stacked (v := lowByte s.pc) stacked hs (by simp)] at hlo
  rw [readValue_of_stacked (v := highByte s.pc) stacked hs (by simp)] at hhi
  have hrti := exec_rti before
  rw [hsp, sp1, sp2, BitVec.sub_add_cancel, hstatus, hlo, hhi, joinBytes_high_low] at hrti
  refine ⟨_, hrti, rfl, rfl, fun f hf => ?_, getFlag_pulled_pushed .break s.p, getFlag_pulled_pushed .unused s.p⟩
  simp only [List.mem_cons, List.not_mem_nil, or_false, not_or] at hf
  obtain ⟨hb, hu⟩ := hf
  refine (getFlag_pulled_pushed f s.p).trans ?_
  rw [decide_eq_false hu, decide_eq_true hb, Bool.false_or, Bool.true_and]

/-! ### The halting and the undefined opcodes (R245, R246) -/

/-- Settles O42: by `execKil_eq` and `execUnd_eq`. -/
theorem haltingAndUndefinedOpcodes : Obligations.HaltingAndUndefinedOpcodes :=
  ⟨execKil_eq, fun op s => ⟨_, execUnd_eq op s, BitVec.toNat_add _ _, rfl⟩⟩

end Sys2Proof.Proofs
end

section
/-! PROOFS. The System loop and the host's calls (60_exceptions.md R305 to R323), power-on and reset (R340, R341), and the
cartridge of a container image (20_memory.md R93 to R95). -/

namespace Sys2Proof.Proofs

open Sys2Proof.Machine

/-! ### One iteration (R305 to R307, R320, R322) -/

/-- The next input is an iteration with these levels of the two lines, on the state `s0`, which is `s` with that input
taken off the list. -/
def Samples (irq stop : Bool) (s s0 : State) : Prop :=
  (s.inputs = [] ∧ irq = false ∧ stop = false ∧ s0 = s) ∨
    ∃ rest, s.inputs = .sample irq stop :: rest ∧ s0 = { s with inputs := rest }

section Iteration

variable {irq stop : Bool} {s s0 : State}

theorem step_eq_loopIteration (hc : s.cart.supported = true) (h : Samples irq stop s s0) :
    step s = loopIteration irq stop s0 ∧ s0 = s.setInputs s0.inputs := by
  rcases h with ⟨hi, rfl, rfl, rfl⟩ | ⟨rest, hi, rfl⟩
  · exact ⟨by rw [step, if_pos hc, takeInput, hi], rfl⟩
  · exact ⟨by rw [step, if_pos hc, takeInput, hi]; rfl, rfl⟩

theorem loopIteration_ended (h : s.halted = true ∨ stop = true) : loopIteration irq stop s = .next s := by
  have he : (s.halted || stop) = true := by
    rw [Bool.or_eq_true]
    exact h
  rw [loopIteration, if_pos he]

theorem not_ended (hr : s.halted = false) : ¬ (s.halted || false) = true := by
  rw [hr]
  decide

/-- The entry of an interrupt is followed by 21 ticks. -/
theorem followTicks_raiseInterrupt (k : InterruptKind) (hr : s.halted = false) :
    followTicks s (raiseInterrupt k s) = advance 21 (raiseInterrupt k s) := by
  obtain ⟨⟨-, -, -, -, -, -, -, -, halted, -⟩, cyc, -⟩ := raiseInterrupt_entered k s
  have h : ¬ (raiseInterrupt k s).halted = true := by
    rw [halted, hr]
    decide
  rw [followTicks, if_neg h, cyc, Nat.add_sub_cancel_left]

theorem loopIteration_nmi (hr : s.halted = false) (hn : s.nmiPending = true) :
    loopIteration irq false s = .next (advance 21 (raiseInterrupt .nmi s)) := by
  rw [loopIteration, if_neg (not_ended hr), if_pos hn, followTicks_raiseInterrupt .nmi hr]

theorem loopIteration_irq (hr : s.halted = false) (hn : s.nmiPending = false)
    (hi : getFlag .interruptDisable s.p = false) :
    loopIteration true false s = .next (advance 21 (raiseInterrupt .irq s)) := by
  have hn' : ¬ s.nmiPending = true := by
    rw [hn]
    decide
  rw [loopIteration, if_neg (not_ended hr), if_neg hn', if_pos (by rw [hi]; rfl), followTicks_raiseInterrupt .irq hr]

theorem loopIteration_instruction (hr : s.halted = false) (hn : s.nmiPending = false)
    (hi : irq = false ∨ getFlag .interruptDisable s.p = true) {t : State} (ht : processorStep s = .next t) :
    loopIteration irq false s = .next (if t.halted then t else advance (3 * (t.cyc - s.cyc)) t) := by
  have hn' : ¬ s.nmiPending = true := by
    rw [hn]
    decide
  have hi' : ¬ (irq && !getFlag .interruptDisable s.p) = true := by
    rcases hi with hi | hi
    · simp [hi]
    · simp [hi]
  rw [loopIteration, if_neg (not_ended hr), if_neg hn', if_neg hi', ht]
  rfl

end Iteration

/-- Settles O45: one lemma on `Machine.loopIteration`, whose short name this theorem, being protected, leaves as it is, for
each thing it can be. -/
protected theorem loopIteration : Obligations.LoopIteration := by
  intro s s0 irq stop hc h
  obtain ⟨hstep, hs0⟩ := step_eq_loopIteration hc h
  have halted : s0.halted = s.halted := by rw [hs0]; rfl
  have nmi : s0.nmiPending = s.nmiPending := by rw [hs0]; rfl
  have p : s0.p = s.p := by rw [hs0]; rfl
  have cyc : s0.cyc = s.cyc := by rw [hs0]; rfl
  rw [hstep, ← halted, ← nmi, ← p, ← cyc]
  refine ⟨loopIteration_ended, ?_⟩
  rintro hr rfl
  refine ⟨loopIteration_nmi hr, ?_, fun hn hi t ht => ⟨fun hh => ?_, fun hh => ?_⟩⟩
  · rintro hn rfl hi
    exact loopIteration_irq hr hn hi
  · rw [loopIteration_instruction hr hn hi ht, hh]
    rfl
  · rw [loopIteration_instruction hr hn hi ht, hh]
    rfl

/-! ### The instruction a step runs (R112) -/

/-- The fetch reads the decoded instruction and makes as many reads as it has bytes. -/
theorem fetch_eq_entry {s s1 s2 s3 : State} (h1 : s1 = (memRead s.pc s).2) (h2 : s2 = (memRead (s.pc + 1#16) s1).2)
    (h3 : s3 = (memRead (s.pc + 2#16) s2).2) :
    fetch s = (entryInstr (entryOf (memRead s.pc s).1) (memRead (s.pc + 1#16) s1).1 (memRead (s.pc + 2#16) s2).1,
      if opLength (memRead s.pc s).1 = 1 then s1 else if opLength (memRead s.pc s).1 = 2 then s2 else s3) := by
  subst h1 h2 h3
  cases e : entryOf (memRead s.pc s).1 with
  | f1 i =>
    have len : opLength (memRead s.pc s).1 = 1 := by simp only [opLength, e]
    simp only [fetch, e, len, if_true]
    rfl
  | f2 mk =>
    have len : opLength (memRead s.pc s).1 = 2 := by simp only [opLength, e]
    simp only [fetch, e, len]
    rfl
  | f3 mk =>
    have len : opLength (memRead s.pc s).1 = 3 := by simp only [opLength, e]
    simp only [fetch, e, len]
    rfl

/-- Settles O46: the fetch reads what the decoder reads, and the iteration runs it. -/
theorem stepRunsDecodedInstruction : Obligations.StepRunsDecodedInstruction := by
  intro s s0 s1 s2 s3 t i rest irq hc hr hn hi hinput h1 h2 h3 hd ht
  have h : Samples irq false s s0 := by
    rcases hinput with ⟨hl, hirq, he⟩ | hl
    · exact .inl ⟨hl, hirq, rfl, he⟩
    · exact .inr hl
  obtain ⟨hstep, hs0⟩ := step_eq_loopIteration hc h
  have pc : s0.pc = s.pc := by rw [hs0]; rfl
  have halted : s0.halted = s.halted := by rw [hs0]; rfl
  have nmi : s0.nmiPending = s.nmiPending := by rw [hs0]; rfl
  have p : s0.p = s.p := by rw [hs0]; rfl
  have cyc : s0.cyc = s.cyc := by rw [hs0]; rfl
  rw [← pc] at h1 h2 h3 hd
  refine ⟨(encodeDecodeRoundTrip _ _ _ hd).1, ?_, fun hw hw1 hw2 => ?_⟩
  · rw [decode_cons_cons_cons] at hd
    injection hd with hd
    obtain ⟨hinstr, -⟩ := Prod.mk.inj hd
    have hlen : opLength (memRead s0.pc s0).1 = instrLength i := by
      rw [← hinstr, opLength_eq]
      exact (entry_ok _ _ _).2.2.1.symm
    have hps : processorStep s0 = .next t := by
      rw [processorStep, fetch_eq_entry h1 h2 h3, hinstr, hlen]
      exact ht
    rw [hstep, loopIteration_instruction (halted.trans hr) (nmi.trans hn) (by rw [p]; exact hi) hps, cyc]
  · rw [← pc] at hw hw1 hw2
    have e1 : s1 = s0 := h1.trans (readEffect_outside hw s0)
    have e2 : s2 = s0 := h2.trans ((readEffect_outside hw1 s1).trans e1)
    exact ⟨e1, e2, h3.trans ((readEffect_outside hw2 s2).trans e2)⟩

/-! ### The host's calls (R323, R340, R341) -/

/-- Settles O49: a step takes the call off the list and makes it. -/
theorem hostCalls : Obligations.HostCalls := by
  rintro s _ rest c hc hi rfl
  have hstep : step s = hostCall c (s.setInputs rest) := by rw [step, if_pos hc, takeInput, hi]
  rw [hstep]
  refine ⟨?_, ?_, ?_, ?_, ?_, ?_, ?_, ?_, ?_⟩
  case refine_7 =>
    rintro rfl hr
    exact if_neg (by rw [State.setInputs_halted, hr]; decide)
  case refine_8 =>
    rintro rfl hr
    exact if_pos hr
  all_goals
    intros
    subst c
    rfl

/-- Settles O48: `powerOn` field by field, and `resetCall_eq`. -/
theorem powerOnAndReset : Obligations.PowerOnAndReset := by
  refine ⟨?_, fun s => ⟨_, ?_, resetCall_eq s⟩⟩
  · rintro s _ rfl
    have chr : (powerOn s).cart.chrMem = if s.cart.chrPages = 0 then s.config.chrRamInit else s.cart.chrMem := by
      by_cases hp : s.cart.chrPages = 0 <;> simp [powerOn, Cartridge.chrWritable, hp]
    have prg : (powerOn s).cart.prgRom = s.cart.prgRom := by
      rw [(powerOn_romKept s).1]
    exact ⟨rfl, rfl, rfl, rfl, rfl, rfl, rfl, rfl, rfl, rfl, rfl, rfl, rfl, rfl, rfl, rfl, rfl, rfl, rfl, rfl,
      fun k => ⟨rfl, rfl⟩, rfl, rfl, rfl, rfl, prg, chr⟩
  · rw [toNat_joinBytes, readValue_cartridge (by decide), readValue_cartridge (by decide)]

/-- Settles O47: by evaluation of the start state, whose PC is the reset vector's word by `reset_pc`. -/
theorem startState : Obligations.StartState := by
  rintro _ rfl
  exact ⟨rfl, rfl, rfl, rfl, rfl, rfl, rfl, rfl, reset_pc, rfl, rfl, rfl, rfl, rfl, rfl, rfl, rfl, rfl, rfl, rfl,
    fun x y => ⟨rfl, rfl⟩⟩

/-! ### The cartridge (R93 to R95) -/

/-- A memory made of bytes reads them back. -/
theorem get_ofBytesFrom (bytes : List Byte) (k n : Nat) :
    (Memory.ofBytesFrom k bytes).get (k + n) = bytes.getD n 0x00#8 := by
  induction bytes generalizing k n with
  | nil => rfl
  | cons v rest ih =>
    have tail (n : Nat) : (Memory.ofBytesFrom (k + 1) rest).get (k + (n + 1)) = rest.getD n 0x00#8 := by
      rw [← ih (k + 1) n]
      congr 1
      omega
    unfold Memory.ofBytesFrom
    split
    next hv =>
      cases n with
      | zero =>
        rw [hv]
        exact Sparse.get_of_forall_lt fun c hc => (Memory.ofBytesFrom_key_le hc).1
      | succ n => exact tail n
    next =>
      cases n with
      | zero => exact if_pos rfl
      | succ n => exact (if_neg (by omega)).trans (tail n)

theorem get_ofBytes (bytes : List Byte) (n : Nat) : (Memory.ofBytes bytes).get n = bytes.getD n 0x00#8 := by
  have h := get_ofBytesFrom bytes 0 n
  rwa [Nat.zero_add] at h

theorem step_unsupported {s : State} (h : s.cart.mapperId ≠ 0x00#8 ∨ s.cart.prgPages = 0) :
    step s = .refused .unsupportedCartridge := by
  refine if_neg fun hs => ?_
  rw [Cartridge.supported, Bool.and_eq_true, decide_eq_true_iff] at hs
  obtain ⟨hid, hpages⟩ := hs
  rcases h with h | h
  · rw [Mapper.ofId, if_neg h] at hid
    cases hid
  · omega

/-- The parts of an image after its header are where its header says. -/
theorem image_parts {header trainer prg chr after : List Byte} {start nprg nchr : Nat}
    (hstart : start = header.length + trainer.length) (hprg : prg.length = nprg) (hchr : chr.length = nchr) :
    ((header ++ trainer ++ prg ++ chr ++ after).drop start).take nprg = prg ∧
    ((header ++ trainer ++ prg ++ chr ++ after).drop (start + nprg)).take nchr = chr := by
  subst hstart hprg hchr
  constructor
  · rw [List.append_assoc, List.append_assoc, ← List.length_append, List.drop_left, List.take_left]
  · rw [List.append_assoc, ← List.length_append, ← List.length_append, List.drop_left, List.take_left]

/-- The cartridge of an image with these header bytes 4 to 7, whose mapper id is 0, and these ROMs. -/
def headerCartridge (chrRamInit : Memory) (b4 b5 b6 b7 : Byte) (prg chr : List Byte) : Cartridge where
  prgPages := b4.toNat
  chrPages := b5.toNat
  mirroring := b6.getLsbD 0
  fourScreen := b6.getLsbD 3
  battery := b6.getLsbD 1
  trainerPresent := b6.getLsbD 2
  consoleType := b7.extractLsb' 0 2
  mapperId := 0x00#8
  mapper := .fixed
  prgRom := Memory.ofBytes prg
  chrMem := if b5.toNat = 0 then chrRamInit else Memory.ofBytes chr

/-- Settles O50: `image_parts` cuts the image, and every check of the header passes. -/
theorem containerAndCartridge : Obligations.ContainerAndCartridge := by
  refine ⟨fun s h => step_unsupported h, ?_⟩
  intro b4 b5 b6 b7 reserved trainer prg chr after chrRamInit h7 h6 h4 hres htr hprg hchr
  obtain ⟨image, himage⟩ : ∃ image, image =
    [0x4E#8, 0x45#8, 0x53#8, 0x1A#8, b4, b5, b6, b7] ++ reserved ++ trainer ++ prg ++ chr ++ after := ⟨_, rfl⟩
  have magic : image.take 4 = [0x4E#8, 0x45#8, 0x53#8, 0x1A#8] := by rw [himage]; rfl
  have byte4 : image.getD 4 0x00#8 = b4 := by rw [himage]; rfl
  have byte5 : image.getD 5 0x00#8 = b5 := by rw [himage]; rfl
  have byte6 : image.getD 6 0x00#8 = b6 := by rw [himage]; rfl
  have byte7 : image.getD 7 0x00#8 = b7 := by rw [himage]; rfl
  have start : 16 + (if b6.getLsbD 2 = true then 512 else 0) =
      ([0x4E#8, 0x45#8, 0x53#8, 0x1A#8, b4, b5, b6, b7] ++ reserved).length + trainer.length := by
    rw [List.length_append, hres, htr]
    rfl
  have parts := image_parts (after := after) start hprg hchr
  rw [← himage] at parts
  obtain ⟨prgPart, chrPart⟩ := parts
  have long : ¬ image.length < 16 + (if b6.getLsbD 2 = true then 512 else 0) + b4.toNat * 16384 + b5.toNat * 8192 := by
    rw [start, himage]
    simp only [List.length_append]
    omega
  have id : (0x00#8 : Byte) ||| 0x00#8 = 0x00#8 := rfl
  have mapper : Mapper.ofId 0x00#8 = some .fixed := rfl
  have pages : ¬ b4.toNat = 0 := fun h => h4 (BitVec.eq_of_toNat_eq h)
  rw [← himage]
  refine ⟨headerCartridge chrRamInit b4 b5 b6 b7 prg chr, ?_, ?_, rfl, rfl, rfl, rfl, rfl, rfl, ?_, rfl,
    fun k _ => get_ofBytes prg k, fun h k _ => ?_, fun h => if_pos (congrArg BitVec.toNat h)⟩
  · simp only [Cartridge.ofImage, magic, byte4, byte5, byte6, byte7, h7, h6, id, mapper, prgPart, chrPart, if_neg pages,
      if_neg long, ne_eq, not_true_eq_false, if_false, headerCartridge]
  · exact decide_eq_true (Nat.one_le_iff_ne_zero.2 pages)
  · exact BitVec.extractLsb'_toNat 0 2 b7
  · have chrPages : ¬ b5.toNat = 0 := fun h' => h (BitVec.eq_of_toNat_eq h')
    rw [headerCartridge, if_neg chrPages]
    exact get_ofBytes chr k

end Sys2Proof.Proofs
end

section
/-! PROOFS. What nothing reads (10_state.md R29, R30): the cycle counter and the Decimal flag. One relation serves both:
from states that are alike, an instruction leaves states that are alike. -/

namespace Sys2Proof.Proofs

open Sys2Proof.Machine

/-! ### Status bytes that are alike -/

/-- The two status bytes have the same flags, but where `d` is set perhaps Decimal. -/
def AlikeFlags (d : Bool) (p q : Byte) : Prop := ∀ f : Flag, (d = true → f ≠ .decimal) → getFlag f q = getFlag f p

namespace AlikeFlags

variable {d : Bool} {p q : Byte}

theorem of_eq (d : Bool) (e : q = p) : AlikeFlags d p q := fun _ _ => congrArg _ e

theorem rfl' (d : Bool) (p : Byte) : AlikeFlags d p p := of_eq d rfl

theorem eq_of_false (h : AlikeFlags false p q) : q = p := flags_ext fun f => h f nofun

variable (h : AlikeFlags d p q)

include h

theorem flag {f : Flag} (hf : f ≠ .decimal) : getFlag f q = getFlag f p := h f fun _ => hf

theorem carryIn_eq : carryIn q = carryIn p := by rw [carryIn, carryIn, h.flag (by decide)]

theorem setFlag (g : Flag) (b : Bool) : AlikeFlags d (setFlag g b p) (setFlag g b q) := fun f hf => by
  rw [getFlag_setFlag, getFlag_setFlag, h f hf]

theorem setZN {v w : Byte} (e : w = v) : AlikeFlags d (setZN v p) (setZN w q) := by
  subst e
  exact (h.setFlag _ _).setFlag _ _

theorem compare {r u : Byte} (e : u = r) (m : Byte) : AlikeFlags d (compare r m p) (compare u m q) := by
  subst e
  exact (h.setFlag _ _).setZN rfl

theorem bitTest {a c : Byte} (e : c = a) (m : Byte) : AlikeFlags d (bitTest a m p) (bitTest c m q) := by
  subst e
  exact ((h.setFlag _ _).setFlag _ _).setFlag _ _

end AlikeFlags

/-- The flag computation `f` gives the same byte and alike flags from alike flags. -/
def Respects (d : Bool) (f : Byte → Byte × Byte) : Prop :=
  ∀ {p q : Byte}, AlikeFlags d p q → (f q).1 = (f p).1 ∧ AlikeFlags d (f p).2 (f q).2

section Respects

variable (d : Bool) (a v : Byte)

theorem respects_addWithCarry : Respects d (addWithCarry a v) := fun {p q} h => by
  have sum : (addWithCarry a v q).1 = (addWithCarry a v p).1 := by
    simp only [addWithCarry, h.carryIn_eq]
  refine ⟨sum, ?_⟩
  simp only [addWithCarry, h.carryIn_eq]
  exact ((h.setFlag _ _).setFlag _ _).setZN rfl

theorem respects_subWithBorrow : Respects d (subWithBorrow a v) := respects_addWithCarry d a _

theorem respects_increment : Respects d (increment v) := fun h => ⟨rfl, h.setZN rfl⟩

theorem respects_decrement : Respects d (decrement v) := fun h => ⟨rfl, h.setZN rfl⟩

theorem respects_shiftLeft : Respects d (shiftLeft v) := fun h => ⟨rfl, (h.setFlag _ _).setZN rfl⟩

theorem respects_shiftRight : Respects d (shiftRight v) := fun h => ⟨rfl, (h.setFlag _ _).setZN rfl⟩

theorem respects_rotateLeft : Respects d (rotateLeft v) := fun h => by
  unfold rotateLeft
  rw [h.carryIn_eq]
  exact ⟨rfl, (h.setFlag _ _).setZN rfl⟩

theorem respects_rotateRight : Respects d (rotateRight v) := fun h => by
  unfold rotateRight
  rw [h.carryIn_eq]
  exact ⟨rfl, (h.setFlag _ _).setZN rfl⟩

end Respects

/-! ### States that are alike -/

/-- `t` is `s` with `k` cycles more and alike flags. -/
def Alike (k : Nat) (d : Bool) (s t : State) : Prop :=
  ∃ q, AlikeFlags d s.p q ∧ t = { s with cyc := s.cyc + k, p := q }

namespace Alike

variable {k : Nat} {d : Bool} {s t : State}

theorem cyc_add (k : Nat) (s : State) : Alike k false s { s with cyc := s.cyc + k } := ⟨s.p, .rfl' _ _, rfl⟩

theorem eq_of_false (h : Alike k false s t) : t = { s with cyc := s.cyc + k } := by
  obtain ⟨q, hq, rfl⟩ := h
  rw [hq.eq_of_false]

variable (h : Alike k d s t)

include h

theorem storage : SameStorage s t := by
  obtain ⟨q, -, rfl⟩ := h
  exact ⟨rfl, rfl, rfl⟩

theorem p : AlikeFlags d s.p t.p := by
  obtain ⟨q, hq, rfl⟩ := h
  exact hq

theorem a : t.a = s.a := by obtain ⟨q, -, rfl⟩ := h; rfl
theorem x : t.x = s.x := by obtain ⟨q, -, rfl⟩ := h; rfl
theorem y : t.y = s.y := by obtain ⟨q, -, rfl⟩ := h; rfl
theorem sp : t.sp = s.sp := by obtain ⟨q, -, rfl⟩ := h; rfl
theorem pc : t.pc = s.pc := by obtain ⟨q, -, rfl⟩ := h; rfl
theorem cyc : t.cyc = s.cyc + k := by obtain ⟨q, -, rfl⟩ := h; rfl
theorem ppu : t.ppu = s.ppu := by obtain ⟨q, -, rfl⟩ := h; rfl
theorem halted : t.halted = s.halted := by obtain ⟨q, -, rfl⟩ := h; rfl
theorem nmiPending : t.nmiPending = s.nmiPending := by obtain ⟨q, -, rfl⟩ := h; rfl
theorem config : t.config = s.config := by obtain ⟨q, -, rfl⟩ := h; rfl
theorem inputs : t.inputs = s.inputs := by obtain ⟨q, -, rfl⟩ := h; rfl

theorem setA {v w : Byte} (e : w = v) : Alike k d (s.setA v) (t.setA w) := by
  obtain ⟨q, hq, rfl⟩ := h
  exact ⟨q, hq, e ▸ rfl⟩

theorem setX {v w : Byte} (e : w = v) : Alike k d (s.setX v) (t.setX w) := by
  obtain ⟨q, hq, rfl⟩ := h
  exact ⟨q, hq, e ▸ rfl⟩

theorem setY {v w : Byte} (e : w = v) : Alike k d (s.setY v) (t.setY w) := by
  obtain ⟨q, hq, rfl⟩ := h
  exact ⟨q, hq, e ▸ rfl⟩

theorem setSp {v w : Byte} (e : w = v) : Alike k d (s.setSp v) (t.setSp w) := by
  obtain ⟨q, hq, rfl⟩ := h
  exact ⟨q, hq, e ▸ rfl⟩

theorem setPc {v w : Addr} (e : w = v) : Alike k d (s.setPc v) (t.setPc w) := by
  obtain ⟨q, hq, rfl⟩ := h
  exact ⟨q, hq, e ▸ rfl⟩

theorem setNmi {b c : Bool} (e : c = b) : Alike k d (s.setNmi b) (t.setNmi c) := by
  obtain ⟨q, hq, rfl⟩ := h
  exact ⟨q, hq, e ▸ rfl⟩

theorem setPpu {u v : Ppu} (e : v = u) : Alike k d (s.setPpu u) (t.setPpu v) := by
  obtain ⟨q, hq, rfl⟩ := h
  exact ⟨q, hq, e ▸ rfl⟩

theorem emit {u v : UndefinedOpcode} (e : v = u) : Alike k d (s.emit u) (t.emit v) := by
  obtain ⟨q, hq, rfl⟩ := h
  exact ⟨q, hq, e ▸ rfl⟩

theorem setHalted (b : Bool) : Alike k d (s.setHalted b) (t.setHalted b) := by
  obtain ⟨q, hq, rfl⟩ := h
  exact ⟨q, hq, rfl⟩

theorem setInputs (l : List Input) : Alike k d (s.setInputs l) (t.setInputs l) := by
  obtain ⟨q, hq, rfl⟩ := h
  exact ⟨q, hq, rfl⟩

theorem setP {p q : Byte} (hq : AlikeFlags d p q) : Alike k d (s.setP p) (t.setP q) := by
  obtain ⟨_, -, rfl⟩ := h
  exact ⟨q, hq, rfl⟩

theorem addCycles (n : Nat) : Alike k d (s.addCycles n) (t.addCycles n) := by
  obtain ⟨q, hq, rfl⟩ := h
  refine ⟨q, hq, ?_⟩
  simp only [State.addCycles, Nat.add_right_comm]

/-- What changes the storage alone, and that by the storage alone, leaves alike states alike. -/
theorem ofStorage {u v : State} (hu : u = { s with ram := u.ram, ppu := u.ppu, cart := u.cart })
    (hv : v = { t with ram := v.ram, ppu := v.ppu, cart := v.cart }) (huv : SameStorage u v) : Alike k d u v := by
  obtain ⟨q, hq, rfl⟩ := h
  obtain ⟨ram, ppu, cart⟩ := huv
  rw [ram, ppu, cart] at hv
  refine ⟨q, ?_, ?_⟩
  · rw [hu]
    exact hq
  · rw [hv, hu]

theorem readEffect (a : Addr) : Alike k d (readEffect a s) (readEffect a t) := by
  have same := readEffect_same h.storage a
  refine h.ofStorage ?_ ?_ same <;> rw [readEffect_eq] <;> rfl

theorem memWrite (a : Addr) (v : Byte) : Alike k d (memWrite a v s) (memWrite a v t) :=
  h.ofStorage (memWrite_eq a v s) (memWrite_eq a v t) (memWrite_same h.storage a v)

theorem readValue (a : Addr) : readValue a t = readValue a s := readValue_congr h.storage a

theorem memRead16 (a : Addr) : (memRead16 a t).1 = (memRead16 a s).1 ∧ Alike k d (memRead16 a s).2 (memRead16 a t).2 := by
  refine ⟨?_, (h.readEffect a).readEffect _⟩
  simp only [Machine.memRead16, memRead, h.readValue, (h.readEffect a).readValue]

theorem push {v w : Byte} (e : w = v) : Alike k d (push v s) (push w t) := by
  subst e
  unfold Machine.push
  rw [h.sp]
  exact (h.memWrite _ w).setSp rfl

theorem push16 {v w : Addr} (e : w = v) : Alike k d (push16 v s) (push16 w t) :=
  (h.push (congrArg highByte e)).push (congrArg lowByte e)

theorem pop : (pop t).1 = (pop s).1 ∧ Alike k d (pop s).2 (pop t).2 := by
  rw [pop_eq_readValue, pop_eq_readValue, h.sp, h.readValue]
  exact ⟨rfl, h.setSp rfl⟩

theorem pop16 : (pop16 t).1 = (pop16 s).1 ∧ Alike k d (pop16 s).2 (pop16 t).2 := by
  rw [pop16_eq_readValue, pop16_eq_readValue, h.sp, h.readValue, h.readValue]
  exact ⟨rfl, h.setSp rfl⟩

theorem enterInterrupt {ret ret' : Addr} (er : ret' = ret) {status status' : Byte} (es : status' = status)
    (vector : Addr) : Alike k d (enterInterrupt ret status vector s) (enterInterrupt ret' status' vector t) := by
  have pushed := (h.push16 er).push es
  obtain ⟨word, read⟩ := (pushed.setP (pushed.p.setFlag .interruptDisable true)).memRead16 vector
  exact read.setPc word

theorem returnFromInterrupt : Alike k d (returnFromInterrupt s) (returnFromInterrupt t) := by
  obtain ⟨status, popped⟩ := h.pop
  have loaded := popped.setP (.rfl' d (pulledStatus (Machine.pop s).1))
  obtain ⟨word, popped16⟩ := loaded.pop16
  unfold Machine.returnFromInterrupt
  simp only [status]
  exact popped16.setPc word

/-- The pixel function reads neither the cycle counter nor P. -/
theorem pixel (x y : Nat) : pixel t x y = pixel s x y := by
  obtain ⟨q, -, rfl⟩ := h
  exact SamePixelInputs.pixel_eq ⟨rfl, rfl, rfl, rfl, rfl, rfl, rfl, rfl, rfl, rfl, rfl⟩ x y

theorem tick : Alike k d (tick s) (tick t) := by
  have advanced := h.setPpu (congrArg advancePosition h.ppu)
  have set : Alike k d (vblankSet (s.setPpu (advancePosition s.ppu))) (vblankSet (t.setPpu (advancePosition t.ppu))) :=
    (advanced.setPpu (by rw [advanced.ppu])).setNmi (by rw [advanced.ppu, advanced.nmiPending])
  have cleared : Alike k d (vblankClear _) (vblankClear _) := set.setPpu (by rw [set.ppu])
  have published : Alike k d (publish _) (publish _) := cleared.setPpu (by rw [cleared.ppu])
  exact published.setPpu (by simp only [published.ppu, published.pixel])

theorem advance (n : Nat) : Alike k d (advance n s) (advance n t) := by
  induction n generalizing s t with
  | zero => exact h
  | succ n ih => exact ih h.tick

/-! ### Operands -/

theorem baseAddr (m : Mem) : baseAddr m t = baseAddr m s := by
  cases m <;> simp only [Machine.baseAddr, zeroPagePointer, h.x, h.y, h.readValue]

theorem effAddr (m : Mem) : effAddr m t = effAddr m s := by
  cases m <;> simp only [Machine.effAddr, h.baseAddr, h.x, h.y]

theorem crossed (m : Mem) : crossed m t = crossed m s := by rw [Machine.crossed, h.effAddr, h.baseAddr]; rfl

theorem crossingPenalty (o : Src) : crossingPenalty o t = crossingPenalty o s := by
  cases o with
  | imm b => rfl
  | mem m => cases m <;> simp only [Machine.crossingPenalty, h.crossed]

theorem srcValue (o : Src) : srcValue o t = srcValue o s := by
  cases o with
  | imm b => rfl
  | mem m => simp only [Machine.srcValue, h.effAddr, h.readValue]

theorem srcEffect (o : Src) : Alike k d (srcEffect o s) (srcEffect o t) := by
  cases o with
  | imm b => exact h
  | mem m =>
    simp only [Machine.srcEffect, h.effAddr]
    exact h.readEffect _

theorem writeExtra (a : Addr) : writeExtra a t = writeExtra a s := by rw [writeExtra_eq, writeExtra_eq, h.config]

theorem jumpTarget (g : Target) :
    (jumpTarget g t).1 = (jumpTarget g s).1 ∧ Alike k d (jumpTarget g s).2 (jumpTarget g t).2 := by
  cases g with
  | abs w => exact ⟨rfl, h⟩
  | ind w =>
    refine ⟨?_, (h.readEffect w).readEffect _⟩
    simp only [Machine.jumpTarget, memRead, h.readValue, (h.readEffect w).readValue]

theorem toNext (i : Instr) : Alike k d (toNext i s) (toNext i t) := h.setPc (congrArg (· + _) h.pc)

theorem spend (i : Instr) (n : Nat) : Alike k d (spend i n s) (spend i n t) := h.addCycles _

end Alike

/-! ### Instructions -/

/-- Two answers that are next states, and those alike. -/
def NextAlike (k : Nat) (d : Bool) (r r' : Result) : Prop := ∃ s t, r = .next s ∧ r' = .next t ∧ Alike k d s t

/-- A computation on the state that leaves alike states alike. -/
def KeepsAlike (k : Nat) (d : Bool) (f : State → State) : Prop := ∀ s t : State, Alike k d s t → Alike k d (f s) (f t)

section Shapes

variable {k : Nat} {d : Bool} {s t : State} (h : Alike k d s t)

include h

theorem readStep_alike (i : Instr) (o : Src) {f : Byte → State → State} (hf : ∀ m, KeepsAlike k d (f m)) :
    NextAlike k d (readStep i o f s) (readStep i o f t) := by
  have h0 := h.toNext i
  refine ⟨_, _, rfl, rfl, ?_⟩
  rw [h0.srcValue, h0.crossingPenalty]
  exact (hf _ _ _ (h0.srcEffect o)).spend i _

theorem logicStep_alike (i : Instr) (o : Src) (f : Byte → Byte → Byte) :
    NextAlike k d (logicStep i o f s) (logicStep i o f t) :=
  readStep_alike h i o fun m _ _ h =>
    have e := congrArg (f · m) h.a
    (h.setA e).setP (h.p.setZN e)

theorem sumStep_alike (i : Instr) (o : Src) {f : Byte → Byte → Byte → Byte × Byte} (hf : ∀ a m, Respects d (f a m)) :
    NextAlike k d (sumStep i o f s) (sumStep i o f t) :=
  readStep_alike h i o fun m s t h => by
    obtain ⟨sum, flags⟩ := hf s.a m h.p
    rw [h.a]
    exact (h.setA sum).setP flags

theorem storeStep_alike (i : Instr) (m : Mem) {v w : Byte} (hv : w = v) :
    NextAlike k d (storeStep i m v s) (storeStep i m w t) := by
  have h0 := h.toNext i
  refine ⟨_, _, rfl, rfl, ?_⟩
  rw [hv, h0.effAddr, h0.writeExtra]
  exact (h0.memWrite _ _).spend i _

theorem modifyMemStep_alike (i : Instr) (m : Mem) {f : Byte → Byte → Byte × Byte} (hf : ∀ v, Respects d (f v)) :
    NextAlike k d (modifyMemStep i m f s) (modifyMemStep i m f t) := by
  have h0 := h.toNext i
  obtain ⟨result, flags⟩ := hf (readValue (effAddr m (toNext i s)) (toNext i s)) h0.p
  refine ⟨_, _, rfl, rfl, ?_⟩
  rw [h0.effAddr, h0.readValue, h0.writeExtra, result]
  exact (((h0.readEffect _).memWrite _ _).setP flags).spend i _

theorem modifyStep_alike (i : Instr) (o : Dst) {f : Byte → Byte → Byte × Byte} (hf : ∀ v, Respects d (f v)) :
    NextAlike k d (modifyStep i o f s) (modifyStep i o f t) := by
  cases o with
  | acc =>
    have h0 := h.toNext i
    obtain ⟨result, flags⟩ := hf (toNext i s).a h0.p
    refine ⟨_, _, rfl, rfl, ?_⟩
    rw [h0.a]
    exact ((h0.setA result).setP flags).spend i _
  | mem m => exact modifyMemStep_alike h i m hf

theorem plainStep_alike (i : Instr) {f : State → State} (hf : KeepsAlike k d f) :
    NextAlike k d (plainStep i f s) (plainStep i f t) := ⟨_, _, rfl, rfl, (hf _ _ (h.toNext i)).spend i _⟩

theorem branchStep_alike (i : Instr) {c c' : Bool} (hc : c' = c) (b : Byte) :
    NextAlike k d (branchStep i c b s) (branchStep i c' b t) := by
  have h0 := h.toNext i
  subst hc
  cases c'
  · exact ⟨_, _, rfl, rfl, h0.spend i _⟩
  · refine ⟨_, _, rfl, rfl, ?_⟩
    rw [h0.pc]
    exact (h0.setPc rfl).spend i _

/-- PHP and BRK push the status byte, so they leave alike states only from the same one. -/
theorem exec_alike (i : Instr) (hi : d = true → i ≠ .php ∧ i ≠ .brk) : NextAlike k d (exec i s) (exec i t) := by
  cases i
  case lda o => exact readStep_alike h (.lda o) o fun m _ _ h => (h.setA (rfl : m = m)).setP (h.p.setZN (rfl : m = m))
  case ldx o => exact readStep_alike h (.ldx o) o fun m _ _ h => (h.setX (rfl : m = m)).setP (h.p.setZN (rfl : m = m))
  case ldy o => exact readStep_alike h (.ldy o) o fun m _ _ h => (h.setY (rfl : m = m)).setP (h.p.setZN (rfl : m = m))
  case sta m => exact storeStep_alike h (.sta m) m h.a
  case stx m => exact storeStep_alike h (.stx m) m h.x
  case sty m => exact storeStep_alike h (.sty m) m h.y
  case tax => exact plainStep_alike h .tax fun _ _ h => (h.setX h.a).setP (h.p.setZN h.a)
  case tay => exact plainStep_alike h .tay fun _ _ h => (h.setY h.a).setP (h.p.setZN h.a)
  case txa => exact plainStep_alike h .txa fun _ _ h => (h.setA h.x).setP (h.p.setZN h.x)
  case tya => exact plainStep_alike h .tya fun _ _ h => (h.setA h.y).setP (h.p.setZN h.y)
  case tsx => exact plainStep_alike h .tsx fun _ _ h => (h.setX h.sp).setP (h.p.setZN h.sp)
  case txs => exact plainStep_alike h .txs fun _ _ h => h.setSp h.x
  case ora o | and o | eor o => exact logicStep_alike h _ o _
  case adc o => exact sumStep_alike h (.adc o) o (respects_addWithCarry d)
  case sbc o => exact sumStep_alike h (.sbc o) o (respects_subWithBorrow d)
  case cmp o => exact readStep_alike h (.cmp o) o fun m _ _ h => h.setP (h.p.compare h.a m)
  case cpx o => exact readStep_alike h (.cpx o) o fun m _ _ h => h.setP (h.p.compare h.x m)
  case cpy o => exact readStep_alike h (.cpy o) o fun m _ _ h => h.setP (h.p.compare h.y m)
  case bit m => exact readStep_alike h (.bit m) (.mem m) fun v _ _ h => h.setP (h.p.bitTest h.a v)
  case inc m => exact modifyMemStep_alike h (.inc m) m (respects_increment d)
  case dec m => exact modifyMemStep_alike h (.dec m) m (respects_decrement d)
  case inx => exact plainStep_alike h .inx fun _ _ h =>
    have e := congrArg (· + 1#8) h.x
    (h.setX e).setP (h.p.setZN e)
  case iny => exact plainStep_alike h .iny fun _ _ h =>
    have e := congrArg (· + 1#8) h.y
    (h.setY e).setP (h.p.setZN e)
  case dex => exact plainStep_alike h .dex fun _ _ h =>
    have e := congrArg (· - 1#8) h.x
    (h.setX e).setP (h.p.setZN e)
  case dey => exact plainStep_alike h .dey fun _ _ h =>
    have e := congrArg (· - 1#8) h.y
    (h.setY e).setP (h.p.setZN e)
  case asl o => exact modifyStep_alike h (.asl o) o (respects_shiftLeft d)
  case lsr o => exact modifyStep_alike h (.lsr o) o (respects_shiftRight d)
  case rol o => exact modifyStep_alike h (.rol o) o (respects_rotateLeft d)
  case ror o => exact modifyStep_alike h (.ror o) o (respects_rotateRight d)
  case jmp g => exact plainStep_alike h (.jmp g) fun _ _ h => (h.jumpTarget g).2.setPc (h.jumpTarget g).1
  case jsr w => exact plainStep_alike h (.jsr w) fun _ _ h => (h.push16 (congrArg (· - 1#16) h.pc)).setPc rfl
  case rts => exact plainStep_alike h .rts fun _ _ h => h.pop16.2.setPc (congrArg (· + 1#16) h.pop16.1)
  case bpl b | bvc b | bcc b | bne b =>
    exact branchStep_alike h _ (congrArg Bool.not (h.p.flag (by decide))) b
  case bmi b | bvs b | bcs b | beq b => exact branchStep_alike h _ (h.p.flag (by decide)) b
  case pha => exact plainStep_alike h .pha fun _ _ h => h.push h.a
  case php =>
    cases d
    · exact plainStep_alike h .php fun _ _ h => h.push (congrArg pushedBySoftware h.p.eq_of_false)
    · exact absurd rfl (hi rfl).1
  case pla =>
    exact plainStep_alike h .pla fun _ _ h => (h.pop.2.setA h.pop.1).setP (h.p.setZN h.pop.1)
  case plp =>
    exact plainStep_alike h .plp fun _ _ h => h.pop.2.setP (.of_eq d (congrArg pulledStatus h.pop.1))
  case clc | sec | cli | sei | cld | sed | clv => exact plainStep_alike h _ fun _ _ h => h.setP (h.p.setFlag _ _)
  case nop => exact plainStep_alike h .nop fun _ _ h => h
  case brk =>
    cases d
    · exact ⟨_, _, rfl, rfl, (h.enterInterrupt (congrArg (· + 2#16) h.pc) (congrArg pushedBySoftware h.p.eq_of_false)
        irqVector).spend .brk 0⟩
    · exact absurd rfl (hi rfl).2
  case rti => exact plainStep_alike h .rti fun _ _ h => h.returnFromInterrupt
  case kil op => exact ⟨_, _, rfl, rfl, (h.setHalted true).spend (.kil op) 0⟩
  case und op =>
    exact ⟨_, _, rfl, rfl, ((h.toNext (.und op)).emit (congrArg (UndefinedOpcode.mk · op) h.pc)).spend (.und op) 0⟩

end Shapes

/-! ### Steps, with the same status byte (R30) -/

section Steps

variable {k : Nat} {s t : State} (h : Alike k false s t)

include h

theorem fetch_alike : (fetch t).1 = (fetch s).1 ∧ Alike k false (fetch s).2 (fetch t).2 := by
  have h1 := h.readEffect s.pc
  have h2 := h1.readEffect (s.pc + 1#16)
  unfold fetch
  simp only [memRead, h.pc, h.readValue, h1.readValue, h2.readValue]
  cases entryOf (readValue s.pc s) with
  | f1 i => exact ⟨rfl, h1⟩
  | f2 mk => exact ⟨rfl, h2⟩
  | f3 mk => exact ⟨rfl, h2.readEffect _⟩

theorem processorStep_alike : NextAlike k false (processorStep s) (processorStep t) := by
  obtain ⟨instr, fetched⟩ := fetch_alike h
  unfold processorStep
  rw [instr]
  exact exec_alike fetched _ nofun

theorem raiseInterrupt_alike (i : InterruptKind) : Alike k false (raiseInterrupt i s) (raiseInterrupt i t) := by
  have status := congrArg pushedByHardware h.p.eq_of_false
  cases i
  · exact ((h.enterInterrupt h.pc status _).setNmi rfl).addCycles 7
  · exact (h.enterInterrupt h.pc status _).addCycles 7

theorem followTicks_alike {u v : State} (huv : Alike k false u v) :
    Alike k false (followTicks s u) (followTicks t v) := by
  have spent : v.cyc - t.cyc = u.cyc - s.cyc := by rw [huv.cyc, h.cyc, Nat.add_sub_add_right]
  unfold followTicks
  rw [huv.halted, spent]
  split
  · exact huv
  · exact huv.advance _

theorem loopIteration_alike (irqLine stop : Bool) :
    NextAlike k false (Machine.loopIteration irqLine stop s) (Machine.loopIteration irqLine stop t) := by
  unfold Machine.loopIteration
  rw [h.halted, h.nmiPending, h.p.eq_of_false]
  split
  · exact ⟨_, _, rfl, rfl, h⟩
  split
  · exact ⟨_, _, rfl, rfl, followTicks_alike h (raiseInterrupt_alike h .nmi)⟩
  split
  · exact ⟨_, _, rfl, rfl, followTicks_alike h (raiseInterrupt_alike h .irq)⟩
  · obtain ⟨u, v, hu, hv, huv⟩ := processorStep_alike h
    rw [hu, hv]
    exact ⟨_, _, rfl, rfl, followTicks_alike h huv⟩

theorem resetCall_alike : Alike k false (resetCall s) (resetCall t) := by
  obtain ⟨target, read⟩ := h.memRead16 resetVector
  exact ((read.setPc target).setHalted false).setNmi rfl

theorem hostCall_alike {c : HostCall} (hc : c ≠ .powerOn) : NextAlike k false (hostCall c s) (hostCall c t) := by
  cases c
  case powerOn => exact absurd rfl hc
  case reset => exact ⟨_, _, rfl, rfl, resetCall_alike h⟩
  case step =>
    simp only [hostCall, h.halted]
    split
    · exact ⟨_, _, rfl, rfl, h⟩
    · exact processorStep_alike h
  case advance n => exact ⟨_, _, rfl, rfl, h.advance n⟩
  case readByte a => exact ⟨_, _, rfl, rfl, h.readEffect a⟩
  case readWord a => exact ⟨_, _, rfl, rfl, (h.memRead16 a).2⟩
  case writeByte a v => exact ⟨_, _, rfl, rfl, h.memWrite a v⟩
  case writeWord a v => exact ⟨_, _, rfl, rfl, (h.memWrite a (lowByte v)).memWrite (a + 1#16) (highByte v)⟩

theorem takeInput_alike (hi : ∀ rest : List Input, s.inputs ≠ .call .powerOn :: rest) :
    NextAlike k false (takeInput s) (takeInput t) := by
  unfold takeInput
  rw [h.inputs]
  match hs : s.inputs with
  | [] => exact loopIteration_alike h false false
  | .sample irqLine stop :: rest => exact loopIteration_alike (h.setInputs rest) irqLine stop
  | .call c :: rest =>
    exact hostCall_alike (h.setInputs rest) fun hc => hi rest (hs.trans (hc ▸ rfl))

end Steps

theorem step_powerOn {s : State} {rest : List Input} (h : s.inputs = .call .powerOn :: rest) (k : Nat) :
    step { s with cyc := s.cyc + k } = step s := by
  simp only [step, takeInput, h]
  rfl

/-- Settles O52: nothing but power-on, which sets the counter, tells `s` from `s` with more cycles counted. -/
theorem cycleCounterIsUnread : Obligations.CycleCounterIsUnread := by
  refine ⟨fun i s t k h => ?instr, fun s t k hi h => ?step, fun s k rest h => step_powerOn h k, fun s k r h => ?refused⟩
  case instr =>
    obtain ⟨u, v, hu, hv, huv⟩ := exec_alike (Alike.cyc_add k s) i nofun
    cases hu.symm.trans h
    rw [hv, huv.eq_of_false]
  case step =>
    obtain ⟨u, v, hu, hv, huv⟩ := takeInput_alike (Alike.cyc_add k s) hi
    unfold step at *
    split at h
    case isTrue hc =>
      cases hu.symm.trans h
      rw [if_pos hc, hv, huv.eq_of_false]
    case isFalse => cases h
  case refused =>
    by_cases hp : ∃ rest, s.inputs = .call .powerOn :: rest
    · obtain ⟨rest, hp⟩ := hp
      rw [step_powerOn hp, h]
    · obtain ⟨u, v, hu, -⟩ := takeInput_alike (Alike.cyc_add k s) fun rest hs => hp ⟨rest, hs⟩
      unfold step at *
      split at h
      case isTrue => cases hu.symm.trans h
      case isFalse hc => rw [if_neg hc, h]

/-! ### Instructions, with another Decimal flag (R29, R173) -/

/-- A byte outside the cell pushed to reads the same whatever is pushed. -/
theorem readValue_push_alike {k : Nat} {d : Bool} {s t : State} (h : Alike k d s t) (v w : Byte) {a : Addr}
    (ha : ¬ SameCell a (stackAddr s.sp)) : readValue a (push w t) = readValue a (push v s) := by
  obtain ⟨-, -, -, kept, -⟩ := push_stacked v s
  obtain ⟨-, -, -, kept', -⟩ := push_stacked w t
  rw [kept a (by simpa using ha), kept' a (by simpa [h.sp] using ha), h.readValue]

/-- What O53 says of the two next states. -/
def SameButDecimal (t t' : State) : Prop :=
  t' = { t with p := t'.p, ram := t'.ram } ∧ FlagsKeptBut [.decimal] t.p t'.p ∧
    ∀ a : Addr, ¬ SameCell a (stackAddr (t.sp + 1#8)) → readValue a t' = readValue a t

theorem flagsKeptBut_of_alike {p q : Byte} (h : AlikeFlags true p q) : FlagsKeptBut [.decimal] p q := fun f hf =>
  h.flag (by simpa using hf)

theorem sameButDecimal_of_alike {t t' : State} (h : Alike 0 true t t') : t'.ram = t.ram ∧ SameButDecimal t t' := by
  refine ⟨h.storage.1, ?_, flagsKeptBut_of_alike h.p, fun a _ => h.readValue a⟩
  obtain ⟨q, -, rfl⟩ := h
  rfl

/-- States whose storage is that after a push on alike states: the cell pushed to is the one above SP. -/
theorem sameButDecimal_of_push {u u' t t' : State} (h : Alike 0 true u u') {v w : Byte} (e : SameStorage (push v u) t)
    (e' : SameStorage (push w u') t') (hsp : t.sp = u.sp - 1#8) (rest : t' = { t with p := t'.p, ram := t'.ram })
    (flags : AlikeFlags true t.p t'.p) : SameButDecimal t t' := by
  refine ⟨rest, flagsKeptBut_of_alike flags, fun a ha => ?_⟩
  rw [hsp, BitVec.sub_add_cancel] at ha
  rw [readValue_congr e', readValue_congr e, readValue_push_alike h v w ha]

theorem exec_php_sameButDecimal {s s' : State} (h : Alike 0 true s s') :
    ∃ t t', exec .php s = .next t ∧ exec .php s' = .next t' ∧ SameButDecimal t t' := by
  have run : ∀ s : State, exec .php s = .next { push (pushedBySoftware s.p) s with
      pc := s.pc + 1#16, sp := s.sp - 1#8, p := s.p, cyc := s.cyc + 3 } := fun s => by
    show Host.Outcome.next (spend .php 0 (push (pushedBySoftware s.p) (toNext .php s))) = _
    rw [push_eq, push_eq]
    rfl
  refine ⟨_, _, run s, run s', sameButDecimal_of_push h ⟨rfl, rfl, rfl⟩ ⟨rfl, rfl, rfl⟩ rfl ?_ h.p⟩
  obtain ⟨q, -, rfl⟩ := h
  rw [push_eq, push_eq]
  rfl

theorem exec_brk_sameButDecimal {s s' : State} (h : Alike 0 true s s') :
    ∃ t t', exec .brk s = .next t ∧ exec .brk s' = .next t' ∧ SameButDecimal t t' := by
  have vector : 0x4020 ≤ irqVector.toNat ∧ 0x4020 ≤ (irqVector + 1#16).toNat := by decide
  have run : ∀ s : State, exec .brk s = .next { push (pushedBySoftware s.p) (push16 (s.pc + 2#16) s) with
      pc := joinBytes (s.cart.read (irqVector + 1#16)) (s.cart.read irqVector), sp := s.sp - 3#8
      p := setFlag .interruptDisable true s.p, cyc := s.cyc + 7 } := fun s => by
    show Host.Outcome.next (spend .brk 0 (enterInterrupt (s.pc + 2#16) (pushedBySoftware s.p) irqVector s)) = _
    rw [enterInterrupt_eq _ _ vector.1 vector.2, push_eq, push16_eq]
    rfl
  refine ⟨_, _, run s, run s', sameButDecimal_of_push (h.push16 (congrArg (· + 2#16) h.pc)) ⟨rfl, rfl, rfl⟩
    ⟨rfl, rfl, rfl⟩ ?_ ?_ (h.p.setFlag _ _)⟩
  · rw [push16_sp]
    show s.sp - 3#8 = s.sp - 2#8 - 1#8
    bv_omega
  · obtain ⟨q, -, rfl⟩ := h
    rw [push_eq, push_eq, push16_eq, push16_eq]
    rfl

theorem setDecimal_alike (s : State) (b : Bool) : Alike 0 true s { s with p := setFlag .decimal b s.p } :=
  ⟨_, fun f hf => by rw [getFlag_setFlag, if_neg (hf rfl)], rfl⟩

/-- Settles O53: alike states step to alike states, but for the byte PHP and BRK push. -/
theorem decimalFlagHasNoEffect : Obligations.DecimalFlagHasNoEffect := by
  intro i s t b h
  have alike := setDecimal_alike s b
  by_cases hi : i = .php ∨ i = .brk
  · obtain ⟨u, u', hu, hu', hp, hflags, hread⟩ : ∃ t t', exec i s = .next t ∧
        exec i { s with p := setFlag .decimal b s.p } = .next t' ∧ SameButDecimal t t' := by
      rcases hi with rfl | rfl
      · exact exec_php_sameButDecimal alike
      · exact exec_brk_sameButDecimal alike
    cases hu.symm.trans h
    exact ⟨u', hu', hp, hflags, fun h1 h2 => (hi.elim h1 h2).elim, hread⟩
  · obtain ⟨u, u', hu, hu', huu⟩ := exec_alike alike i fun _ => not_or.mp hi
    cases hu.symm.trans h
    obtain ⟨hram, hp, hflags, hread⟩ := sameButDecimal_of_alike huu
    exact ⟨u', hu', hp, hflags, fun _ _ => hram, hread⟩

end Sys2Proof.Proofs
end
